-- ==== Sys2Proof/Syntax.lean ====
section
/-! DEFINITION. The command set of the CTE block: one constructor per row of the command map
(spec 30_encoding.md R113, opcode_table.json). -/

namespace Sys2Proof

/-- The fourteen commands. No command has an operand field: every operand is implicit
(30_encoding.md R111). -/
inductive Instr where
  /-- NOP, 0x00: no operation (R250). -/
  | nop
  /-- CLEAR, 0x01: discard the telegram and unfreeze TBUF (R251). -/
  | clear
  /-- ADDRENC, 0x02: encode ADDR into AENC_* (R162). -/
  | addrenc
  /-- FMT.ZA, 0x10: format a FreeText telegram (R190). -/
  | fmtZa
  /-- FMT.ZI, 0x11: format a CompactText telegram (R191). -/
  | fmtZi
  /-- FMT.V, 0x12: format a RunNumber telegram (R192). -/
  | fmtV
  /-- FMT.AA, 0x13: format a TwoLineDisplay telegram (R193). -/
  | fmtAa
  /-- NORM, 0x20: substitute the German characters in TBUF (R145). -/
  | norm
  /-- SEAL, 0x30: append CR and the checksum (R220). -/
  | sealTelegram
  /-- XMIT, 0x40: hand TBUF[0..TLEN) to the sink (R242). -/
  | xmit
  /-- SEND.ZA, 0x90: FMT.ZA, NORM, SEAL, XMIT (R245, R249). -/
  | sendZa
  /-- SEND.ZI, 0x91: FMT.ZI, NORM, SEAL, XMIT (R246, R249). -/
  | sendZi
  /-- SEND.V, 0x92: FMT.V, NORM, SEAL, XMIT (R247, R249). -/
  | sendV
  /-- SEND.AA, 0x93: FMT.AA, NORM, SEAL, XMIT (R248, R249). -/
  | sendAa
  deriving DecidableEq, Repr

end Sys2Proof
end

