-- ==== Sys2Proof/Word.lean ====
section
/-! DEFINITION. The words of the CTE block: bytes, 12-bit register-space addresses and 16-bit lengths
(spec 00_scope.md R13, 20_memory.md R80 and R84). -/

namespace Sys2Proof

/-- One byte: the width of every register and of every host access (R13, R83). -/
abbrev Byte := BitVec 8

/-- A byte address of the register space, `reg_addr[11:0]` (R80). -/
abbrev Addr := BitVec 12

/-- A 16-bit length register (ILEN, L1LEN, TLEN), held as a LO/HI pair (R32, R84). -/
abbrev Half := BitVec 16

end Sys2Proof
end

