-- ==== Sys2Proof/Decode.lean ====
section
/-! DEFINITION. Decoding a command byte and encoding a command (spec 30_encoding.md R110 to R117). -/

namespace Sys2Proof

/-- What a command byte names: a command, or RESERVED (R114). -/
inductive Decoded where
  /-- One of the fourteen commands. -/
  | command (i : Instr)
  /-- One of the 242 reserved values: the CMD write is rejected with BADCMD (R116). -/
  | reserved
  deriving DecidableEq, Repr

/-- Field S, bit 7 of a command byte: 1 is a send chain (R110). -/
def fieldS (c : Byte) : BitVec 1 := c.extractLsb' 7 1

/-- Field G, bits 6:4 of a command byte: the group (R110). -/
def fieldG (c : Byte) : BitVec 3 := c.extractLsb' 4 3

/-- Field F, bits 3:0 of a command byte: the function within the group (R110). -/
def fieldF (c : Byte) : BitVec 4 := c.extractLsb' 0 4

/-- The triple S, G, F as one number, in the order the columns of R113 give them. -/
def fields (c : Byte) : Nat × Nat × Nat := ((fieldS c).toNat, (fieldG c).toNat, (fieldF c).toNat)

/-- `decode` of R114, total on every byte: the fields are read (R110) and the triple is looked up in the
command map (R113). Every triple that is not listed is reserved (R116). -/
def decode (c : Byte) : Decoded :=
  match fields c with
  | (0, 0, 0) => .command .nop
  | (0, 0, 1) => .command .clear
  | (0, 0, 2) => .command .addrenc
  | (0, 1, 0) => .command .fmtZa
  | (0, 1, 1) => .command .fmtZi
  | (0, 1, 2) => .command .fmtV
  | (0, 1, 3) => .command .fmtAa
  | (0, 2, 0) => .command .norm
  | (0, 3, 0) => .command .sealTelegram
  | (0, 4, 0) => .command .xmit
  | (1, 1, 0) => .command .sendZa
  | (1, 1, 1) => .command .sendZi
  | (1, 1, 2) => .command .sendV
  | (1, 1, 3) => .command .sendAa
  | _ => .reserved

/-- The opcode of a command, column c of R113. -/
def encode : Instr → Byte
  | .nop => 0x00
  | .clear => 0x01
  | .addrenc => 0x02
  | .fmtZa => 0x10
  | .fmtZi => 0x11
  | .fmtV => 0x12
  | .fmtAa => 0x13
  | .norm => 0x20
  | .sealTelegram => 0x30
  | .xmit => 0x40
  | .sendZa => 0x90
  | .sendZi => 0x91
  | .sendV => 0x92
  | .sendAa => 0x93

/-- The command byte that a row of the opcode table lays out: its low `nbits` bits of `w`, the rest zero.
A command is always exactly one byte (R110, R117). -/
def commandByte (nbits w : Nat) : Byte := BitVec.ofNat 8 (w % 2 ^ nbits)

/-- The command the decoder reads from a table word. -/
def decodeTableWord (nbits w : Nat) : Option Instr :=
  match decode (commandByte nbits w) with
  | .command i => some i
  | .reserved => none

end Sys2Proof
end

