-- ==== Sys2Proof/Config.lean ====
section
/-! DEFINITION. What an implementation of the CTE block fixes (spec 00_scope.md R7 to R12) and the values
the spec leaves free (93_implementation_defined.md). -/

namespace Sys2Proof

/-- The byte encoding of the seven German source characters, parameter SUBST_ENC (R9). -/
inductive SubstEnc where
  /-- Each source character is 0xC3 and a second byte. -/
  | utf8
  /-- Each source character is one byte. -/
  | latin1
  deriving DecidableEq, Repr

/-- The parameters a model takes as arguments (R7, R8, R9). They stand in a field of the state that nothing
writes, so that every rule is stated for arbitrary legal values (notes/assumptions/2.md). -/
structure Params where
  /-- IBUF_SIZE (R7). -/
  ibufSize : Nat
  /-- TBUF_SIZE (R8). -/
  tbufSize : Nat
  /-- SUBST_ENC (R9). -/
  substEnc : SubstEnc
  deriving DecidableEq, Repr

/-- The default column of R7, R8 and R9: what "this hardware" takes when nothing else is said. -/
def Params.default : Params := { ibufSize := 256, tbufSize := 512, substEnc := .utf8 }

/-- SEED, the checksum accumulator's first value (R12). -/
def Config.seed : Byte := 0x7F
/-- CR, the frame terminator (R12). -/
def Config.cr : Byte := 0x0D
/-- LF, the line separator of the two-line display (R12). -/
def Config.lf : Byte := 0x0A
/-- SP, the padding byte (R12). -/
def Config.sp : Byte := 0x20
/-- PLACEHOLDER, the byte SEAL appends and then overwrites; fixed at 0x00 (R10). -/
def Config.placeholder : Byte := 0x00
/-- The block size of FreeText and TwoLineDisplay (R12). -/
def Config.blockLong : Nat := 16
/-- The block size of CompactText (R12). -/
def Config.blockShort : Nat := 4

/-- FREE VALUE (93_implementation_defined.md I2, I3, I4, I5): the byte the `n`-th unspecified host read draws.
It has no body, so nothing can be proved of what it is (notes/assumptions/4.md). -/
opaque Config.freeByte : Nat → Byte

/-- FREE VALUE (93_implementation_defined.md I6): what `tx_data` carries while `tx_valid` = 0
(notes/assumptions/11.md). -/
opaque Config.freeTxData : Nat → Byte

end Sys2Proof
end

