-- ==== Sys2Proof/Machine/Bytes.lean ====
section
/-! DEFINITION. Byte strings and the functions the commands compute on them: halves of a 16-bit register, the
address encoder (spec 42_address_encoder.md), padding and the four telegrams (43_formatter.md), substitution
(41_normalizer.md) and the checksum (44_sealer.md). No state is named here. -/

namespace Sys2Proof.Machine

/-! ### The LO/HI halves of a 16-bit register (20_memory.md R84) -/

/-- Bits 7:0. -/
def loByte (h : Half) : Byte := h.extractLsb' 0 8

/-- Bits 15:8. -/
def hiByte (h : Half) : Byte := h.extractLsb' 8 8

/-- Replace bits 7:0; the other half keeps its value (R47). -/
def setLoByte (h : Half) (v : Byte) : Half := hiByte h ++ v

/-- Replace bits 15:8; the other half keeps its value (R47). -/
def setHiByte (h : Half) (v : Byte) : Half := v ++ loByte h

/-! ### Address encoder -/

/-- `hi(v)` = v[7:4] (R16). -/
def hiNibble (v : Byte) : BitVec 4 := v.extractLsb' 4 4

/-- `lo(v)` = v[3:0] (R16). -/
def loNibble (v : Byte) : BitVec 4 := v.extractLsb' 0 4

/-- ALPHA, the sixteen characters `0123456789:;<=>?` (R160). -/
def alphabet : List Byte :=
  [0x30, 0x31, 0x32, 0x33, 0x34, 0x35, 0x36, 0x37, 0x38, 0x39, 0x3A, 0x3B, 0x3C, 0x3D, 0x3E, 0x3F]

/-- `ALPHA[i]`. -/
def alphaChar (i : BitVec 4) : Byte := alphabet.getD i.toNat 0x30

/-- `enc(v)` (R161): the high nibble's character only if that nibble is not 0, then the low nibble's. -/
def enc (v : Byte) : List Byte :=
  if hiNibble v = 0 then [alphaChar (loNibble v)]
  else [alphaChar (hiNibble v), alphaChar (loNibble v)]

/-! ### Formatter -/

/-- `blocks(n, B)` = ceil(n / B) (R16, R180). -/
def blocks (n b : Nat) : Nat := (n + b - 1) / b

/-- `pad(n, B)` = (B − (n mod B)) mod B (R180). -/
def pad (n b : Nat) : Nat := (b - n % b) % b

/-- `spaces(k)` (R14). -/
def spaces (k : Nat) : List Byte := List.replicate k Config.sp

/-- `enc` of a block count. Only ever asked of counts up to 255 (R164, R183). -/
def encCount (c : Nat) : List Byte := enc (BitVec.ofNat 8 c)

/-- The FreeText telegram of a text (R190). -/
def telegramZa (t : List Byte) : List Byte :=
  [0x7A, 0x41] ++ encCount (blocks t.length Config.blockLong) ++ t ++ spaces (pad t.length Config.blockLong)

/-- The CompactText telegram of a text (R191). -/
def telegramZi (t : List Byte) : List Byte :=
  [0x7A, 0x49] ++ encCount (blocks t.length Config.blockShort) ++ t ++ spaces (pad t.length Config.blockShort)

/-- The RunNumber telegram of a text (R192). -/
def telegramV (t : List Byte) : List Byte := [0x76] ++ t

/-- The body of a TwoLineDisplay telegram (R193): LF between the lines only if line 2 is not empty. -/
def bodyAa (p q : List Byte) : List Byte :=
  p ++ (if q.length > 0 then [Config.lf] else []) ++ q ++ [Config.lf, Config.lf]

/-- The TwoLineDisplay telegram of an address and two lines (R193). -/
def telegramAa (a : Byte) (p q : List Byte) : List Byte :=
  [0x61, 0x41] ++ enc a ++ encCount (blocks (bodyAa p q).length Config.blockLong) ++ bodyAa p q
    ++ spaces (pad (bodyAa p q).length Config.blockLong)

/-! The lengths of the telegrams as functions of the lengths of their inputs: what the acceptance checks of
R183 and R184 compute, before any byte of IBUF is read. -/

/-- `|out|` of FMT.ZA for a text of `n` bytes (R190, R210). -/
def lengthZa (n : Nat) : Nat :=
  2 + (encCount (blocks n Config.blockLong)).length + n + pad n Config.blockLong

/-- `|out|` of FMT.ZI for a text of `n` bytes (R191, R210). -/
def lengthZi (n : Nat) : Nat :=
  2 + (encCount (blocks n Config.blockShort)).length + n + pad n Config.blockShort

/-- `|out|` of FMT.V for a text of `n` bytes (R192, R210). -/
def lengthV (n : Nat) : Nat := 1 + n

/-- `|body|` of FMT.AA for `n` input bytes of which `l` are line 1 (R193, R210). -/
def bodyLengthAa (n l : Nat) : Nat := n + 2 + (if n > l then 1 else 0)

/-- `|out|` of FMT.AA (R193, R210). -/
def lengthAa (a : Byte) (n l : Nat) : Nat :=
  2 + (enc a).length + (encCount (blocks (bodyLengthAa n l) Config.blockLong)).length + bodyLengthAa n l
    + pad (bodyLengthAa n l) Config.blockLong

/-! ### Normalizer -/

/-- One row of the substitution table (R141). -/
abbrev SubstRow := Byte × Byte × Byte

/-- The substitution table: second UTF8 byte, LATIN1 byte, substitute (R140, R141). -/
def substTable : List SubstRow :=
  [(0xA4, 0xE4, 0x7B), (0xB6, 0xF6, 0x7C), (0xBC, 0xFC, 0x7D), (0x9F, 0xDF, 0x7E),
   (0x84, 0xC4, 0x5B), (0x96, 0xD6, 0x5C), (0x9C, 0xDC, 0x5D)]

/-- `SUB2(b)`, on the second byte of a UTF8 pair (R141). -/
def sub2 (b : Byte) : Option Byte := (substTable.find? (fun r => r.1 == b)).map (fun r => r.2.2)

/-- `SUB1(b)`, on a LATIN1 byte (R141). -/
def sub1 (b : Byte) : Option Byte := (substTable.find? (fun r => r.2.1 == b)).map (fun r => r.2.2)

/-- The first byte of every UTF8 pair of the table (R141). -/
def utf8Lead : Byte := 0xC3

/-- `norm_utf8` (R142): one scan from left to right. -/
def normUtf8 : List Byte → List Byte
  | [] => []
  | [b] => [b]
  | b :: c :: rest =>
    match (if b = utf8Lead then sub2 c else none) with
    | some k => k :: normUtf8 rest
    | none => b :: normUtf8 (c :: rest)

/-- `norm` for LATIN1 (R143): each byte on its own. -/
def normLatin1 (s : List Byte) : List Byte := s.map (fun b => (sub1 b).getD b)

/-- `norm(s)` by SUBST_ENC (R145). -/
def norm (e : SubstEnc) (s : List Byte) : List Byte :=
  match e with
  | .utf8 => normUtf8 s
  | .latin1 => normLatin1 s

/-! ### Sealer -/

/-- `chk(s)` (R221): the seed, then XOR of every byte from left to right. No mask is applied (R226). -/
def chk (s : List Byte) : Byte := s.foldl (fun acc b => acc ^^^ b) Config.seed

end Sys2Proof.Machine
end

