-- ==== Sys2Proof/Machine/State.lean ====
section
/-! DEFINITION. The state of the CTE block and of the two agents around it, as plain data
(spec 10_state.md, 00_scope.md R6). -/

namespace Sys2Proof.Machine

/-- The error codes ERRCODE can hold (60_exceptions.md R270). -/
inductive ErrCode where
  /-- 0x00 NONE: no error since the last clear. -/
  | none
  /-- 0x01 BADCMD: a reserved byte was written to CMD. -/
  | badcmd
  /-- 0x02 BUSY: CMD was written while BUSY = 1. -/
  | busy
  /-- 0x03 LEN: a length operand is out of range. -/
  | len
  /-- 0x04 RANGE: a block count is above 255. -/
  | range
  /-- 0x05 OVF: the telegram would not fit in TBUF. -/
  | ovf
  /-- 0x06 FROZEN: NORM or SEAL of a sealed telegram. -/
  | frozen
  /-- 0x07 NOTSEALED: XMIT of a telegram that is not sealed. -/
  | notsealed
  /-- 0x08 TXFAIL: the sink answered FAIL. -/
  | txfail
  deriving DecidableEq, Repr

/-- The telegram type code TT (30_encoding.md R112). -/
inductive TelegramKind where
  /-- 00, FreeText. -/
  | za
  /-- 01, CompactText. -/
  | zi
  /-- 10, RunNumber. -/
  | v
  /-- 11, TwoLineDisplay. -/
  | aa
  deriving DecidableEq, Repr

/-- A buffer: (index, byte) pairs, indices strictly rising. An index that is not listed was not written since
reset and holds no value (70_reset_and_hazards.md R302). -/
abbrev Memory := List Host.Cell

/-- The operand snapshot taken at acceptance (10_state.md R53, 20_memory.md R92). -/
structure Snapshot where
  addr : Byte
  ilen : Half
  l1len : Half
  tlen : Half
  deriving DecidableEq, Repr

/-- Where the running command stands (10_state.md R53). ACC lives only inside SEAL and XIDX only inside XMIT,
so each is carried by its own stage. -/
inductive Stage where
  /-- NOP, not yet performed. -/
  | nop
  /-- CLEAR, not yet performed. -/
  | clear
  /-- ADDRENC, not yet performed. -/
  | addrenc
  /-- The FMT stage of a telegram type. -/
  | fmt (k : TelegramKind)
  /-- The NORM stage. -/
  | norm
  /-- The SEAL stage, steps 1 to 4a of 44_sealer.md R220. -/
  | sealSum
  /-- The SEAL stage, step 4b: the placeholder is in TBUF and ACC holds the checksum (R222). -/
  | sealTail (acc : Byte)
  /-- The XMIT stage; `xidx` is the next TBUF index to offer (R53). -/
  | xmit (xidx : Nat)
  deriving DecidableEq, Repr

/-- What the sequencer holds while SEQ = RUN (R53). -/
structure Run where
  /-- CUR, the command being executed. -/
  cur : Instr
  /-- The stage it has reached. -/
  stage : Stage
  /-- The operands at acceptance. -/
  snap : Snapshot
  deriving DecidableEq, Repr

/-- The input signals in one turn: the reset, host bus and tx inputs of 70_reset_and_hazards.md R300 and
20_memory.md R88 and R95. -/
structure Pins where
  rst : Bool
  regAddr : Addr
  regWdata : Byte
  regWe : Bool
  regRe : Bool
  txReady : Bool
  txFail : Bool
  /-- MODEL'S OWN: the engine does not take a step of its own this turn. It stands for the latency the spec
  leaves open (R11, R320); a finite list of turns can only delay the engine, never stop it (R321;
  notes/assumptions/3.md). -/
  hold : Bool
  deriving DecidableEq, Repr

/-- A turn in which no input does anything. -/
def Pins.quiet : Pins :=
  { rst := false, regAddr := 0, regWdata := 0, regWe := false, regRe := false,
    txReady := false, txFail := false, hold := false }

/-- The whole machine: the block (10_state.md R30) and, last, what stands for the host and the sink. -/
structure State where
  /-- IBUF_SIZE, TBUF_SIZE and SUBST_ENC: configuration, written by nothing (R7 to R9, R30). -/
  cfg : Params
  /-- ADDR (R45). -/
  addr : Byte
  /-- CSUM (R46). -/
  csum : Byte
  /-- ILEN (R47). -/
  ilen : Half
  /-- L1LEN (R48). -/
  l1len : Half
  /-- TLEN (R49). -/
  tlen : Half
  /-- AENC_N (R52). -/
  aencN : Byte
  /-- AENC_C0 (R52). -/
  aencC0 : Byte
  /-- AENC_C1 (R52). -/
  aencC1 : Byte
  /-- STATUS.DONE (R38). -/
  done : Bool
  /-- STATUS.ERR (R39). -/
  err : Bool
  /-- STATUS.FMTD (R40). -/
  fmtd : Bool
  /-- STATUS.NORMD (R41). -/
  normd : Bool
  /-- STATUS.SEALED (R42). -/
  sealed : Bool
  /-- ERRCODE (R43). -/
  errcode : ErrCode
  /-- CTRL.DONE_IE (R44). -/
  doneIe : Bool
  /-- CTRL.ERR_IE (R44). -/
  errIe : Bool
  /-- IBUF (R50). -/
  ibuf : Memory
  /-- TBUF (R51). -/
  tbuf : Memory
  /-- SEQ with CUR, stage and snapshot: `none` is IDLE (R53, I11). STATUS.BUSY is read from it (R37). -/
  run : Option Run
  /-- The tx port: `none` is tx_valid = 0, `some b` is tx_valid = 1 with tx_data = b (R54). -/
  tx : Option Byte
  /-- The input signals of the current turn. -/
  pins : Pins
  /-- ENVIRONMENT: the input signals of the turns to come, the next first; after the last, quiet turns. -/
  inputs : List Pins
  /-- ENVIRONMENT: the host's reads and the values they returned, oldest first (R5). -/
  reads : List (Addr × Byte)
  /-- ENVIRONMENT: the bytes the sink accepted, oldest first (R5, R96). -/
  sinkOut : List Byte
  /-- MODEL'S OWN: how many unspecified bytes have been drawn (notes/assumptions/4.md). -/
  draws : Nat
  deriving DecidableEq, Repr

/-- Why the machine stops. Both are raised by a command that reads a byte nothing has written since reset:
the spec tells a model to treat that as a fault (R302, I1). -/
inductive Fault where
  /-- Raised by the FMT stage of FMT.* and SEND.* when IBUF[0..ILEN) holds an unwritten byte (R302). Safe: the
  block goes on with unspecified bytes and the model proves nothing of them. -/
  | unwrittenIbuf
  /-- Raised by NORM and SEAL when TBUF[0..TLEN) holds an unwritten byte (R302), and by XMIT in states no run
  reaches. Safe, for the same reason. -/
  | unwrittenTbuf
  deriving DecidableEq, Repr

/-- Why the model gives no meaning. -/
inductive Refusal where
  /-- Raised only by an arm of exec whose command has no meaning yet; no arm does. Safe: nothing is proved of a
  run that stops there. -/
  | notModelled (mnemonic : String)
  deriving DecidableEq, Repr

/-- The outcome of a step of the machine. -/
abbrev Result := Host.Outcome State Fault Refusal

/-- The machine right after reset (10_state.md R56), with the default parameters (R7 to R9), nothing asked of
it yet and nothing recorded. IBUF and TBUF are unwritten (R302). -/
def State.reset : State where
  cfg := Params.default
  addr := 0x00
  csum := 0x00
  ilen := 0x0000
  l1len := 0x0000
  tlen := 0x0000
  aencN := 0x00
  aencC0 := 0x00
  aencC1 := 0x00
  done := false
  err := false
  fmtd := false
  normd := false
  sealed := false
  errcode := .none
  doneIe := false
  errIe := false
  ibuf := []
  tbuf := []
  run := none
  tx := none
  pins := Pins.quiet
  inputs := []
  reads := []
  sinkOut := []
  draws := 0

end Sys2Proof.Machine
end

