-- ==== Sys2Proof/Machine/Ops.lean ====
section
/-! DEFINITION. The named operations over the buffers and over the registers every command shares: buffer access,
recording an error, rejecting, accepting and completing a command (spec 60_exceptions.md R271, R272). The block
has no traps (R282): recording an error is its whole exception entry, and the host's acknowledge of
Machine/Flags.lean its return (R283). -/

namespace Sys2Proof.Machine

/-! ### Buffers (10_state.md R50, R51; 00_scope.md R15) -/

/-- The canonical form of a buffer: indices strictly rising. -/
abbrev Memory.wf (m : Memory) : Prop := m.Pairwise (fun x y => x.1 < y.1)

/-- Every index that holds a value is below `n`. -/
abbrev Memory.below (m : Memory) (n : Nat) : Prop := ∀ c ∈ m, c.1 < n

/-- `MemRead(BUF, i, 1)`; `none` for a byte nothing has written since reset (R302). -/
def Memory.read : Memory → Nat → Option Byte
  | [], _ => none
  | (k, v) :: t, a => if k = a then some v else Memory.read t a

/-- `MemWrite(BUF, i, 1, v)`. -/
def Memory.write : Memory → Nat → Byte → Memory
  | [], a, v => [(a, v)]
  | (k, w) :: t, a, v =>
    if a < k then (a, v) :: (k, w) :: t
    else if a = k then (a, v) :: t
    else (k, w) :: Memory.write t a v

/-- The byte string BUF[a..a+n), or `none` if one of its bytes is unwritten. -/
def Memory.readBytes (m : Memory) : Nat → Nat → Option (List Byte)
  | _, 0 => some []
  | a, n + 1 =>
    match m.read a, Memory.readBytes m (a + 1) n with
    | some b, some bs => some (b :: bs)
    | _, _ => none

/-- Write a byte string from index `a` on, in rising index order. -/
def Memory.writeBytes : Memory → Nat → List Byte → Memory
  | m, _, [] => m
  | m, a, b :: bs => Memory.writeBytes (m.write a b) (a + 1) bs

/-! ### The sequencer and the error record -/

/-- STATUS.BUSY: SEQ = RUN (R37, R53). -/
def State.busy (s : State) : Bool := s.run.isSome

/-- Recording an error (R271): ERR <- 1, ERRCODE <- code. -/
def State.recordError (s : State) (e : ErrCode) : State := { s with err := true, errcode := e }

/-- REJECT (R272): the error is recorded and DONE is set; nothing else changes (R273). -/
def State.reject (s : State) (e : ErrCode) : State := { s.recordError e with done := true }

/-- The operands as they stand, for the snapshot of R272. -/
def State.snapshot (s : State) : Snapshot :=
  { addr := s.addr, ilen := s.ilen, l1len := s.l1len, tlen := s.tlen }

/-- ACCEPT (R272): snapshot, CUR and SEQ, BUSY <- 1, DONE <- 0. `g` is the command's first stage. -/
def State.accept (s : State) (i : Instr) (g : Stage) : State :=
  { s with run := some { cur := i, stage := g, snap := s.snapshot }, done := false }

/-- Completion (R272): SEQ <- IDLE, BUSY <- 0, DONE <- 1, tx_valid <- 0. -/
def State.complete (s : State) : State := { s with run := none, done := true, tx := none }

/-- The running command goes on to stage `g`. -/
def State.toStage (s : State) (r : Run) (g : Stage) : State :=
  { s with run := some { r with stage := g } }

/-- Chain two engine steps: a fault or a refusal ends the chain. -/
def andThen (o : Result) (f : State → Result) : Result :=
  match o with
  | .next s => f s
  | .fault e => .fault e
  | .refused e => .refused e

end Sys2Proof.Machine
end

