-- ==== Sys2Proof/Machine/Operands.lean ====
section
/-! DEFINITION. The implicit operands of the commands (spec 30_encoding.md R111) and the acceptance checks over
them (60_exceptions.md R274). -/

namespace Sys2Proof.Machine

/-- The four SEND commands run NORM, SEAL and XMIT after their FMT stage (45_transmit_control.md R249). -/
def isSend : Instr → Bool
  | .nop => false
  | .clear => false
  | .addrenc => false
  | .fmtZa => false
  | .fmtZi => false
  | .fmtV => false
  | .fmtAa => false
  | .norm => false
  | .sealTelegram => false
  | .xmit => false
  | .sendZa => true
  | .sendZi => true
  | .sendV => true
  | .sendAa => true

/-! ### What a stage reads -/

/-- The text `IBUF[0..n)` with n the ILEN snapshot (R190 to R192). -/
def inputText (r : Run) (s : State) : Option (List Byte) := s.ibuf.readBytes 0 r.snap.ilen.toNat

/-- Line 1, `IBUF[0..l)` with l the L1LEN snapshot (R193). -/
def inputLine1 (r : Run) (s : State) : Option (List Byte) := s.ibuf.readBytes 0 r.snap.l1len.toNat

/-- Line 2, `IBUF[l..n)` (R193). -/
def inputLine2 (r : Run) (s : State) : Option (List Byte) :=
  s.ibuf.readBytes r.snap.l1len.toNat (r.snap.ilen.toNat - r.snap.l1len.toNat)

/-- The telegram length a stage works on: the TLEN snapshot for NORM, SEAL and XMIT on their own, the TLEN the
stage before wrote inside a SEND (R249). -/
def workLength (r : Run) (s : State) : Nat :=
  if isSend r.cur then s.tlen.toNat else r.snap.tlen.toNat

/-! ### Acceptance checks: each is (does it fail, the code it then records) -/

/-- The first failing check decides the error code (R274). -/
def firstError : List (Bool × ErrCode) → Option ErrCode
  | [] => none
  | (fails, e) :: rest => if fails then some e else firstError rest

/-- ILEN > IBUF_SIZE (R181). -/
def checkIlen (s : State) : Bool × ErrCode := (decide (s.cfg.ibufSize < s.ilen.toNat), .len)

/-- L1LEN > ILEN (R182). -/
def checkL1len (s : State) : Bool × ErrCode := (decide (s.ilen.toNat < s.l1len.toNat), .len)

/-- TLEN > TBUF_SIZE (R145, R220). -/
def checkTlen (s : State) : Bool × ErrCode := (decide (s.cfg.tbufSize < s.tlen.toNat), .len)

/-- A block count above 255 (R183). -/
def checkCount (c : Nat) : Bool × ErrCode := (decide (255 < c), .range)

/-- No room for `n` bytes of telegram and the two trailer bytes (R184, R220). -/
def checkRoom (s : State) (n : Nat) : Bool × ErrCode := (decide (s.cfg.tbufSize < n + 2), .ovf)

/-- SEALED = 1 (R145, R220). -/
def checkNotFrozen (s : State) : Bool × ErrCode := (s.sealed, .frozen)

/-- SEALED = 0 (R242). -/
def checkSealed (s : State) : Bool × ErrCode := (!s.sealed, .notsealed)

/-- FMT.ZA and SEND.ZA: LEN (ILEN), RANGE, OVF (R274). -/
def checksZa (s : State) : List (Bool × ErrCode) :=
  [checkIlen s, checkCount (blocks s.ilen.toNat Config.blockLong), checkRoom s (lengthZa s.ilen.toNat)]

/-- FMT.ZI and SEND.ZI: LEN (ILEN), RANGE, OVF (R274). -/
def checksZi (s : State) : List (Bool × ErrCode) :=
  [checkIlen s, checkCount (blocks s.ilen.toNat Config.blockShort), checkRoom s (lengthZi s.ilen.toNat)]

/-- FMT.V and SEND.V: LEN (ILEN), OVF (R274). -/
def checksV (s : State) : List (Bool × ErrCode) := [checkIlen s, checkRoom s (lengthV s.ilen.toNat)]

/-- FMT.AA and SEND.AA: LEN (ILEN), LEN (L1LEN), RANGE, OVF (R274). -/
def checksAa (s : State) : List (Bool × ErrCode) :=
  [checkIlen s, checkL1len s,
   checkCount (blocks (bodyLengthAa s.ilen.toNat s.l1len.toNat) Config.blockLong),
   checkRoom s (lengthAa s.addr s.ilen.toNat s.l1len.toNat)]

/-- NORM: FROZEN, LEN (TLEN) (R274). -/
def checksNorm (s : State) : List (Bool × ErrCode) := [checkNotFrozen s, checkTlen s]

/-- SEAL: FROZEN, LEN (TLEN), OVF (R274). -/
def checksSeal (s : State) : List (Bool × ErrCode) :=
  [checkNotFrozen s, checkTlen s, checkRoom s s.tlen.toNat]

/-- XMIT: NOTSEALED (R274). -/
def checksXmit (s : State) : List (Bool × ErrCode) := [checkSealed s]

end Sys2Proof.Machine
end

