-- ==== Sys2Proof/Machine/Engine.lean ====
section
/-! DEFINITION. The engine (spec 45_transmit_control.md R240): what each stage of a running command does, one engine
step, and what a CMD write of a decoded command does (60_exceptions.md R272). -/

namespace Sys2Proof.Machine

/-- After a stage: a SEND goes on to stage `g` (R249), any other command completes (R272). -/
def State.advance (s : State) (r : Run) (g : Stage) : State :=
  if isSend r.cur then s.toStage r g else s.complete

/-! ### The stages -/

/-- NOP (R250): nothing; then completion. -/
def nopStage (s : State) : Result := .next s.complete

/-- CLEAR (R251). -/
def clearStage (s : State) : Result :=
  .next ({ s with tlen := 0, fmtd := false, normd := false, sealed := false } : State).complete

/-- ADDRENC (R162). -/
def addrencStage (r : Run) (s : State) : Result :=
  .next
    ({ s with
        aencN := BitVec.ofNat 8 (enc r.snap.addr).length
        aencC0 := (enc r.snap.addr).getD 0 0x00
        aencC1 := (enc r.snap.addr).getD 1 0x00 } : State).complete

/-- `fmt_commit(out)` (R185): the telegram is written from TBUF[0] on, bytes at and above |out| are kept. -/
def State.commitTelegram (s : State) (out : List Byte) : State :=
  { s with
    tbuf := s.tbuf.writeBytes 0 out
    tlen := BitVec.ofNat 16 out.length
    fmtd := true
    normd := false
    sealed := false }

/-- FMT.ZA (R190). -/
def fmtZaStage (r : Run) (s : State) : Result :=
  match inputText r s with
  | some t => .next ((s.commitTelegram (telegramZa t)).advance r .norm)
  | none => .fault .unwrittenIbuf

/-- FMT.ZI (R191). -/
def fmtZiStage (r : Run) (s : State) : Result :=
  match inputText r s with
  | some t => .next ((s.commitTelegram (telegramZi t)).advance r .norm)
  | none => .fault .unwrittenIbuf

/-- FMT.V (R192). -/
def fmtVStage (r : Run) (s : State) : Result :=
  match inputText r s with
  | some t => .next ((s.commitTelegram (telegramV t)).advance r .norm)
  | none => .fault .unwrittenIbuf

/-- FMT.AA (R193). -/
def fmtAaStage (r : Run) (s : State) : Result :=
  match inputLine1 r s, inputLine2 r s with
  | some p, some q => .next ((s.commitTelegram (telegramAa r.snap.addr p q)).advance r .norm)
  | _, _ => .fault .unwrittenIbuf

/-- NORM (R145): in place on TBUF[0..TLEN); no index at or above |norm(s)| is written (R146). -/
def normStage (r : Run) (s : State) : Result :=
  match s.tbuf.readBytes 0 (workLength r s) with
  | some t =>
    .next
      (({ s with
          tbuf := s.tbuf.writeBytes 0 (norm s.cfg.substEnc t)
          tlen := BitVec.ofNat 16 (norm s.cfg.substEnc t).length
          normd := true } : State).advance r .sealSum)
  | none => .fault .unwrittenTbuf

/-- SEAL, steps 1 to 4a (R220): CR is appended, ACC runs over TBUF[0..L1) with the CR included, and the placeholder
is appended after the accumulation (R222). -/
def sealStage (r : Run) (s : State) : Result :=
  match (s.tbuf.write (workLength r s) Config.cr).readBytes 0 (workLength r s + 1) with
  | some t =>
    .next
      (({ s with
          tbuf := (s.tbuf.write (workLength r s) Config.cr).write (workLength r s + 1) Config.placeholder } :
            State).toStage r (.sealTail (chk t)))
  | none => .fault .unwrittenTbuf

/-- SEAL, step 4b and its result (R220): ACC overwrites the placeholder; TLEN, CSUM and SEALED are written. -/
def sealTailStage (acc : Byte) (r : Run) (s : State) : Result :=
  .next
    (({ s with
        tbuf := s.tbuf.write (workLength r s + 1) acc
        tlen := BitVec.ofNat 16 (workLength r s + 2)
        csum := acc
        sealed := true } : State).advance r (.xmit 0))

/-- XMIT (R242). With no byte on offer the engine offers TBUF[XIDX], or completes when XIDX has reached L. With a byte
on offer the sink's answer decides (R96): FAIL beats ACCEPT and ends the command with TXFAIL (R243), ACCEPT hands the
byte over, and without an answer the offer stays pending (R312). -/
def xmitStage (xidx : Nat) (r : Run) (s : State) : Result :=
  match s.tx with
  | some b =>
    if s.pins.txFail then .next (s.recordError .txfail).complete
    else if s.pins.txReady then
      .next (({ s with tx := none, sinkOut := s.sinkOut ++ [b] } : State).toStage r (.xmit (xidx + 1)))
    else .next s
  | none =>
    if xidx < workLength r s then
      match s.tbuf.read xidx with
      | some b => .next { s with tx := some b }
      | none => .fault .unwrittenTbuf
    else .next s.complete

/-- One step of the engine. It takes none while SEQ = IDLE (R241). -/
def engineStep (s : State) : Result :=
  match s.run with
  | none => .next s
  | some r =>
    match r.stage with
    | .nop => nopStage s
    | .clear => clearStage s
    | .addrenc => addrencStage r s
    | .fmt .za => fmtZaStage r s
    | .fmt .zi => fmtZiStage r s
    | .fmt .v => fmtVStage r s
    | .fmt .aa => fmtAaStage r s
    | .norm => normStage r s
    | .sealSum => sealStage r s
    | .sealTail acc => sealTailStage acc r s
    | .xmit xidx => xmitStage xidx r s

/-- `n` engine steps, one after another. -/
def engineRun : Nat → State → Result
  | 0, s => .next s
  | n + 1, s => andThen (engineStep s) (engineRun n)

/-- What a CMD write of command `i` does (R272): DROP while BUSY, REJECT at the first failing check (R274), else
ACCEPT. After acceptance the engine performs the `n` steps that wait on nothing outside the block in the same turn
(R240), unless this turn holds the engine back; it then performs them in later turns. `g` is the first stage. -/
def issue (i : Instr) (g : Stage) (checks : State → List (Bool × ErrCode)) (n : Nat) (s : State) : Result :=
  if s.busy then .next (s.recordError .busy)
  else
    match firstError (checks s) with
    | some e => .next (s.reject e)
    | none => if s.pins.hold then .next (s.accept i g) else engineRun n (s.accept i g)

end Sys2Proof.Machine
end

