-- ==== Sys2Proof/Machine/Control.lean ====
section
/-! DEFINITION. The meanings of the control commands NOP, CLEAR and ADDRENC
(spec 45_transmit_control.md R250, R251; 42_address_encoder.md R162). -/

namespace Sys2Proof.Machine

/-- NOP (R250): no checks. -/
def execNop (s : State) : Result := issue .nop .nop (fun _ => []) 1 s

/-- CLEAR (R251): no checks. -/
def execClear (s : State) : Result := issue .clear .clear (fun _ => []) 1 s

/-- ADDRENC (R162): no checks. -/
def execAddrenc (s : State) : Result := issue .addrenc .addrenc (fun _ => []) 1 s

end Sys2Proof.Machine
end

