-- ==== Sys2Proof/Machine/Format.lean ====
section
/-! DEFINITION. The meanings of the four format commands (spec 43_formatter.md R190 to R193). -/

namespace Sys2Proof.Machine

/-- FMT.ZA (R190). -/
def execFmtZa (s : State) : Result := issue .fmtZa (.fmt .za) checksZa 1 s

/-- FMT.ZI (R191). -/
def execFmtZi (s : State) : Result := issue .fmtZi (.fmt .zi) checksZi 1 s

/-- FMT.V (R192). -/
def execFmtV (s : State) : Result := issue .fmtV (.fmt .v) checksV 1 s

/-- FMT.AA (R193). -/
def execFmtAa (s : State) : Result := issue .fmtAa (.fmt .aa) checksAa 1 s

end Sys2Proof.Machine
end

