-- ==== Sys2Proof/Machine/Normalize.lean ====
section
/-! DEFINITION. The meaning of NORM (spec 41_normalizer.md R145). -/

namespace Sys2Proof.Machine

/-- NORM (R145). -/
def execNorm (s : State) : Result := issue .norm .norm checksNorm 1 s

end Sys2Proof.Machine
end

