-- ==== Sys2Proof/Machine/Seal.lean ====
section
/-! DEFINITION. The meaning of SEAL (spec 44_sealer.md R220). -/

namespace Sys2Proof.Machine

/-- SEAL (R220): two engine steps, up to the placeholder and from it on. -/
def execSeal (s : State) : Result := issue .sealTelegram .sealSum checksSeal 2 s

end Sys2Proof.Machine
end

