-- ==== Sys2Proof/Machine/Transmit.lean ====
section
/-! DEFINITION. The meanings of XMIT and of the four SEND commands (spec 45_transmit_control.md R242, R245 to R249). In the
turn of the CMD write they run up to the first byte's offer; each later byte and the completion are engine steps of
later turns (R240). -/

namespace Sys2Proof.Machine

/-- XMIT (R242): the first offer. -/
def execXmit (s : State) : Result := issue .xmit (.xmit 0) checksXmit 1 s

/-- SEND.ZA (R245, R249): FMT, NORM, SEAL in two steps, the first offer. -/
def execSendZa (s : State) : Result := issue .sendZa (.fmt .za) checksZa 5 s

/-- SEND.ZI (R246, R249). -/
def execSendZi (s : State) : Result := issue .sendZi (.fmt .zi) checksZi 5 s

/-- SEND.V (R247, R249). -/
def execSendV (s : State) : Result := issue .sendV (.fmt .v) checksV 5 s

/-- SEND.AA (R248, R249). -/
def execSendAa (s : State) : Result := issue .sendAa (.fmt .aa) checksAa 5 s

end Sys2Proof.Machine
end

