-- ==== Sys2Proof/Machine/Dispatch.lean ====
section
/-! DEFINITION. exec: what a CMD write of a command does, one arm per command. -/

namespace Sys2Proof.Machine

def exec (i : Instr) (s : State) : Host.Outcome State Fault Refusal :=
  match i with
  | .nop => Sys2Proof.Machine.execNop s
  | .clear => Sys2Proof.Machine.execClear s
  | .addrenc => Sys2Proof.Machine.execAddrenc s
  | .fmtZa => Sys2Proof.Machine.execFmtZa s
  | .fmtZi => Sys2Proof.Machine.execFmtZi s
  | .fmtV => Sys2Proof.Machine.execFmtV s
  | .fmtAa => Sys2Proof.Machine.execFmtAa s
  | .norm => Sys2Proof.Machine.execNorm s
  | .sealTelegram => Sys2Proof.Machine.execSeal s
  | .xmit => Sys2Proof.Machine.execXmit s
  | .sendZa => Sys2Proof.Machine.execSendZa s
  | .sendZi => Sys2Proof.Machine.execSendZi s
  | .sendV => Sys2Proof.Machine.execSendV s
  | .sendAa => Sys2Proof.Machine.execSendAa s

end Sys2Proof.Machine
end

