-- ==== Sys2Proof/Machine/Flags.lean ====
section
/-! DEFINITION. The flag and control registers as the host sees them: STATUS, ERRCODE, CTRL and the `irq` output
(spec 10_state.md R36 to R44, 60_exceptions.md R280). -/

namespace Sys2Proof.Machine

/-- The value of an error code (60_exceptions.md R270). -/
def ErrCode.code : ErrCode → Byte
  | .none => 0x00
  | .badcmd => 0x01
  | .busy => 0x02
  | .len => 0x03
  | .range => 0x04
  | .ovf => 0x05
  | .frozen => 0x06
  | .notsealed => 0x07
  | .txfail => 0x08

/-- The STATUS byte (R36): bit 0 BUSY, 1 DONE, 2 ERR, 3 FMTD, 4 NORMD, 5 SEALED, 7:6 read 0. -/
def State.statusByte (s : State) : Byte :=
  0#2 ++ BitVec.ofBool s.sealed ++ BitVec.ofBool s.normd ++ BitVec.ofBool s.fmtd
    ++ BitVec.ofBool s.err ++ BitVec.ofBool s.done ++ BitVec.ofBool s.busy

/-- A host write of `w` to STATUS (R36): bit 1 clears DONE, bit 2 clears ERR and ERRCODE, every other bit is
ignored. This is the host's whole acknowledge of an error or a completion (R283). -/
def State.writeStatus (s : State) (w : Byte) : State :=
  { s with
    done := s.done && !w.getLsbD 1
    err := s.err && !w.getLsbD 2
    errcode := if w.getLsbD 2 then .none else s.errcode }

/-- The CTRL byte (R44): bit 0 DONE_IE, bit 1 ERR_IE, bits 7:2 read 0. -/
def State.ctrlByte (s : State) : Byte := 0#6 ++ BitVec.ofBool s.errIe ++ BitVec.ofBool s.doneIe

/-- A host write of `w` to CTRL stores `w & 0x03` (R44). -/
def State.writeCtrl (s : State) (w : Byte) : State :=
  { s with doneIe := w.getLsbD 0, errIe := w.getLsbD 1 }

/-- The interrupt output (R280): level-sensitive, a function of state only. -/
def State.irq (s : State) : Bool := (s.doneIe && s.done) || (s.errIe && s.err)

/-- `tx_valid` (R54). -/
def State.txValid (s : State) : Bool := s.tx.isSome

/-- `tx_data` (R54): the byte on offer; unspecified while tx_valid = 0 (I6). -/
def State.txData (s : State) : Byte := s.tx.getD (Config.freeTxData s.draws)

end Sys2Proof.Machine
end

