-- ==== Sys2Proof/Machine/Bus.lean ====
section
/-! DEFINITION. The host bus (spec 20_memory.md), the CMD write (60_exceptions.md R272), reset (70_reset_and_hazards.md R300)
and one turn of the machine: what the host, the sink and the engine do with one set of input signals. -/

namespace Sys2Proof.Machine

/-! ### The address map -/

/-- A location of the register space (R81). -/
inductive Loc where
  | id
  | rev
  | cmd
  | status
  | errcode
  | ctrl
  | addr
  | csum
  | ilenLo
  | ilenHi
  | l1lenLo
  | l1lenHi
  | tlenLo
  | tlenHi
  | aencN
  | aencC0
  | aencC1
  /-- IBUF[i]. -/
  | ibuf (i : Nat)
  /-- TBUF[i]. -/
  | tbuf (i : Nat)
  /-- A reserved location (R82). -/
  | reserved
  deriving DecidableEq, Repr

/-- The registers at offsets 0x000 to 0x010, in order (10_state.md R32). -/
def registerMap : List Loc :=
  [.id, .rev, .cmd, .status, .errcode, .ctrl, .addr, .csum, .ilenLo, .ilenHi, .l1lenLo, .l1lenHi,
   .tlenLo, .tlenHi, .aencN, .aencC0, .aencC1]

/-- The address map (R81): registers, the IBUF window, the TBUF window; everything else, window offsets at and beyond the
buffer sizes among it, is reserved. -/
def locate (c : Params) (a : Addr) : Loc :=
  if a.toNat < 0x400 then registerMap.getD a.toNat .reserved
  else if a.toNat < 0x800 then
    if a.toNat - 0x400 < c.ibufSize then .ibuf (a.toNat - 0x400) else .reserved
  else if a.toNat < 0xC00 then
    if a.toNat - 0x800 < c.tbufSize then .tbuf (a.toNat - 0x800) else .reserved
  else .reserved

/-! ### Reads -/

/-- ADDRENC is the running command (R89). -/
def State.runsAddrenc (s : State) : Bool :=
  match s.run with
  | none => false
  | some r => r.cur == .addrenc

/-- The bits of a location that a read leaves unspecified, as a mask: the results while BUSY = 1 (R89), and a buffer byte
nothing has written since reset (R302, I2). -/
def unspecifiedBits (s : State) : Loc → Byte
  | .id => 0x00
  | .rev => 0x00
  | .cmd => 0x00
  | .status => if s.busy then 0x38 else 0x00
  | .errcode => 0x00
  | .ctrl => 0x00
  | .addr => 0x00
  | .csum => if s.busy then 0xFF else 0x00
  | .ilenLo => 0x00
  | .ilenHi => 0x00
  | .l1lenLo => 0x00
  | .l1lenHi => 0x00
  | .tlenLo => if s.busy then 0xFF else 0x00
  | .tlenHi => if s.busy then 0xFF else 0x00
  | .aencN => if s.runsAddrenc then 0xFF else 0x00
  | .aencC0 => if s.runsAddrenc then 0xFF else 0x00
  | .aencC1 => if s.runsAddrenc then 0xFF else 0x00
  | .ibuf i => if (s.ibuf.read i).isSome then 0x00 else 0xFF
  | .tbuf i => if s.busy || (s.tbuf.read i).isNone then 0xFF else 0x00
  | .reserved => 0x00

/-- The value a location holds (10_state.md R32); the bits that `unspecifiedBits` names are not looked at. -/
def heldValue (s : State) : Loc → Byte
  | .id => 0x43
  | .rev => 0x01
  | .cmd => 0x00
  | .status => s.statusByte
  | .errcode => s.errcode.code
  | .ctrl => s.ctrlByte
  | .addr => s.addr
  | .csum => s.csum
  | .ilenLo => loByte s.ilen
  | .ilenHi => hiByte s.ilen
  | .l1lenLo => loByte s.l1len
  | .l1lenHi => hiByte s.l1len
  | .tlenLo => loByte s.tlen
  | .tlenHi => hiByte s.tlen
  | .aencN => s.aencN
  | .aencC0 => s.aencC0
  | .aencC1 => s.aencC1
  | .ibuf i => (s.ibuf.read i).getD 0x00
  | .tbuf i => (s.tbuf.read i).getD 0x00
  | .reserved => 0x00

/-- Take the bits of `m` from a fresh free value and the others from `v`. -/
def blend (v m free : Byte) : Byte := (v &&& ~~~m) ||| (free &&& m)

/-- The byte a host read of `a` returns: its exact value, each unspecified bit drawn afresh (R89). -/
def readValue (s : State) (a : Addr) : Byte :=
  if unspecifiedBits s (locate s.cfg a) = 0x00 then heldValue s (locate s.cfg a)
  else blend (heldValue s (locate s.cfg a)) (unspecifiedBits s (locate s.cfg a)) (Config.freeByte s.draws)

/-- Record that a read of `a` returned `v`; `k` unspecified bytes were drawn for it. -/
def State.logRead (s : State) (a : Addr) (v : Byte) (k : Nat) : State :=
  { s with reads := s.reads ++ [(a, v)], draws := s.draws + k }

/-- `reg_rdata` is wholly unspecified: with `reg_we` set as well (R88, I4) and while `rst` = 1 (R300, I5). -/
def unspecifiedRead (s : State) : State := s.logRead s.pins.regAddr (Config.freeByte s.draws) 1

/-- The host read of this turn, of the state as it stands before any change of the turn (R88). A read changes no
register and no buffer (R87). -/
def hostRead (s : State) : State :=
  if !s.pins.regRe then s
  else if s.pins.regWe then unspecifiedRead s
  else
    s.logRead s.pins.regAddr (readValue s s.pins.regAddr)
      (if unspecifiedBits s (locate s.cfg s.pins.regAddr) = 0x00 then 0 else 1)

/-! ### Writes -/

/-- A host write to any location but CMD. Operand registers and the IBUF window are busy-locked (R90); TLEN and the TBUF
window are frozen while SEALED = 1 as well (R91); read-only and reserved locations ignore writes (R82, R87). -/
def writeLoc (s : State) (l : Loc) (v : Byte) : State :=
  match l with
  | .id => s
  | .rev => s
  | .cmd => s
  | .status => s.writeStatus v
  | .errcode => s
  | .ctrl => s.writeCtrl v
  | .addr => if s.busy then s else { s with addr := v }
  | .csum => s
  | .ilenLo => if s.busy then s else { s with ilen := setLoByte s.ilen v }
  | .ilenHi => if s.busy then s else { s with ilen := setHiByte s.ilen v }
  | .l1lenLo => if s.busy then s else { s with l1len := setLoByte s.l1len v }
  | .l1lenHi => if s.busy then s else { s with l1len := setHiByte s.l1len v }
  | .tlenLo => if s.busy || s.sealed then s else { s with tlen := setLoByte s.tlen v }
  | .tlenHi => if s.busy || s.sealed then s else { s with tlen := setHiByte s.tlen v }
  | .aencN => s
  | .aencC0 => s
  | .aencC1 => s
  | .ibuf i => if s.busy then s else { s with ibuf := s.ibuf.write i v }
  | .tbuf i => if s.busy || s.sealed then s else { s with tbuf := s.tbuf.write i v }
  | .reserved => s

/-- A host write of `c` to CMD (R272). BUSY is checked before the byte is decoded (R274); a reserved byte is rejected with
BADCMD (R116); a command is exec'd. -/
def writeCmd (s : State) (c : Byte) : Result :=
  match decode c with
  | .command i => exec i s
  | .reserved => if s.busy then .next (s.recordError .busy) else .next (s.reject .badcmd)

/-- The host write of this turn (R88). -/
def hostWrite (s : State) : Result :=
  if !s.pins.regWe then .next s
  else
    match locate s.cfg s.pins.regAddr with
    | .cmd => writeCmd s s.pins.regWdata
    | l => .next (writeLoc s l s.pins.regWdata)

/-! ### A turn -/

/-- Reset (R300, R56): every register, flag and internal field takes its reset value, a running command is aborted without
DONE and without an error, a pending offer is dropped and the buffers become unspecified (R302). The parameters are no
state (R30); what the sink accepted stays accepted. -/
def State.resetBlock (s : State) : State :=
  { State.reset with
    cfg := s.cfg
    pins := s.pins
    inputs := s.inputs
    reads := s.reads
    sinkOut := s.sinkOut
    draws := s.draws }

/-- A turn with `rst` = 1: host accesses are ignored, and a read returns an unspecified value (R300, R275 (a)). -/
def resetTurn (s : State) : State :=
  if s.pins.regRe then (unspecifiedRead s).resetBlock else s.resetBlock

/-- The engine's part of a turn. A byte on offer is answered by the sink whether or not the engine is held back; every
other engine step waits while it is (R11, R96). -/
def engineTurn (s : State) : Result :=
  if s.tx.isNone && s.pins.hold then .next s else engineStep s

/-- One turn with the input signals in `pins`. Reset wins over everything (R275 (a)). Otherwise the read sees the state
before the turn; the write comes next; and a command that was running at the start of the turn takes its step last, so
that TXFAIL beats a dropped CMD write, a new error beats a clear of ERR and a completion beats a clear of DONE
(R275 (b) to (d)). -/
def turn (s : State) : Result :=
  if s.pins.rst then .next (resetTurn s)
  else andThen (hostWrite (hostRead s)) (fun t => if s.busy then engineTurn t else .next t)

/-- Take the next turn's input signals; after the last, every turn is quiet. -/
def sampleInputs (s : State) : State :=
  { s with pins := s.inputs.headD Pins.quiet, inputs := s.inputs.tail }

/-- The input signals of a host write of `v` to `a`, and of nothing else. -/
def Pins.write (a : Addr) (v : Byte) : Pins :=
  { Pins.quiet with regAddr := a, regWdata := v, regWe := true }

/-- The input signals of a host read of `a`, and of nothing else. -/
def Pins.read (a : Addr) : Pins := { Pins.quiet with regAddr := a, regRe := true }

/-- The offset of CMD (R32). -/
def cmdOffset : Addr := 0x002

/-- Make a host write of the byte `c` to CMD the next turn. -/
def State.placeCommand (s : State) (c : Byte) : State :=
  { s with inputs := Pins.write cmdOffset c :: s.inputs }

end Sys2Proof.Machine
end

