-- ==== Sys2Proof/Machine/Step.lean ====
section
/-! DEFINITION. One step of the machine: one turn. -/

namespace Sys2Proof.Machine

/-- One turn with the next input signals. -/
def step (s : State) : Host.Outcome State Fault Refusal := turn (sampleInputs s)

/-- The state with a host write of the table word's command byte to CMD as its next turn. The block fetches nothing
(30_encoding.md R97, R117): a command arrives whole as the data of a CMD write (notes/assumptions/8.md). -/
def State.withFetchWord (s : State) (nbits w : Nat) : State := s.placeCommand (commandByte nbits w)

end Sys2Proof.Machine
end

