-- ==== Sys2Proof/WellFormed.lean ====
section
/-! DEFINITION. Well-formed commands and legal parameters. -/

namespace Sys2Proof

/-- Every command is well formed: it has no operand field that could hold an illegal value
(30_encoding.md R111). One arm per constructor, so a command with a field could not slip past. -/
def Instr.wellFormed : Instr → Bool
  | .nop => true
  | .clear => true
  | .addrenc => true
  | .fmtZa => true
  | .fmtZi => true
  | .fmtV => true
  | .fmtAa => true
  | .norm => true
  | .sealTelegram => true
  | .xmit => true
  | .sendZa => true
  | .sendZi => true
  | .sendV => true
  | .sendAa => true

/-- The legal parameter values: IBUF_SIZE 1 to 1024 (R7) and TBUF_SIZE 8 to 1024 (R8). -/
def Params.legal (c : Params) : Bool :=
  decide (1 ≤ c.ibufSize ∧ c.ibufSize ≤ 1024 ∧ 8 ≤ c.tbufSize ∧ c.tbufSize ≤ 1024)

end Sys2Proof
end

