-- ==== Sys2Proof/Safety.lean ====
section
/-! DEFINITION. What a consistent state of the block is, in the terms the statements use: canonical buffers, an error record
that agrees with itself, a sealed telegram that is one, and a sequencer that agrees with the command it runs. -/

namespace Sys2Proof.Machine

/-- No command runs and no byte is on offer (R53, R54). -/
def State.idle (s : State) : Prop := s.run = none ∧ s.tx = none

/-- The engine may take its steps in the turn of the CMD write (R240; the hold is the model's own, notes/assumptions/3.md),
and no command runs already: the states from which a command is performed in one atomic step. -/
def State.ready (s : State) : Prop := s.idle ∧ s.pins.hold = false

/-- Both buffers are in canonical form. -/
def State.buffersCanonical (s : State) : Prop := s.ibuf.wf ∧ s.tbuf.wf

/-- Every byte written lies inside its buffer (R50, R51). -/
def State.buffersInRange (s : State) : Prop :=
  s.ibuf.below s.cfg.ibufSize ∧ s.tbuf.below s.cfg.tbufSize

/-- ERR is set exactly when ERRCODE holds the code of an error (R39, R43). -/
def State.errorRecordAgrees (s : State) : Prop := s.err = true ↔ s.errcode ≠ .none

/-- The telegram TBUF[0..TLEN), if each of its bytes is written. -/
def State.telegram (s : State) : Option (List Byte) := s.tbuf.readBytes 0 s.tlen.toNat

/-- While SEALED = 1, TBUF[0..TLEN) is a body, CR and the checksum over both, it fits in TBUF, and CSUM holds that
checksum (R42, R220, R225). -/
def State.sealedTelegram (s : State) : Prop :=
  s.sealed = true →
    ∃ b : List Byte, s.telegram = some (b ++ [Config.cr, chk (b ++ [Config.cr])]) ∧
      s.tlen.toNat = b.length + 2 ∧ s.tlen.toNat ≤ s.cfg.tbufSize ∧ s.csum = chk (b ++ [Config.cr])

/-- The telegram type of a format or send command (R112). -/
def telegramKind : Instr → Option TelegramKind
  | .nop => none
  | .clear => none
  | .addrenc => none
  | .fmtZa => some .za
  | .fmtZi => some .zi
  | .fmtV => some .v
  | .fmtAa => some .aa
  | .norm => none
  | .sealTelegram => none
  | .xmit => none
  | .sendZa => some .za
  | .sendZi => some .zi
  | .sendV => some .v
  | .sendAa => some .aa

/-- The acceptance checks of a command (the table of R274). -/
def commandChecks : Instr → State → List (Bool × ErrCode)
  | .nop => fun _ => []
  | .clear => fun _ => []
  | .addrenc => fun _ => []
  | .fmtZa => checksZa
  | .fmtZi => checksZi
  | .fmtV => checksV
  | .fmtAa => checksAa
  | .norm => checksNorm
  | .sealTelegram => checksSeal
  | .xmit => checksXmit
  | .sendZa => checksZa
  | .sendZi => checksZi
  | .sendV => checksV
  | .sendAa => checksAa

/-- What holds of a running command at each stage. -/
def State.stageAgrees (s : State) (r : Run) : Prop :=
  match r.stage with
  | .nop => r.cur = .nop ∧ s.tx = none
  | .clear => r.cur = .clear ∧ s.tx = none
  | .addrenc => r.cur = .addrenc ∧ s.tx = none
  | .fmt k => telegramKind r.cur = some k ∧ firstError (commandChecks r.cur s) = none ∧ s.tx = none
  | .norm =>
    (r.cur = .norm ∨ isSend r.cur = true ∧ s.tlen.toNat + 2 ≤ s.cfg.tbufSize) ∧ s.sealed = false ∧
      s.tlen.toNat ≤ s.cfg.tbufSize ∧ s.tx = none
  | .sealSum =>
    (r.cur = .sealTelegram ∨ isSend r.cur = true) ∧ s.sealed = false ∧
      s.tlen.toNat + 2 ≤ s.cfg.tbufSize ∧ s.tx = none
  | .sealTail acc =>
    (r.cur = .sealTelegram ∨ isSend r.cur = true) ∧ s.sealed = false ∧
      s.tlen.toNat + 2 ≤ s.cfg.tbufSize ∧ s.tx = none ∧
      ∃ b, s.telegram = some b ∧ s.tbuf.read s.tlen.toNat = some Config.cr ∧ acc = chk (b ++ [Config.cr])
  | .xmit x =>
    (r.cur = .xmit ∨ isSend r.cur = true) ∧ s.sealed = true ∧ x ≤ s.tlen.toNat ∧
      (∀ b, s.tx = some b → x < s.tlen.toNat ∧ s.tbuf.read x = some b) ∧
      ∃ before sent, s.tbuf.readBytes 0 x = some sent ∧ s.sinkOut = before ++ sent

/-- The sequencer agrees with the command it runs: the snapshot still equals the busy-locked operands (R90, R92), and the
stage is one of that command's (R249). -/
def State.sequencerAgrees (s : State) : Prop :=
  match s.run with
  | none => s.tx = none
  | some r =>
    r.snap.addr = s.addr ∧ r.snap.ilen = s.ilen ∧ r.snap.l1len = s.l1len ∧
      (isSend r.cur = false → r.snap.tlen = s.tlen) ∧ s.stageAgrees r

/-- The invariant of the machine. -/
structure State.Inv (s : State) : Prop where
  legal : s.cfg.legal = true
  canonical : s.buffersCanonical
  inRange : s.buffersInRange
  errorRecord : s.errorRecordAgrees
  sealedOk : s.sealedTelegram
  sequencer : s.sequencerAgrees

/-! ### Names the statements use -/

/-- The state in which a turn is played: `p` is sampled and `rest` is still to come. -/
def State.withTurn (s : State) (p : Pins) (rest : List Pins) : State := { s with pins := p, inputs := rest }

/-- The next turn of `s` has the input signals `p`, and `rest` follows. -/
def State.nextTurn (s : State) (p : Pins) (rest : List Pins) : Prop := s.inputs = p :: rest

/-- In a turn with the input signals `p` the engine takes no step of its own: no command runs, or the turn holds the engine back
with no byte on offer (notes/assumptions/3.md), or the sink gives the byte on offer no answer (R96). -/
def State.engineRests (s : State) (p : Pins) : Prop :=
  s.run = none ∨ s.tx = none ∧ p.hold = true ∨
    ∃ r x b, s.run = some r ∧ r.stage = .xmit x ∧ s.tx = some b ∧ p.txReady = false ∧ p.txFail = false

/-- `n` turns, one after another: Host.Core.run of this machine. -/
def turns : Nat → State → Result
  | 0, s => .next s
  | n + 1, s => andThen (step s) (turns n)

/-- A turn in which the sink accepts the byte on offer and nothing else happens (R96). -/
def Pins.sinkAccepts : Pins := { Pins.quiet with txReady := true }

/-- A turn in which the host makes no access and `rst` is 0; the sink's answer and the hold are arbitrary. -/
def Pins.noHost (p : Pins) : Prop := p.rst = false ∧ p.regWe = false ∧ p.regRe = false

/-- The format command of a telegram type (R112). -/
def fmtCommand : TelegramKind → Instr
  | .za => .fmtZa
  | .zi => .fmtZi
  | .v => .fmtV
  | .aa => .fmtAa

/-- The send command of a telegram type (R112). -/
def sendCommand : TelegramKind → Instr
  | .za => .sendZa
  | .zi => .sendZi
  | .v => .sendV
  | .aa => .sendAa

/-- The telegram that FMT(k) writes from the operands as they stand (R190 to R193), if IBUF[0..ILEN) is written. -/
def State.formatted (s : State) (k : TelegramKind) : Option (List Byte) :=
  match k with
  | .za => (s.ibuf.readBytes 0 s.ilen.toNat).map telegramZa
  | .zi => (s.ibuf.readBytes 0 s.ilen.toNat).map telegramZi
  | .v => (s.ibuf.readBytes 0 s.ilen.toNat).map telegramV
  | .aa =>
    (s.ibuf.readBytes 0 s.ilen.toNat).map fun t =>
      telegramAa s.addr (t.take s.l1len.toNat) (t.drop s.l1len.toNat)

/-- The first stage of a command. -/
def firstStage : Instr → Stage
  | .nop => .nop
  | .clear => .clear
  | .addrenc => .addrenc
  | .fmtZa => .fmt .za
  | .fmtZi => .fmt .zi
  | .fmtV => .fmt .v
  | .fmtAa => .fmt .aa
  | .norm => .norm
  | .sealTelegram => .sealSum
  | .xmit => .xmit 0
  | .sendZa => .fmt .za
  | .sendZi => .fmt .zi
  | .sendV => .fmt .v
  | .sendAa => .fmt .aa

/-- How many engine steps a command takes in the turn of its CMD write (R240): one for a command of one stage, two for SEAL, and
for a SEND one per stage, two for its SEAL stage and one for the first offer. -/
def immediateSteps : Instr → Nat
  | .nop => 1
  | .clear => 1
  | .addrenc => 1
  | .fmtZa => 1
  | .fmtZi => 1
  | .fmtV => 1
  | .fmtAa => 1
  | .norm => 1
  | .sealTelegram => 2
  | .xmit => 1
  | .sendZa => 5
  | .sendZi => 5
  | .sendV => 5
  | .sendAa => 5

/-- The commands with no step that waits on anything outside the block (R240). -/
def nonWaiting : Instr → Bool
  | .nop => true
  | .clear => true
  | .addrenc => true
  | .fmtZa => true
  | .fmtZi => true
  | .fmtV => true
  | .fmtAa => true
  | .norm => true
  | .sealTelegram => true
  | .xmit => false
  | .sendZa => false
  | .sendZi => false
  | .sendV => false
  | .sendAa => false

/-- Replace every occurrence of one UTF8 source character (R141) from left to right: what "replacing the seven characters one
after another" means in R144 (a). -/
def replaceOne (row : SubstRow) : List Byte → List Byte
  | [] => []
  | [b] => [b]
  | b :: c :: rest =>
    if b = utf8Lead ∧ c = row.1 then row.2.2 :: replaceOne row rest else b :: replaceOne row (c :: rest)

end Sys2Proof.Machine
end

