-- ==== Sys2Proof/Certificates/Slice0/Obligations.lean ====
section
/-! DEFINITION. The statements about the CTE block that are to be proved. -/

open Sys2Proof Sys2Proof.Machine

/-! ### Encoding -/

/-- R113, R114: the command map is one to one; decoding the opcode of a command gives that command back, and no other byte
decodes to it. -/
def Obligations.DecodeInvertsEncode : Prop :=
  ∀ (i : Instr) (c : Byte), i.wellFormed = true → (decode c = .command i ↔ c = encode i)

/-- R114: the decode function, total on every byte: the fourteen bytes of the command map, each written out field by field as the
column S G F of R113 gives it, and RESERVED for every other byte. -/
def Obligations.CommandBytesDecode : Prop :=
  decode 0b00000000 = .command .nop ∧ decode 0b00000001 = .command .clear ∧
  decode 0b00000010 = .command .addrenc ∧ decode 0b00010000 = .command .fmtZa ∧
  decode 0b00010001 = .command .fmtZi ∧ decode 0b00010010 = .command .fmtV ∧
  decode 0b00010011 = .command .fmtAa ∧ decode 0b00100000 = .command .norm ∧
  decode 0b00110000 = .command .sealTelegram ∧ decode 0b01000000 = .command .xmit ∧
  decode 0b10010000 = .command .sendZa ∧ decode 0b10010001 = .command .sendZi ∧
  decode 0b10010010 = .command .sendV ∧ decode 0b10010011 = .command .sendAa ∧
  ∀ c : Byte,
    c ∉ [0x00, 0x01, 0x02, 0x10, 0x11, 0x12, 0x13, 0x20, 0x30, 0x40, 0x90, 0x91, 0x92, 0x93] → decode c = .reserved

/-- R116: the values a later version might use are illegal now; a CMD write of one while BUSY = 0 is rejected with BADCMD, sets
DONE and ERR and changes nothing else. -/
def Obligations.ReservedBytesAreRejected : Prop :=
  ∀ (s : State) (c : Byte), s.busy = false →
    (3 ≤ c.toNat ∧ c.toNat ≤ 0x0F ∨ 0x14 ≤ c.toNat ∧ c.toNat ≤ 0x1F ∨ 0x21 ≤ c.toNat ∧ c.toNat ≤ 0x2F ∨
      0x31 ≤ c.toNat ∧ c.toNat ≤ 0x3F ∨ 0x41 ≤ c.toNat ∧ c.toNat ≤ 0x8F ∨ 0x94 ≤ c.toNat) →
    writeCmd s c = .next { s with err := true, errcode := .badcmd, done := true }

/-! ### The machine around a command

The unit of time is the model's turn (notes/assumptions/1.md): one set of input signals, in which the host's read, the host's
write and the engine's step follow one another. -/

/-- R272, R116, R310, R240: the step of a turn with `rst` = 0 that writes a byte to CMD, after the turn's signals are sampled and
a read strobe set in the same turn is served (R88). A byte that decodes to a command, with BUSY = 0: exec of that command. Any
byte, in a turn in which the engine takes no step of its own (so always with BUSY = 0): writeCmd of it, which for a reserved
byte with BUSY = 0 is the rejection with BADCMD and with BUSY = 1 the drop with BUSY. With BUSY = 1 in any turn: the drop, and
then the engine's part of the turn. -/
def Obligations.StepRunsDecodedCommand : Prop :=
  ∀ (s : State) (p : Pins) (rest : List Pins),
    s.nextTurn p rest → p.rst = false → p.regWe = true → p.regAddr = 0x002 →
    (∀ i : Instr, decode p.regWdata = .command i → s.busy = false → step s = exec i (hostRead (s.withTurn p rest))) ∧
    (s.engineRests p → step s = writeCmd (hostRead (s.withTurn p rest)) p.regWdata) ∧
    (s.busy = false → decode p.regWdata = .reserved →
      step s = .next { hostRead (s.withTurn p rest) with err := true, errcode := .badcmd, done := true }) ∧
    (s.busy = true → s.engineRests p →
      step s = .next { hostRead (s.withTurn p rest) with err := true, errcode := .busy }) ∧
    (s.busy = true → step s = engineTurn { hostRead (s.withTurn p rest) with err := true, errcode := .busy })

/-- R272, R310: a CMD write while BUSY = 1, of any byte, is dropped and records BUSY; nothing else changes, DONE among it. -/
def Obligations.BusyCommandWriteIsDropped : Prop :=
  ∀ (s : State) (c : Byte), s.busy = true →
    writeCmd s c = .next { s with err := true, errcode := .busy }

/-- R241, R301: an idle block in a turn without a reset or a host access takes no step. -/
def Obligations.IdleBlockTakesNoStep : Prop :=
  ∀ (s : State) (p : Pins) (rest : List Pins), s.nextTurn p rest → p.noHost → s.run = none →
    step s = .next (s.withTurn p rest)

/-- R88, R90: a host write that is not to CMD takes effect at its location in the turn it is made, with a read strobe set as well
or not. That is the whole step when the engine takes no step of its own: in an idle block, in a held turn with no byte on offer,
and while an offer stays unanswered. In any other turn of a busy block the engine's part of the turn follows. -/
def Obligations.StepPerformsTheHostWrite : Prop :=
  ∀ (s : State) (p : Pins) (rest : List Pins),
    s.nextTurn p rest → p.rst = false → p.regWe = true → p.regAddr ≠ 0x002 →
    (s.run = none ∨ s.tx = none ∧ p.hold = true ∨
        (∃ r x b, s.run = some r ∧ r.stage = .xmit x ∧ s.tx = some b ∧ p.txReady = false ∧ p.txFail = false) →
      step s = .next (writeLoc (hostRead (s.withTurn p rest)) (locate s.cfg p.regAddr) p.regWdata)) ∧
    (s.busy = true →
      step s = engineTurn (writeLoc (hostRead (s.withTurn p rest)) (locate s.cfg p.regAddr) p.regWdata))

/-- R56: the reset values the spec gives, as the host reads them, and the internal state. -/
def Obligations.ResetLeavesTheBlockIdle : Prop :=
  readValue State.reset 0x000 = 0x43 ∧ readValue State.reset 0x001 = 0x01 ∧
  State.reset.statusByte = 0x00 ∧ State.reset.errcode.code = 0x00 ∧ State.reset.ctrlByte = 0x00 ∧
  State.reset.addr = 0x00 ∧ State.reset.csum = 0x00 ∧ State.reset.ilen = 0x0000 ∧
  State.reset.l1len = 0x0000 ∧ State.reset.tlen = 0x0000 ∧ State.reset.aencN = 0x00 ∧
  State.reset.aencC0 = 0x00 ∧ State.reset.aencC1 = 0x00 ∧ State.reset.run = none ∧
  State.reset.txValid = false ∧ State.reset.irq = false ∧
  (∀ i, State.reset.ibuf.read i = none) ∧ (∀ i, State.reset.tbuf.read i = none)

/-- R300, R56: a turn with `rst` = 1 puts the block into its reset state whatever it was doing, ignores every host access and
keeps what the sink accepted; a read in such a turn returns an unspecified value, a free value (notes/assumptions/4.md). What
lies outside the reset is notes/assumptions/10.md. -/
def Obligations.ResetTurnRestoresTheBlock : Prop :=
  ∀ (s : State) (p : Pins) (rest : List Pins), s.nextTurn p rest → p.rst = true →
    ∃ t, step s = .next t ∧
      t = { State.reset with
            cfg := s.cfg, pins := p, inputs := rest, reads := t.reads, sinkOut := s.sinkOut, draws := t.draws } ∧
      t.reads = s.reads ++ (if p.regRe then [(p.regAddr, Config.freeByte s.draws)] else [])

/-! ### What each command does

`ready` says that no command runs and that this turn does not hold the engine back. The hold is the model's own input
(notes/assumptions/3.md); without it the block performs a command in the turn of its CMD write, as R240 allows
(notes/assumptions/9.md). -/

/-- R250: NOP sets DONE and changes nothing else. -/
def Obligations.NopSetsDoneOnly : Prop :=
  ∀ s : State, s.ready → exec .nop s = .next { s with done := true }

/-- R251: CLEAR zeroes TLEN, FMTD, NORMD and SEALED, sets DONE and changes nothing else: ERR, ERRCODE and the buffers stay. -/
def Obligations.ClearDiscardsTheTelegram : Prop :=
  ∀ s : State, s.ready →
    exec .clear s =
      .next { s with tlen := 0, fmtd := false, normd := false, sealed := false, done := true }

/-- R162, R161: ADDRENC writes the encoding of ADDR into AENC_* and sets DONE; nothing else changes. -/
def Obligations.AddrencEncodesTheAddress : Prop :=
  ∀ s : State, s.ready →
    (s.addr.toNat < 16 →
      exec .addrenc s =
        .next { s with aencN := 1, aencC0 := 0x30 + s.addr, aencC1 := 0x00, done := true }) ∧
    (16 ≤ s.addr.toNat →
      exec .addrenc s =
        .next { s with aencN := 2, aencC0 := 0x30 + (s.addr >>> 4), aencC1 := 0x30 + (s.addr &&& 0x0F), done := true })

/-- R190, R185: FMT.ZA writes `zA`, the encoded count of 16-byte blocks, the text and spaces up to the next block boundary; TLEN
and the flags follow; bytes above the telegram and everything else keep their values. -/
def Obligations.FmtZaWritesFreeText : Prop :=
  ∀ (s : State) (text out : List Byte), s.ready → s.cfg.legal = true →
    s.ibuf.readBytes 0 s.ilen.toNat = some text →
    out = [0x7A, 0x41] ++ enc (BitVec.ofNat 8 ((text.length + 15) / 16)) ++ text
      ++ List.replicate ((16 - text.length % 16) % 16) 0x20 →
    s.ilen.toNat ≤ s.cfg.ibufSize → (text.length + 15) / 16 ≤ 255 → out.length + 2 ≤ s.cfg.tbufSize →
    ∃ t, exec .fmtZa s = .next t ∧ t.telegram = some out ∧
      (∀ a, out.length ≤ a → t.tbuf.read a = s.tbuf.read a) ∧
      t = { s with
            tbuf := t.tbuf, tlen := BitVec.ofNat 16 out.length,
            fmtd := true, normd := false, sealed := false, done := true }

/-- R191, R185: FMT.ZI, as FMT.ZA with marker `zI` and blocks of 4. -/
def Obligations.FmtZiWritesCompactText : Prop :=
  ∀ (s : State) (text out : List Byte), s.ready → s.cfg.legal = true →
    s.ibuf.readBytes 0 s.ilen.toNat = some text →
    out = [0x7A, 0x49] ++ enc (BitVec.ofNat 8 ((text.length + 3) / 4)) ++ text
      ++ List.replicate ((4 - text.length % 4) % 4) 0x20 →
    s.ilen.toNat ≤ s.cfg.ibufSize → (text.length + 3) / 4 ≤ 255 → out.length + 2 ≤ s.cfg.tbufSize →
    ∃ t, exec .fmtZi s = .next t ∧ t.telegram = some out ∧
      (∀ a, out.length ≤ a → t.tbuf.read a = s.tbuf.read a) ∧
      t = { s with
            tbuf := t.tbuf, tlen := BitVec.ofNat 16 out.length,
            fmtd := true, normd := false, sealed := false, done := true }

/-- R192, R185: FMT.V writes `v` and the text, without a count and without padding. -/
def Obligations.FmtVWritesRunNumber : Prop :=
  ∀ (s : State) (text : List Byte), s.ready → s.cfg.legal = true →
    s.ibuf.readBytes 0 s.ilen.toNat = some text →
    s.ilen.toNat ≤ s.cfg.ibufSize → text.length + 3 ≤ s.cfg.tbufSize →
    ∃ t, exec .fmtV s = .next t ∧ t.telegram = some (0x76 :: text) ∧
      (∀ a, text.length + 1 ≤ a → t.tbuf.read a = s.tbuf.read a) ∧
      t = { s with
            tbuf := t.tbuf, tlen := BitVec.ofNat 16 (text.length + 1),
            fmtd := true, normd := false, sealed := false, done := true }

/-- R193, R185: FMT.AA writes `aA`, the encoded address, the encoded block count and the body of the two lines: LF between them
only if line 2 is not empty, two LF after them, spaces up to the next multiple of 16. -/
def Obligations.FmtAaWritesTwoLineDisplay : Prop :=
  ∀ (s : State) (line1 line2 body out : List Byte), s.ready → s.cfg.legal = true →
    s.l1len.toNat ≤ s.ilen.toNat → line1.length = s.l1len.toNat →
    s.ibuf.readBytes 0 s.ilen.toNat = some (line1 ++ line2) →
    body = line1 ++ (if line2 = [] then [] else [0x0A]) ++ line2 ++ [0x0A, 0x0A] →
    out = [0x61, 0x41] ++ enc s.addr ++ enc (BitVec.ofNat 8 ((body.length + 15) / 16)) ++ body
      ++ List.replicate ((16 - body.length % 16) % 16) 0x20 →
    s.ilen.toNat ≤ s.cfg.ibufSize → (body.length + 15) / 16 ≤ 255 → out.length + 2 ≤ s.cfg.tbufSize →
    ∃ t, exec .fmtAa s = .next t ∧ t.telegram = some out ∧
      (∀ a, out.length ≤ a → t.tbuf.read a = s.tbuf.read a) ∧
      t = { s with
            tbuf := t.tbuf, tlen := BitVec.ofNat 16 out.length,
            fmtd := true, normd := false, sealed := false, done := true }

/-- R145, R146: NORM replaces TBUF[0..TLEN) by its substitution, writes the new TLEN and NORMD, and leaves every byte at and above
the new length, the freed tail among them, and everything else as they were. -/
def Obligations.NormSubstitutesInPlace : Prop :=
  ∀ (s : State) (text : List Byte), s.ready → s.cfg.legal = true → s.sealed = false →
    s.tlen.toNat ≤ s.cfg.tbufSize → s.telegram = some text →
    ∃ t, exec .norm s = .next t ∧ t.telegram = some (norm s.cfg.substEnc text) ∧
      (∀ a, (norm s.cfg.substEnc text).length ≤ a → t.tbuf.read a = s.tbuf.read a) ∧
      t = { s with
            tbuf := t.tbuf, tlen := BitVec.ofNat 16 (norm s.cfg.substEnc text).length,
            normd := true, done := true }

/-- R220, R221: SEAL appends CR and the XOR of the seed 0x7F with every byte up to and including that CR; TLEN, CSUM and SEALED
follow; TBUF changes at TLEN and TLEN + 1 only. -/
def Obligations.SealAppendsTheTrailer : Prop :=
  ∀ (s : State) (body : List Byte) (k : Byte), s.ready → s.cfg.legal = true → s.sealed = false →
    s.tlen.toNat + 2 ≤ s.cfg.tbufSize → s.telegram = some body →
    k = (body ++ [0x0D]).foldl (fun acc b => acc ^^^ b) 0x7F →
    ∃ t, exec .sealTelegram s = .next t ∧ t.telegram = some (body ++ [0x0D, k]) ∧
      (∀ a, a ≠ s.tlen.toNat → a ≠ s.tlen.toNat + 1 → t.tbuf.read a = s.tbuf.read a) ∧
      t = { s with tbuf := t.tbuf, tlen := s.tlen + 2, csum := k, sealed := true, done := true }

/-- R242, R54, R95: XMIT of a sealed telegram is accepted and offers its first byte; TBUF, TLEN, CSUM and the flags but DONE are
unchanged. A step per later byte follows (R240). On the tx port the byte on offer shows as `tx_valid` = 1 with that byte as
`tx_data`, in every state with an offer; without one `tx_valid` = 0. In a consistent state `tx_valid` = 1 only while XMIT or the
XMIT stage of a SEND runs, and `tx_data` is then TBUF[XIDX]. -/
def Obligations.XmitOffersTheFirstByte : Prop :=
  (∀ (s : State) (b : Byte), s.ready → s.sealed = true → 0 < s.tlen.toNat → s.tbuf.read 0 = some b →
    ∃ t, exec .xmit s = .next t ∧
      t = { s with
            run := some { cur := .xmit, stage := .xmit 0, snap := s.snapshot }, done := false, tx := some b } ∧
      t.txValid = true ∧ t.txData = b) ∧
  (∀ (s : State) (b : Byte), s.tx = some b → s.txValid = true ∧ s.txData = b) ∧
  (∀ s : State, s.tx = none → s.txValid = false) ∧
  (∀ s : State, s.Inv → s.txValid = true →
    ∃ r x, s.run = some r ∧ (r.cur = .xmit ∨ isSend r.cur = true) ∧ r.stage = .xmit x ∧ x < s.tlen.toNat ∧
      s.tbuf.read x = some s.txData)

/-- R249: each SEND formats, normalises and seals in the turn of its CMD write and offers the first byte: FMTD, NORMD and SEALED
are set, TLEN is the sealed length, CSUM its checksum. Of TBUF the bytes above the sealed telegram are those FMT wrote where the
formatted telegram was longer, and unchanged above that; nothing else changes. -/
def Obligations.SendOffersTheSealedTelegram : Prop :=
  ∀ (s : State) (kind : TelegramKind) (out body : List Byte) (k : Byte), s.ready → s.cfg.legal = true →
    firstError (commandChecks (sendCommand kind) s) = none → s.formatted kind = some out →
    body = norm s.cfg.substEnc out → k = (body ++ [0x0D]).foldl (fun acc b => acc ^^^ b) 0x7F →
    ∃ t, exec (sendCommand kind) s = .next t ∧ t.telegram = some (body ++ [0x0D, k]) ∧
      (∀ a, body.length + 2 ≤ a →
        t.tbuf.read a = if a < out.length then out[a]? else s.tbuf.read a) ∧
      t.tx = (body ++ [0x0D, k]).head? ∧
      t = { s with
            tbuf := t.tbuf, tlen := BitVec.ofNat 16 (body.length + 2), csum := k,
            fmtd := true, normd := true, sealed := true, done := false, tx := t.tx,
            run := some { cur := sendCommand kind, stage := .xmit 0, snap := s.snapshot } }

/-! ### Rejections and faults -/

/-- R274, R181 to R184: which error each FMT and SEND command is rejected with, in the order of the checks; a rejection changes
nothing but ERR, ERRCODE and DONE (R272). Under the default parameters RANGE is never the error; and a command that passes
leaves room for the trailer. -/
def Obligations.FormatAndSendRejections : Prop :=
  ∀ (s : State) (i : Instr) (k : TelegramKind), s.busy = false → i = fmtCommand k ∨ i = sendCommand k →
    (s.cfg.ibufSize < s.ilen.toNat →
      exec i s = .next { s with err := true, errcode := .len, done := true }) ∧
    (s.ilen.toNat ≤ s.cfg.ibufSize →
      (k = .za → (255 < (s.ilen.toNat + 15) / 16 →
          exec i s = .next { s with err := true, errcode := .range, done := true }) ∧
        ((s.ilen.toNat + 15) / 16 ≤ 255 →
          s.cfg.tbufSize < 2 + (enc (BitVec.ofNat 8 ((s.ilen.toNat + 15) / 16))).length
            + 16 * ((s.ilen.toNat + 15) / 16) + 2 →
          exec i s = .next { s with err := true, errcode := .ovf, done := true })) ∧
      (k = .zi → (255 < (s.ilen.toNat + 3) / 4 →
          exec i s = .next { s with err := true, errcode := .range, done := true }) ∧
        ((s.ilen.toNat + 3) / 4 ≤ 255 →
          s.cfg.tbufSize < 2 + (enc (BitVec.ofNat 8 ((s.ilen.toNat + 3) / 4))).length
            + 4 * ((s.ilen.toNat + 3) / 4) + 2 →
          exec i s = .next { s with err := true, errcode := .ovf, done := true })) ∧
      (k = .v → s.cfg.tbufSize < s.ilen.toNat + 3 →
        exec i s = .next { s with err := true, errcode := .ovf, done := true }) ∧
      (k = .aa → (s.ilen.toNat < s.l1len.toNat →
          exec i s = .next { s with err := true, errcode := .len, done := true }) ∧
        (∀ c, s.l1len.toNat ≤ s.ilen.toNat →
          c = (s.ilen.toNat + 2 + (if s.l1len.toNat < s.ilen.toNat then 1 else 0) + 15) / 16 →
          (255 < c → exec i s = .next { s with err := true, errcode := .range, done := true }) ∧
          (c ≤ 255 → s.cfg.tbufSize < 2 + (enc s.addr).length + (enc (BitVec.ofNat 8 c)).length + 16 * c + 2 →
            exec i s = .next { s with err := true, errcode := .ovf, done := true })))) ∧
    (s.cfg = Params.default → firstError (commandChecks i s) ≠ some .range) ∧
    (∀ out, firstError (commandChecks i s) = none → s.formatted k = some out → out.length + 2 ≤ s.cfg.tbufSize)

/-- R274, R145, R220, R242: which error NORM, SEAL and XMIT are rejected with, FROZEN before LEN before OVF. -/
def Obligations.NormSealXmitRejections : Prop :=
  ∀ s : State, s.busy = false →
    (s.sealed = true →
      exec .norm s = .next { s with err := true, errcode := .frozen, done := true } ∧
      exec .sealTelegram s = .next { s with err := true, errcode := .frozen, done := true }) ∧
    (s.sealed = false →
      exec .xmit s = .next { s with err := true, errcode := .notsealed, done := true }) ∧
    (s.sealed = false → s.cfg.tbufSize < s.tlen.toNat →
      exec .norm s = .next { s with err := true, errcode := .len, done := true } ∧
      exec .sealTelegram s = .next { s with err := true, errcode := .len, done := true }) ∧
    (s.sealed = false → s.tlen.toNat ≤ s.cfg.tbufSize → s.cfg.tbufSize < s.tlen.toNat + 2 →
      exec .sealTelegram s = .next { s with err := true, errcode := .ovf, done := true })

/-- R302, I1: an accepted command that uses a byte nothing has written since reset is a fault: FMT.* and SEND.* over
IBUF[0..ILEN), NORM and SEAL over TBUF[0..TLEN) (notes/assumptions/5.md). -/
def Obligations.UnwrittenBytesFault : Prop :=
  ∀ s : State, s.ready →
    (∀ (i : Instr) (k : TelegramKind), i = fmtCommand k ∨ i = sendCommand k →
      firstError (commandChecks i s) = none → s.ibuf.readBytes 0 s.ilen.toNat = none →
      exec i s = .fault .unwrittenIbuf) ∧
    (s.sealed = false → s.tlen.toNat ≤ s.cfg.tbufSize → s.telegram = none →
      exec .norm s = .fault .unwrittenTbuf) ∧
    (s.sealed = false → s.tlen.toNat + 2 ≤ s.cfg.tbufSize → s.telegram = none →
      exec .sealTelegram s = .fault .unwrittenTbuf)

/-! ### Acceptance, the engine's own steps and the sink -/

/-- R272: a command that passes its checks in a turn that holds the engine back is accepted and nothing more: the operands are
snapshotted, BUSY is 1, DONE is 0. The hold is the model's own input (notes/assumptions/3.md). -/
def Obligations.HeldCommandIsOnlyAccepted : Prop :=
  ∀ (s : State) (i : Instr), s.busy = false → s.pins.hold = true → firstError (commandChecks i s) = none →
    exec i s =
      .next { s with
              run := some { cur := i, stage := firstStage i,
                            snap := { addr := s.addr, ilen := s.ilen, l1len := s.l1len, tlen := s.tlen } },
              done := false }

/-- R240: for a command that waits on nothing outside the block, taking steps (2) to (4) in one turn, or accepting it in that
turn and performing it in the turns after it, leads to the same state, faults included. The hold that delays it is the model's
own input (notes/assumptions/3.md). -/
def Obligations.StepwiseExecutionEqualsAtomic : Prop :=
  ∀ (s : State) (i : Instr) (held : Bool), s.idle → nonWaiting i = true →
    turns 3 { s with inputs := [{ Pins.write 0x002 (encode i) with hold := held }] } =
      turns 3 { s with inputs := [Pins.write 0x002 (encode i)] }

/-- R96, R242: a byte on offer that the sink accepts is appended to what it received, once and unmodified; the offer ends and XIDX
moves on; nothing else changes. -/
def Obligations.AcceptedByteReachesTheSink : Prop :=
  ∀ (s : State) (p : Pins) (rest : List Pins) (r : Run) (x : Nat) (b : Byte),
    s.nextTurn p rest → p.noHost → s.run = some r → r.stage = .xmit x → s.tx = some b →
    p.txFail = false → p.txReady = true →
    step s =
      .next { s.withTurn p rest with
              tx := none, sinkOut := s.sinkOut ++ [b], run := some { r with stage := .xmit (x + 1) } }

/-- R96, R243: FAIL, also together with `tx_ready`, ends the command with TXFAIL: the byte is not accepted, `tx_valid` and BUSY
are 0, DONE and ERR are 1, and TBUF, TLEN, SEALED, what the sink received and everything else are unchanged. In a consistent
state the sink then holds TBUF[0..XIDX), which stays accepted. -/
def Obligations.FailedOfferEndsTheTransfer : Prop :=
  ∀ (s : State) (p : Pins) (rest : List Pins) (r : Run) (x : Nat) (b : Byte),
    s.nextTurn p rest → p.noHost → s.run = some r → r.stage = .xmit x → s.tx = some b → p.txFail = true →
    ∃ t, step s = .next t ∧
      t = { s.withTurn p rest with
            tx := none, run := none, done := true, err := true, errcode := .txfail } ∧
      (s.Inv → ∃ before sent, s.tbuf.readBytes 0 x = some sent ∧ t.sinkOut = before ++ sent)

/-- R312, R95: while the sink gives no answer the offer stays pending, however long and whatever the host does: BUSY stays 1,
`tx_valid` and `tx_data` stay as they are and nothing more reaches the sink. Only a reset ends it. -/
def Obligations.UnansweredOfferHangs : Prop :=
  ∀ (n : Nat) (s : State) (r : Run) (x : Nat) (b : Byte),
    s.run = some r → r.stage = .xmit x → s.tx = some b →
    (∀ p ∈ s.inputs, p.rst = false ∧ p.txReady = false ∧ p.txFail = false) →
    ∃ t, turns n s = .next t ∧ t.run = some r ∧ t.tx = some b ∧ t.txValid = true ∧ t.txData = b ∧
      t.sinkOut = s.sinkOut ∧ t.busy = true

/-- R242: XMIT of a sealed telegram, with a sink that accepts every offer, delivers exactly its bytes, in index order, and
completes: one turn per offer and one per answer after the turn of the CMD write (the model's turns, notes/assumptions/9.md).
Nothing but DONE changes in the block. -/
def Obligations.XmitDeliversTheTelegram : Prop :=
  ∀ (s t : State) (bytes : List Byte) (rest : List Pins), s.Inv → s.ready → s.sealed = true →
    s.telegram = some bytes → s.inputs = List.replicate (2 * bytes.length) Pins.sinkAccepts ++ rest →
    exec .xmit s = .next t →
    turns (2 * bytes.length) t =
      .next { s with
              pins := Pins.sinkAccepts, inputs := rest, sinkOut := s.sinkOut ++ bytes, done := true }

/-- R249: a SEND that is not rejected does what the four single commands FMT, NORM, SEAL and XMIT do in sequence: none of the
later three is rejected (R223), and the states agree but for CUR and the snapshot. -/
def Obligations.SendEqualsTheFourCommands : Prop :=
  ∀ (s t1 : State) (kind : TelegramKind), s.ready → s.cfg.legal = true →
    firstError (commandChecks (fmtCommand kind) s) = none → exec (fmtCommand kind) s = .next t1 →
    ∃ t2 t3 t4, exec .norm t1 = .next t2 ∧ exec .sealTelegram t2 = .next t3 ∧ exec .xmit t3 = .next t4 ∧
      t2.errcode = s.errcode ∧ t3.errcode = s.errcode ∧
      exec (sendCommand kind) s =
        .next { t4 with run := some { cur := sendCommand kind, stage := .xmit 0, snap := s.snapshot } }

/-- R249: a SEND that is not rejected, with a sink that accepts every offer, delivers its formatted, normalised and sealed
telegram and completes with FMTD, NORMD, SEALED and DONE set (the model's turns, notes/assumptions/9.md). -/
def Obligations.SendDeliversTheSealedTelegram : Prop :=
  ∀ (s : State) (kind : TelegramKind) (out bytes : List Byte) (p : Pins) (rest : List Pins),
    s.cfg.legal = true → s.idle → firstError (commandChecks (sendCommand kind) s) = none →
    s.formatted kind = some out →
    bytes = norm s.cfg.substEnc out ++ [0x0D, chk (norm s.cfg.substEnc out ++ [0x0D])] →
    p = Pins.write 0x002 (encode (sendCommand kind)) →
    s.inputs = p :: (List.replicate (2 * bytes.length) Pins.sinkAccepts ++ rest) →
    ∃ t, turns (2 * bytes.length + 1) s = .next t ∧ t.sinkOut = s.sinkOut ++ bytes ∧
      t.telegram = some bytes ∧ t.busy = false ∧ t.done = true ∧ t.fmtd = true ∧ t.normd = true ∧
      t.sealed = true ∧ t.err = s.err ∧ t.errcode = s.errcode ∧ t.inputs = rest

/-! ### What the commands compute -/

/-- R163: one character below 16, two from 16 on; enc(0) is `0`; every character lies in 0x30 to 0x3F; a two-character result
never starts with `0`; enc is injective, and reading the characters back to base 16 gives the value. -/
def Obligations.AddressEncodingIsInjective : Prop :=
  (∀ v : Byte, ((enc v).length = 1 ↔ v.toNat < 16) ∧ ((enc v).length = 2 ↔ 16 ≤ v.toNat) ∧
    (∀ c ∈ enc v, 0x30 ≤ c.toNat ∧ c.toNat ≤ 0x3F) ∧ ((enc v).length = 2 → (enc v).head? ≠ some 0x30) ∧
    (enc v).foldl (fun n c => n * 16 + (c.toNat - 0x30)) 0 = v.toNat) ∧
  enc 0x00 = [0x30] ∧
  (∀ v w : Byte, enc v = enc w → v = w)

/-- R144 (b), (c), (e): norm never lengthens a string, is idempotent, and leaves a string of bytes below 0x80 as it is; LATIN1
keeps the length. -/
def Obligations.NormalizationIsIdempotent : Prop :=
  ∀ (e : SubstEnc) (text : List Byte),
    norm e (norm e text) = norm e text ∧ (norm e text).length ≤ text.length ∧
    (e = .latin1 → (norm e text).length = text.length) ∧
    ((∀ b ∈ text, b.toNat < 0x80) → norm e text = text)

/-- R148: NORM never changes a header: it leaves the marker, the address characters and the block count as they are and works on
the rest of the telegram alone. -/
def Obligations.NormalizationKeepsTheHeader : Prop :=
  ∀ (e : SubstEnc) (a c : Byte) (rest : List Byte),
    norm e ([0x7A, 0x41] ++ enc c ++ rest) = [0x7A, 0x41] ++ enc c ++ norm e rest ∧
    norm e ([0x7A, 0x49] ++ enc c ++ rest) = [0x7A, 0x49] ++ enc c ++ norm e rest ∧
    norm e ([0x76] ++ rest) = [0x76] ++ norm e rest ∧
    norm e ([0x61, 0x41] ++ enc a ++ enc c ++ rest) = [0x61, 0x41] ++ enc a ++ enc c ++ norm e rest

/-- R142, R143, with the values of R141 written out: anywhere in a string, 0xC3 with the second byte of a row (UTF8) or the LATIN1
byte of a row becomes the row's substitute; every other byte is copied, 0xC3 before a byte of no row and 0xC3 as the last byte
among them. -/
def Obligations.SevenCharactersAreSubstituted : Prop :=
  ∀ pre post : List Byte,
    (∀ row ∈ ([(0xA4, 0xE4, 0x7B), (0xB6, 0xF6, 0x7C), (0xBC, 0xFC, 0x7D), (0x9F, 0xDF, 0x7E), (0x84, 0xC4, 0x5B),
               (0x96, 0xD6, 0x5C), (0x9C, 0xDC, 0x5D)] : List (Byte × Byte × Byte)),
      norm .utf8 (pre ++ [0xC3, row.1] ++ post) = norm .utf8 pre ++ [row.2.2] ++ norm .utf8 post ∧
      norm .latin1 (pre ++ [row.2.1] ++ post) = norm .latin1 pre ++ [row.2.2] ++ norm .latin1 post) ∧
    norm .utf8 [] = [] ∧ norm .latin1 [] = [] ∧ norm .utf8 [0xC3] = [0xC3] ∧
    (∀ b : Byte, b ≠ 0xC3 → norm .utf8 (b :: post) = b :: norm .utf8 post) ∧
    (∀ c : Byte, c ∉ [0xA4, 0xB6, 0xBC, 0x9F, 0x84, 0x96, 0x9C] →
      norm .utf8 (0xC3 :: c :: post) = 0xC3 :: norm .utf8 (c :: post)) ∧
    (∀ b : Byte, b ∉ [0xE4, 0xF6, 0xFC, 0xDF, 0xC4, 0xD6, 0xDC] → norm .latin1 (b :: post) = b :: norm .latin1 post)

/-- R144 (a): the one-scan substitution of UTF8 text equals replacing the seven characters one after another, in any order. -/
def Obligations.SubstitutionOrderDoesNotMatter : Prop :=
  ∀ (rows : List SubstRow) (text : List Byte), rows.Perm substTable →
    rows.foldl (fun t row => replaceOne row t) text = norm .utf8 text

/-- R225: the checksum of a sealed body is 0x72 XOR all its bytes, does not depend on their order, and is below 0x80 when every
byte of the body is. -/
def Obligations.ChecksumIsOrderFreeXor : Prop :=
  ∀ body other : List Byte,
    chk (body ++ [0x0D]) = 0x72 ^^^ body.foldr (fun b acc => b ^^^ acc) 0 ∧
    (body.Perm other → chk (body ++ [0x0D]) = chk (other ++ [0x0D])) ∧
    ((∀ b ∈ body, b.toNat < 0x80) → (chk (body ++ [0x0D])).toNat < 0x80)

/-- R210, R201: the lengths of the four telegrams; text or body and padding together are a whole number of blocks. -/
def Obligations.TelegramLengths : Prop :=
  ∀ (a : Byte) (p q : List Byte),
    (telegramZa p).length =
      2 + (encCount ((p.length + 15) / 16)).length + 16 * ((p.length + 15) / 16) ∧
    (telegramZi p).length =
      2 + (encCount ((p.length + 3) / 4)).length + 4 * ((p.length + 3) / 4) ∧
    (telegramV p).length = 1 + p.length ∧
    (bodyAa p q).length = p.length + q.length + 2 + (if q = [] then 0 else 1) ∧
    (telegramAa a p q).length =
      2 + (enc a).length + (encCount (((bodyAa p q).length + 15) / 16)).length
        + 16 * (((bodyAa p q).length + 15) / 16)

/-- R214: under the default parameters a format or send command whose ILEN passes its check, and whose L1LEN passes its check for
TwoLineDisplay, is never rejected. -/
def Obligations.DefaultSizesNeverRejectText : Prop :=
  ∀ (s : State) (k : TelegramKind), s.cfg = Params.default → s.ilen.toNat ≤ 256 →
    (k = .aa → s.l1len.toNat ≤ s.ilen.toNat) →
    firstError (commandChecks (fmtCommand k) s) = none ∧ firstError (commandChecks (sendCommand k) s) = none

/-! ### The host bus -/

/-- R32 to R49, R52, R84, R89, R270: what a host read of each register offset but STATUS returns: ID, REV, CMD, ERRCODE, CTRL,
ADDR, ILEN and L1LEN at any time, CSUM and TLEN while BUSY = 0, AENC_* unless ADDRENC runs. The value of each error code is
written out from the table of R270. -/
def Obligations.ReadsReturnTheRegisters : Prop :=
  ∀ s : State,
    (readValue s 0x000 = 0x43 ∧ readValue s 0x001 = 0x01 ∧ readValue s 0x002 = 0x00 ∧
      readValue s 0x004 = s.errcode.code ∧
      (readValue s 0x005).toNat = s.doneIe.toNat + 2 * s.errIe.toNat ∧ readValue s 0x006 = s.addr ∧
      (readValue s 0x008).toNat + 256 * (readValue s 0x009).toNat = s.ilen.toNat ∧
      (readValue s 0x00A).toNat + 256 * (readValue s 0x00B).toNat = s.l1len.toNat) ∧
    ((s.errcode = .none → readValue s 0x004 = 0x00) ∧ (s.errcode = .badcmd → readValue s 0x004 = 0x01) ∧
      (s.errcode = .busy → readValue s 0x004 = 0x02) ∧ (s.errcode = .len → readValue s 0x004 = 0x03) ∧
      (s.errcode = .range → readValue s 0x004 = 0x04) ∧ (s.errcode = .ovf → readValue s 0x004 = 0x05) ∧
      (s.errcode = .frozen → readValue s 0x004 = 0x06) ∧ (s.errcode = .notsealed → readValue s 0x004 = 0x07) ∧
      (s.errcode = .txfail → readValue s 0x004 = 0x08)) ∧
    (s.busy = false →
      readValue s 0x007 = s.csum ∧
      (readValue s 0x00C).toNat + 256 * (readValue s 0x00D).toNat = s.tlen.toNat) ∧
    ((∀ r, s.run = some r → r.cur ≠ .addrenc) →
      readValue s 0x00E = s.aencN ∧ readValue s 0x00F = s.aencC0 ∧ readValue s 0x010 = s.aencC1)

/-- R50, R51, R81, R89: a written IBUF byte reads back through its window at any time, a written TBUF byte while BUSY = 0, and
such a read is exact. R302, R89, I2, I3: a read of an unwritten IBUF or TBUF byte, and of any TBUF byte while BUSY = 1, is
unspecified in every bit: a free value (notes/assumptions/4.md), drawn afresh, since HostReadHasNoSideEffect counts the draw. -/
def Obligations.BufferWindowsReadTheBuffers : Prop :=
  ∀ (s : State) (a : Addr) (i : Nat), s.cfg.legal = true →
    (a.toNat = 0x400 + i → i < s.cfg.ibufSize →
      (∀ v, s.ibuf.read i = some v → readValue s a = v ∧ unspecifiedBits s (locate s.cfg a) = 0x00) ∧
      (s.ibuf.read i = none →
        readValue s a = Config.freeByte s.draws ∧ unspecifiedBits s (locate s.cfg a) = 0xFF)) ∧
    (a.toNat = 0x800 + i → i < s.cfg.tbufSize →
      (∀ v, s.tbuf.read i = some v → s.busy = false →
        readValue s a = v ∧ unspecifiedBits s (locate s.cfg a) = 0x00) ∧
      (s.tbuf.read i = none ∨ s.busy = true →
        readValue s a = Config.freeByte s.draws ∧ unspecifiedBits s (locate s.cfg a) = 0xFF))

/-- R82: a reserved location, window offsets at and beyond the buffer sizes among them, reads 0x00 and ignores writes at all
times, BUSY or not. The access sets no STATUS bit and raises no error: a write leaves the whole state as it was, a read all
but the record of reads. -/
def Obligations.ReservedLocationsAreInert : Prop :=
  ∀ (s : State) (a : Addr) (v : Byte), s.cfg.legal = true →
    (0x011 ≤ a.toNat ∧ a.toNat ≤ 0x3FF ∨ 0x400 + s.cfg.ibufSize ≤ a.toNat ∧ a.toNat ≤ 0x7FF ∨
      0x800 + s.cfg.tbufSize ≤ a.toNat ∧ a.toNat ≤ 0xBFF ∨ 0xC00 ≤ a.toNat) →
    readValue s a = 0x00 ∧ writeLoc s (locate s.cfg a) v = s ∧
    ∀ p : Pins, p.regAddr = a → p.regRe = true →
      ∃ t, hostRead { s with pins := p } = t ∧ t = { s with pins := p, reads := t.reads, draws := t.draws }

/-- R87, R88, R89: the host read of a turn with `rst` = 0, in any state, BUSY or not. Without a write strobe every step that goes
on records the value of the location as it stands before the turn; the read changes nothing else: where the engine takes no step
of its own that is the whole step, and elsewhere the engine's part of the turn follows. The draw counter stays at an exact read
and advances by one at a read with an unspecified bit, so that each such read draws afresh (R89, I2, I3). With both strobes set
the value recorded is unspecified (I4), a fresh draw too. What is drawn is a free value (notes/assumptions/4.md). -/
def Obligations.HostReadHasNoSideEffect : Prop :=
  ∀ (s : State) (p : Pins) (rest : List Pins) (n : Nat), s.nextTurn p rest → p.rst = false → p.regRe = true →
    n = (if unspecifiedBits s (locate s.cfg p.regAddr) = 0x00 then s.draws else s.draws + 1) →
    (p.regWe = false → s.engineRests p →
      step s = .next { s.withTurn p rest with
                       reads := s.reads ++ [(p.regAddr, readValue s p.regAddr)], draws := n }) ∧
    (p.regWe = false → s.busy = true →
      step s = engineTurn { s.withTurn p rest with
                            reads := s.reads ++ [(p.regAddr, readValue s p.regAddr)], draws := n }) ∧
    (p.regWe = false → ∀ t, step s = .next t →
      t.reads = s.reads ++ [(p.regAddr, readValue s p.regAddr)] ∧ t.draws = n) ∧
    (p.regWe = true → ∀ t, step s = .next t →
      t.reads = s.reads ++ [(p.regAddr, Config.freeByte s.draws)] ∧ t.draws = s.draws + 1)

/-- R45, R47, R48, R49, R84: a host write to an operand register of an idle block stores the byte; a half of a 16-bit register
leaves the other half; TLEN only while the telegram is not sealed. -/
def Obligations.OperandWritesStoreTheByte : Prop :=
  ∀ (s : State) (v : Byte) (h : Half) (rest : List Pins), s.run = none →
    (s.nextTurn (Pins.write 0x006 v) rest →
      step s = .next { s.withTurn (Pins.write 0x006 v) rest with addr := v }) ∧
    (s.nextTurn (Pins.write 0x008 v) rest → h.toNat = s.ilen.toNat / 256 * 256 + v.toNat →
      step s = .next { s.withTurn (Pins.write 0x008 v) rest with ilen := h }) ∧
    (s.nextTurn (Pins.write 0x009 v) rest → h.toNat = v.toNat * 256 + s.ilen.toNat % 256 →
      step s = .next { s.withTurn (Pins.write 0x009 v) rest with ilen := h }) ∧
    (s.nextTurn (Pins.write 0x00A v) rest → h.toNat = s.l1len.toNat / 256 * 256 + v.toNat →
      step s = .next { s.withTurn (Pins.write 0x00A v) rest with l1len := h }) ∧
    (s.nextTurn (Pins.write 0x00B v) rest → h.toNat = v.toNat * 256 + s.l1len.toNat % 256 →
      step s = .next { s.withTurn (Pins.write 0x00B v) rest with l1len := h }) ∧
    (s.nextTurn (Pins.write 0x00C v) rest → s.sealed = false → h.toNat = s.tlen.toNat / 256 * 256 + v.toNat →
      step s = .next { s.withTurn (Pins.write 0x00C v) rest with tlen := h }) ∧
    (s.nextTurn (Pins.write 0x00D v) rest → s.sealed = false → h.toNat = v.toNat * 256 + s.tlen.toNat % 256 →
      step s = .next { s.withTurn (Pins.write 0x00D v) rest with tlen := h })

/-- R50, R51: a host write to a buffer window of an idle block stores that one byte; TBUF only while the telegram is not
sealed. -/
def Obligations.BufferWindowWritesStoreOneByte : Prop :=
  ∀ (s : State) (a : Addr) (i : Nat) (v : Byte) (rest : List Pins), s.cfg.legal = true → s.run = none →
    s.nextTurn (Pins.write a v) rest →
    (a.toNat = 0x400 + i → i < s.cfg.ibufSize →
      ∃ t, step s = .next t ∧ t = { s.withTurn (Pins.write a v) rest with ibuf := t.ibuf } ∧
        t.ibuf.read i = some v ∧ ∀ j, j ≠ i → t.ibuf.read j = s.ibuf.read j) ∧
    (a.toNat = 0x800 + i → i < s.cfg.tbufSize → s.sealed = false →
      ∃ t, step s = .next t ∧ t = { s.withTurn (Pins.write a v) rest with tbuf := t.tbuf } ∧
        t.tbuf.read i = some v ∧ ∀ j, j ≠ i → t.tbuf.read j = s.tbuf.read j)

/-- R90, R91, R33, R34, R43, R46, R52: which host writes are ignored: to read-only registers always, to TLEN and the TBUF window
while SEALED = 1, and to everything but CMD, STATUS and CTRL while BUSY = 1. -/
def Obligations.LockedWritesAreIgnored : Prop :=
  ∀ (s : State) (a : Addr) (v : Byte),
    (a = 0x000 ∨ a = 0x001 ∨ a = 0x004 ∨ a = 0x007 ∨ a = 0x00E ∨ a = 0x00F ∨ a = 0x010 →
      writeLoc s (locate s.cfg a) v = s) ∧
    (s.sealed = true → a = 0x00C ∨ a = 0x00D ∨ 0x800 ≤ a.toNat ∧ a.toNat ≤ 0xBFF →
      writeLoc s (locate s.cfg a) v = s) ∧
    (s.busy = true → a ≠ 0x002 → a ≠ 0x003 → a ≠ 0x005 → writeLoc s (locate s.cfg a) v = s)

/-- R36: STATUS. Reads give BUSY, DONE, ERR in bits 0 to 2 and 0 in bits 7:6 at any time, FMTD, NORMD and SEALED in bits 3 to 5
while BUSY = 0 (R89). A write, at any time, clears DONE by bit 1 and ERR with ERRCODE by bit 2 and does nothing else. It
resets to 0. -/
def Obligations.StatusReadsAndClears : Prop :=
  (∀ (s : State) (w : Byte),
    ((readValue s 0x003).getLsbD 0 = s.busy ∧ (readValue s 0x003).getLsbD 1 = s.done ∧
      (readValue s 0x003).getLsbD 2 = s.err ∧ (readValue s 0x003).getLsbD 6 = false ∧
      (readValue s 0x003).getLsbD 7 = false) ∧
    (s.busy = false → (readValue s 0x003).getLsbD 3 = s.fmtd ∧ (readValue s 0x003).getLsbD 4 = s.normd ∧
      (readValue s 0x003).getLsbD 5 = s.sealed) ∧
    writeLoc s (locate s.cfg 0x003) w =
      { s with
        done := if w.getLsbD 1 then false else s.done
        err := if w.getLsbD 2 then false else s.err
        errcode := if w.getLsbD 2 then .none else s.errcode }) ∧
  readValue State.reset 0x003 = 0x00

/-- R44, R280: a host write of w to CTRL stores w & 0x03, at any time; `irq` is then high exactly while an enabled one of DONE
and ERR is 1. CTRL resets to 0. -/
def Obligations.ControlWriteEnablesTheInterrupt : Prop :=
  (∀ (s : State) (w : Byte),
    writeLoc s (locate s.cfg 0x005) w = { s with doneIe := w.getLsbD 0, errIe := w.getLsbD 1 } ∧
    readValue (writeLoc s (locate s.cfg 0x005) w) 0x005 = w &&& 0x03 ∧
    ((writeLoc s (locate s.cfg 0x005) w).irq = true ↔
      w.getLsbD 0 = true ∧ s.done = true ∨ w.getLsbD 1 = true ∧ s.err = true)) ∧
  readValue State.reset 0x005 = 0x00

/-- R89, R224: no host read while BUSY = 1 depends on TBUF (the placeholder in it), TLEN, CSUM or STATUS bits 3 to 5, nor on
AENC_* while ADDRENC runs. Those reads are unspecified: CSUM, TLEN and AENC_* in every bit and STATUS in bits 3 to 5, each a free
value (notes/assumptions/4.md). -/
def Obligations.BusyReadsHideIntermediateResults : Prop :=
  ∀ (s : State) (a : Addr) (m : Memory) (l : Half) (c n c0 c1 : Byte) (f g e : Bool), s.busy = true →
    readValue { s with tbuf := m, tlen := l, csum := c, fmtd := f, normd := g, sealed := e } a = readValue s a ∧
    (s.runsAddrenc = true →
      readValue { s with
        tbuf := m, tlen := l, csum := c, fmtd := f, normd := g, sealed := e, aencN := n, aencC0 := c0, aencC1 := c1 } a
        = readValue s a) ∧
    (a = 0x007 ∨ a = 0x00C ∨ a = 0x00D ∨ (a = 0x00E ∨ a = 0x00F ∨ a = 0x010) ∧ s.runsAddrenc = true →
      readValue s a = Config.freeByte s.draws ∧ unspecifiedBits s (locate s.cfg a) = 0xFF) ∧
    (a = 0x003 → unspecifiedBits s (locate s.cfg a) = 0x38 ∧
      ∀ j, 3 ≤ j → j ≤ 5 → (readValue s a).getLsbD j = (Config.freeByte s.draws).getLsbD j)

/-- R275 (b), (c): TXFAIL in the turn of a dropped CMD write or of a host write that clears ERR is the error that stays recorded.
R275 (d): the completion of any command in the turn of a host write to STATUS leaves DONE = 1; XMIT and SEND do complete in such
a turn once every byte is sent, and so does each other command that an earlier turn only accepted. -/
def Obligations.EngineBeatsSameTurnHostWrite : Prop :=
  ∀ (s : State) (p : Pins) (rest : List Pins) (r : Run),
    s.nextTurn p rest → p.rst = false → p.regWe = true → s.run = some r →
    (∀ x b, r.stage = .xmit x → s.tx = some b → p.txFail = true → p.regAddr = 0x002 ∨ p.regAddr = 0x003 →
      ∃ t, step s = .next t ∧ t.err = true ∧ t.errcode = .txfail ∧ t.done = true ∧ t.run = none) ∧
    (∀ x, r.stage = .xmit x → s.tx = none → p.hold = false → workLength r s ≤ x → p.regAddr = 0x003 →
      ∃ t, step s = .next t ∧ t.done = true ∧ t.run = none) ∧
    (r.stage = .nop ∨ r.stage = .clear ∨ r.stage = .addrenc → s.tx = none → p.hold = false → p.regAddr = 0x003 →
      ∃ t, step s = .next t ∧ t.done = true ∧ t.run = none) ∧
    (p.regAddr = 0x003 → ∀ t, step s = .next t → t.run = none → t.done = true)

/-! ### The whole machine -/

/-- The invariant of the machine holds right after reset. -/
def Obligations.InvariantHoldsAtReset : Prop := State.reset.Inv

/-- Every step keeps the invariant of the machine: buffers canonical and in range, ERR and ERRCODE in agreement, a sealed telegram
that ends in CR and its checksum, and a sequencer that agrees with its command. -/
def Obligations.EveryStepKeepsTheInvariant : Prop :=
  ∀ s t : State, s.Inv → step s = .next t → t.Inv

/-- Every step keeps both buffers in canonical form, whatever state it starts from. -/
def Obligations.EveryStepKeepsBuffersCanonical : Prop :=
  ∀ s t : State, s.buffersCanonical → step s = .next t → t.buffersCanonical

/-- R42, R91: a sealed telegram is immutable: from a consistent state, a step that is not a reset, in which no CLEAR, FMT or SEND
is accepted and none accepted before performs its CLEAR or FMT stage, leaves TBUF and TLEN as they were and SEALED set. A dropped
or rejected CMD write is no way out. -/
def Obligations.SealedTelegramIsFrozen : Prop :=
  ∀ (s t : State) (p : Pins) (rest : List Pins), s.Inv → s.nextTurn p rest → s.sealed = true →
    step s = .next t →
    p.rst = true ∨
    (∃ i, s.busy = false ∧ p.regWe = true ∧ p.regAddr = 0x002 ∧ decode p.regWdata = .command i ∧
      firstError (commandChecks i s) = none ∧ (i = .clear ∨ telegramKind i ≠ none)) ∨
    (∃ r, s.run = some r ∧ (r.stage = .clear ∨ ∃ k, r.stage = .fmt k)) ∨
    (t.sealed = true ∧ t.tbuf = s.tbuf ∧ t.tlen = s.tlen)

/-- R50: only a host write to the IBUF window, while BUSY = 0, or a reset changes IBUF; the engine never does. -/
def Obligations.OnlyTheHostWritesIbuf : Prop :=
  ∀ (s t : State) (p : Pins) (rest : List Pins), s.nextTurn p rest → step s = .next t → t.ibuf ≠ s.ibuf →
    p.rst = true ∨
    (p.regWe = true ∧ s.busy = false ∧ 0x400 ≤ p.regAddr.toNat ∧ p.regAddr.toNat < 0x400 + s.cfg.ibufSize)

/-- R39: ERR is sticky: once set it stays set through every step but a reset and a host write of 1 to STATUS bit 2; no command
clears it. -/
def Obligations.ErrStaysUntilAcknowledged : Prop :=
  ∀ (s t : State) (p : Pins) (rest : List Pins), s.nextTurn p rest → step s = .next t → s.err = true →
    t.err = true ∨ p.rst = true ∨
    (p.regWe = true ∧ p.regAddr = 0x003 ∧ p.regWdata.getLsbD 2 = true)

/-- R96, R300: what the sink accepted stays accepted; a step adds the byte on offer or nothing, and the byte only if the sink
answers ACCEPT. -/
def Obligations.SinkOutputOnlyGrows : Prop :=
  ∀ (s t : State) (p : Pins) (rest : List Pins), s.nextTurn p rest → step s = .next t →
    t.sinkOut = s.sinkOut ∨
    (∃ b, s.tx = some b ∧ p.rst = false ∧ p.txReady = true ∧ p.txFail = false ∧ t.sinkOut = s.sinkOut ++ [b])

/-- R46, R52: outside a reset, CSUM is written only by SEAL and the SEAL stage of SEND, and AENC_* only by ADDRENC: by its running
stage, or in the turn of a CMD write that is accepted. -/
def Obligations.ResultRegistersHaveOneWriter : Prop :=
  ∀ (s t : State) (p : Pins) (rest : List Pins), s.nextTurn p rest → p.rst = false → step s = .next t →
    (t.csum ≠ s.csum →
      (∃ r acc, s.run = some r ∧ r.stage = .sealTail acc) ∨
      (∃ i, s.busy = false ∧ p.regWe = true ∧ p.regAddr = 0x002 ∧ decode p.regWdata = .command i ∧
        firstError (commandChecks i s) = none ∧ (i = .sealTelegram ∨ isSend i = true))) ∧
    (t.aencN ≠ s.aencN ∨ t.aencC0 ≠ s.aencC0 ∨ t.aencC1 ≠ s.aencC1 →
      (∃ r, s.run = some r ∧ r.stage = .addrenc) ∨
      (s.busy = false ∧ p.regWe = true ∧ p.regAddr = 0x002 ∧ decode p.regWdata = .command .addrenc))

/-- R30: no step changes the parameters. -/
def Obligations.ParametersNeverChange : Prop :=
  ∀ s t : State, step s = .next t → t.cfg = s.cfg
end

