-- ==== Sys2Proof/Laws/Bytes.lean ====
section
/-! SUPPORT. The lengths and shapes of what the byte-string functions compute. -/

namespace Sys2Proof.Machine

/-! ### The halves of a 16-bit register -/

theorem half_toNat (h : Half) : (loByte h).toNat + 256 * (hiByte h).toNat = h.toNat := by
  simp [loByte, hiByte, BitVec.extractLsb'_toNat, Nat.shiftRight_eq_div_pow]; omega

theorem setLoByte_toNat (h : Half) (v : Byte) : (setLoByte h v).toNat = h.toNat / 256 * 256 + v.toNat := by
  simp only [setLoByte, hiByte, BitVec.toNat_append, BitVec.extractLsb'_toNat, Nat.shiftRight_eq_div_pow]
  rw [← Nat.shiftLeft_add_eq_or_of_lt v.isLt, Nat.shiftLeft_eq]
  have := h.isLt
  omega

theorem setHiByte_toNat (h : Half) (v : Byte) : (setHiByte h v).toNat = v.toNat * 256 + h.toNat % 256 := by
  simp only [setHiByte, loByte, BitVec.toNat_append, BitVec.extractLsb'_toNat, Nat.shiftRight_eq_div_pow]
  rw [← Nat.shiftLeft_add_eq_or_of_lt (Nat.mod_lt _ (by decide)), Nat.shiftLeft_eq]
  omega

/-! ### Address encoder -/

theorem hiNibble_eq_zero_iff (v : Byte) : hiNibble v = 0 ↔ v.toNat < 16 := by
  constructor
  · intro h
    have := congrArg BitVec.toNat h
    simp [hiNibble, BitVec.extractLsb'_toNat, Nat.shiftRight_eq_div_pow] at this
    omega
  · intro h
    apply BitVec.eq_of_toNat_eq
    simp [hiNibble, BitVec.extractLsb'_toNat, Nat.shiftRight_eq_div_pow]
    omega

theorem enc_of_lt {v : Byte} (h : v.toNat < 16) : enc v = [alphaChar (loNibble v)] := by
  simp [enc, (hiNibble_eq_zero_iff v).2 h]

theorem enc_of_ge {v : Byte} (h : 16 ≤ v.toNat) : enc v = [alphaChar (hiNibble v), alphaChar (loNibble v)] := by
  have : hiNibble v ≠ 0 := fun e => by have := (hiNibble_eq_zero_iff v).1 e; omega
  exact if_neg this

theorem enc_length (v : Byte) : (enc v).length = if v.toNat < 16 then 1 else 2 := by
  split
  · next h => rw [enc_of_lt h]; rfl
  · next h => rw [enc_of_ge (by omega)]; rfl

theorem enc_length_le (v : Byte) : (enc v).length ≤ 2 := by rw [enc_length]; split <;> omega

theorem enc_length_pos (v : Byte) : 0 < (enc v).length := by rw [enc_length]; split <;> omega

/-- `ALPHA[lo(v)]` is 0x30 + lo(v) (R160). -/
theorem alphaChar_lo (v : Byte) : alphaChar (loNibble v) = 0x30 + (v &&& 0x0F) := by
  revert v; decide +kernel

/-- `ALPHA[hi(v)]` is 0x30 + hi(v) (R160). -/
theorem alphaChar_hi (v : Byte) : alphaChar (hiNibble v) = 0x30 + (v >>> 4) := by
  revert v; decide +kernel

/-! ### Formatter -/

@[simp] theorem spaces_length (k : Nat) : (spaces k).length = k := List.length_replicate

theorem telegramZa_length (t : List Byte) : (telegramZa t).length = lengthZa t.length := by
  simp [telegramZa, lengthZa]; omega

theorem telegramZi_length (t : List Byte) : (telegramZi t).length = lengthZi t.length := by
  simp [telegramZi, lengthZi]; omega

theorem telegramV_length (t : List Byte) : (telegramV t).length = lengthV t.length := by
  simp [telegramV, lengthV]; omega

theorem bodyAa_length (p q : List Byte) :
    (bodyAa p q).length = bodyLengthAa (p.length + q.length) p.length := by
  unfold bodyAa bodyLengthAa
  by_cases h : q.length > 0
  · rw [if_pos h, if_pos (by omega)]; simp; omega
  · rw [if_neg h, if_neg (by omega)]; simp; omega

theorem telegramAa_length (a : Byte) (p q : List Byte) :
    (telegramAa a p q).length = lengthAa a (p.length + q.length) p.length := by
  simp [telegramAa, lengthAa, bodyAa_length]; omega

/-- Text and padding together are a whole number of blocks (R201), for the block size of FreeText and TwoLineDisplay. -/
theorem add_pad_long (n : Nat) : n + pad n Config.blockLong = 16 * blocks n Config.blockLong := by
  simp only [pad, blocks, Config.blockLong]; omega

/-- Text and padding together are a whole number of blocks (R201), for the block size of CompactText. -/
theorem add_pad_short (n : Nat) : n + pad n Config.blockShort = 4 * blocks n Config.blockShort := by
  simp only [pad, blocks, Config.blockShort]; omega

/-! ### Normalizer -/

/-- The head of a scan: a pair of the table is replaced. -/
theorem normUtf8_pair {c k : Byte} (h : sub2 c = some k) (rest : List Byte) :
    normUtf8 (utf8Lead :: c :: rest) = k :: normUtf8 rest := by
  rw [normUtf8]; simp [h]

/-- The head of a scan: a byte that starts no pair is copied. -/
theorem normUtf8_copy (b : Byte) (rest : List Byte)
    (h : b = utf8Lead → ∀ c, rest.head? = some c → sub2 c = none) :
    normUtf8 (b :: rest) = b :: normUtf8 rest := by
  cases rest with
  | nil => rw [normUtf8, normUtf8]
  | cons c rest =>
    rw [normUtf8]
    by_cases hb : b = utf8Lead
    · simp [hb, h hb c rfl]
    · simp [hb]

theorem normUtf8_length_le (s : List Byte) : (normUtf8 s).length ≤ s.length := by
  induction s using normUtf8.induct with
  | case1 => simp [normUtf8]
  | case2 b => simp [normUtf8]
  | case3 b c rest k h ih => rw [normUtf8]; simp only [h, List.length_cons]; omega
  | case4 b c rest h ih =>
    rw [normUtf8]; simp only [h, List.length_cons]; simp only [List.length_cons] at ih; omega

theorem norm_length_le (e : SubstEnc) (s : List Byte) : (norm e s).length ≤ s.length := by
  cases e
  · exact normUtf8_length_le s
  · simp [norm, normLatin1]

/-- What SUB2 gives stands in a row of the table. -/
theorem sub2_mem {c k : Byte} (h : sub2 c = some k) : ∃ row ∈ substTable, row.1 = c ∧ row.2.2 = k := by
  obtain ⟨row, hf, hk⟩ := Option.map_eq_some_iff.1 h
  exact ⟨row, List.mem_of_find?_eq_some hf, by simpa using List.find?_some hf, hk⟩

/-- What SUB1 gives stands in a row of the table. -/
theorem sub1_mem {c k : Byte} (h : sub1 c = some k) : ∃ row ∈ substTable, row.2.1 = c ∧ row.2.2 = k := by
  obtain ⟨row, hf, hk⟩ := Option.map_eq_some_iff.1 h
  exact ⟨row, List.mem_of_find?_eq_some hf, by simpa using List.find?_some hf, hk⟩

/-- A substitute is not the lead byte and has no substitute itself; it is below 0x80 and what it replaces is not. -/
theorem sub2_spec {c k : Byte} (h : sub2 c = some k) :
    k ≠ utf8Lead ∧ sub2 k = none ∧ k.toNat < 0x80 ∧ 0x80 ≤ c.toNat := by
  have table : substTable.all (fun row => decide
      (row.2.2 ≠ utf8Lead ∧ sub2 row.2.2 = none ∧ row.2.2.toNat < 0x80 ∧ 0x80 ≤ row.1.toNat)) = true := by decide
  obtain ⟨row, hm, rfl, rfl⟩ := sub2_mem h
  exact of_decide_eq_true (List.all_eq_true.1 table row hm)

/-- The same for LATIN1. -/
theorem sub1_spec {c k : Byte} (h : sub1 c = some k) :
    sub1 k = none ∧ k.toNat < 0x80 ∧ 0x80 ≤ c.toNat := by
  have table : substTable.all (fun row => decide
      (sub1 row.2.2 = none ∧ row.2.2.toNat < 0x80 ∧ 0x80 ≤ row.2.1.toNat)) = true := by decide
  obtain ⟨row, hm, rfl, rfl⟩ := sub1_mem h
  exact of_decide_eq_true (List.all_eq_true.1 table row hm)

/-! ### Sealer -/

theorem chk_append (s : List Byte) (b : Byte) : chk (s ++ [b]) = chk s ^^^ b := by simp [chk]

end Sys2Proof.Machine
end

