-- ==== Sys2Proof/Laws/Memory.lean ====
section
/-! SUPPORT. The laws of the buffers: a read after a write, and the canonical form that every write keeps. -/

namespace Sys2Proof.Machine

@[simp] theorem Memory.read_nil (a : Nat) : Memory.read [] a = none := rfl

/-- A read after a write: the written index gives the byte written, every other index what it gave before. -/
theorem Memory.read_write (m : Memory) (a b : Nat) (v : Byte) :
    (m.write a v).read b = if b = a then some v else m.read b := by
  induction m with
  | nil => simp [Memory.write, Memory.read, eq_comm]
  | cons c t ih =>
    obtain ⟨k, w⟩ := c
    simp only [Memory.write]
    split
    · simp [Memory.read, eq_comm]
    · split
      · next h => subst h; by_cases h' : b = a <;> simp [Memory.read, h', eq_comm (a := a)]
      · next h1 h2 =>
        by_cases hk : k = b
        · subst hk; simp [Memory.read, Ne.symm h2]
        · simp [Memory.read, hk, ih]

@[simp] theorem Memory.read_write_same (m : Memory) (a : Nat) (v : Byte) :
    (m.write a v).read a = some v := by simp [Memory.read_write]

theorem Memory.read_write_other (m : Memory) {a b : Nat} (v : Byte) (h : b ≠ a) :
    (m.write a v).read b = m.read b := by simp [Memory.read_write, h]

/-- Every entry of a written buffer is the new one or an old one. -/
theorem Memory.mem_write {m : Memory} {a : Nat} {v : Byte} {c : Host.Cell} (h : c ∈ m.write a v) :
    c = (a, v) ∨ c ∈ m := by
  induction m with
  | nil => simpa [Memory.write] using h
  | cons d t ih =>
    obtain ⟨k, w⟩ := d
    simp only [Memory.write] at h
    split at h
    · simpa using h
    · split at h
      · rcases List.mem_cons.1 h with h | h <;> simp [h]
      · rcases List.mem_cons.1 h with h | h
        · simp [h]
        · rcases ih h with h | h <;> simp [h]

/-- A write keeps the canonical form. -/
theorem Memory.wf_write {m : Memory} (h : m.wf) (a : Nat) (v : Byte) : (m.write a v).wf := by
  induction m with
  | nil => simp [Memory.write]
  | cons d t ih =>
    obtain ⟨k, w⟩ := d
    obtain ⟨hk, ht⟩ := List.pairwise_cons.1 h
    simp only [Memory.write]
    split
    · next hak =>
      refine List.pairwise_cons.2 ⟨fun c hc => ?_, h⟩
      rcases List.mem_cons.1 hc with rfl | hc
      · exact hak
      · exact Nat.lt_trans hak (hk c hc)
    · split
      · next hak => subst hak; exact List.pairwise_cons.2 ⟨hk, ht⟩
      · next h1 h2 =>
        refine List.pairwise_cons.2 ⟨fun c hc => ?_, ih ht⟩
        rcases Memory.mem_write hc with rfl | hc
        · show k < a; omega
        · exact hk c hc

/-- A write inside the buffer leaves every entry inside it. -/
theorem Memory.below_write {m : Memory} {n a : Nat} (h : m.below n) (ha : a < n) (v : Byte) :
    (m.write a v).below n := by
  intro c hc
  rcases Memory.mem_write hc with rfl | hc
  · exact ha
  · exact h c hc

/-! ### Byte strings -/

@[simp] theorem Memory.readBytes_zero (m : Memory) (a : Nat) : m.readBytes a 0 = some [] := rfl

@[simp] theorem Memory.writeBytes_nil (m : Memory) (a : Nat) : m.writeBytes a [] = m := rfl

theorem Memory.writeBytes_cons (m : Memory) (a : Nat) (b : Byte) (bs : List Byte) :
    m.writeBytes a (b :: bs) = (m.write a b).writeBytes (a + 1) bs := rfl

theorem Memory.wf_writeBytes {m : Memory} (h : m.wf) (a : Nat) (bs : List Byte) : (m.writeBytes a bs).wf := by
  induction bs generalizing m a with
  | nil => exact h
  | cons b bs ih => exact ih (Memory.wf_write h a b) (a + 1)

theorem Memory.below_writeBytes {m : Memory} {n a : Nat} {bs : List Byte} (h : m.below n)
    (ha : a + bs.length ≤ n) : (m.writeBytes a bs).below n := by
  induction bs generalizing m a with
  | nil => exact h
  | cons b bs ih =>
    simp only [List.length_cons] at ha
    exact ih (Memory.below_write h (by omega) b) (by omega)

/-- A read after a byte string was written: inside it the string's byte, elsewhere what stood there. -/
theorem Memory.read_writeBytes (m : Memory) (a : Nat) (bs : List Byte) (i : Nat) :
    (m.writeBytes a bs).read i = if a ≤ i ∧ i < a + bs.length then bs[i - a]? else m.read i := by
  induction bs generalizing m a with
  | nil => simp
  | cons b bs ih =>
    rw [Memory.writeBytes_cons, ih, Memory.read_write]
    simp only [List.length_cons]
    by_cases h1 : i = a
    · subst h1; simp
    · by_cases h2 : a + 1 ≤ i ∧ i < a + 1 + bs.length
      · obtain ⟨j, rfl⟩ : ∃ j, i = a + 1 + j := ⟨i - (a + 1), by omega⟩
        have e1 : a + 1 + j - a = j + 1 := by omega
        have e2 : a + 1 + j - (a + 1) = j := by omega
        rw [if_pos h2, if_pos (by omega), e1, e2, List.getElem?_cons_succ]
      · rw [if_neg h2, if_neg h1, if_neg (by omega)]

theorem Memory.read_writeBytes_above (m : Memory) (bs : List Byte) {i : Nat} (h : bs.length ≤ i) :
    (m.writeBytes 0 bs).read i = m.read i := by
  rw [Memory.read_writeBytes, if_neg (by omega)]

/-- A byte string is read exactly when each of its bytes is written. -/
theorem Memory.readBytes_eq_some {m : Memory} {a n : Nat} {bs : List Byte} :
    m.readBytes a n = some bs ↔ bs.length = n ∧ ∀ i, i < n → m.read (a + i) = bs[i]? := by
  induction n generalizing a bs with
  | zero => cases bs <;> simp
  | succ n ih =>
    constructor
    · intro h
      simp only [Memory.readBytes] at h
      split at h
      · next b cs hb hcs =>
        obtain ⟨hl, hr⟩ := ih.1 hcs
        cases h
        refine ⟨by simp [hl], fun i hi => ?_⟩
        cases i with
        | zero => simpa using hb
        | succ i =>
          have := hr i (by omega)
          rw [show a + (i + 1) = a + 1 + i by omega, this, List.getElem?_cons_succ]
      · cases h
    · rintro ⟨hl, hr⟩
      cases bs with
      | nil => simp at hl
      | cons b cs =>
        have hb : m.read a = some b := by simpa using hr 0 (by omega)
        have hcs : m.readBytes (a + 1) n = some cs := ih.2 ⟨by simpa using hl, fun i hi => by
          have := hr (i + 1) (by omega)
          rwa [List.getElem?_cons_succ, show a + (i + 1) = a + 1 + i by omega] at this⟩
        simp [Memory.readBytes, hb, hcs]

theorem Memory.readBytes_length {m : Memory} {a n : Nat} {bs : List Byte} (h : m.readBytes a n = some bs) :
    bs.length = n := (Memory.readBytes_eq_some.1 h).1

/-- A byte string is read back where it was written. -/
theorem Memory.readBytes_writeBytes (m : Memory) (a : Nat) (bs : List Byte) :
    (m.writeBytes a bs).readBytes a bs.length = some bs := by
  rw [Memory.readBytes_eq_some]
  refine ⟨rfl, fun i hi => ?_⟩
  rw [Memory.read_writeBytes, if_pos (by omega), Nat.add_sub_cancel_left]

/-- Reading a byte string sees only the bytes it covers. -/
theorem Memory.readBytes_congr {m m' : Memory} {a n : Nat}
    (h : ∀ i, i < n → m'.read (a + i) = m.read (a + i)) : m'.readBytes a n = m.readBytes a n := by
  induction n generalizing a with
  | zero => rfl
  | succ n ih =>
    have h0 : m'.read a = m.read a := by simpa using h 0 (by omega)
    have h1 := ih (a := a + 1) (fun i hi => by
      have := h (i + 1) (by omega)
      rwa [show a + (i + 1) = a + 1 + i by omega] at this)
    simp [Memory.readBytes, h0, h1]

/-- Two adjacent byte strings read as one. -/
theorem Memory.readBytes_append {m : Memory} {a n k : Nat} {xs ys : List Byte}
    (hx : m.readBytes a n = some xs) (hy : m.readBytes (a + n) k = some ys) :
    m.readBytes a (n + k) = some (xs ++ ys) := by
  rw [Memory.readBytes_eq_some] at hx hy ⊢
  obtain ⟨hlx, hrx⟩ := hx
  obtain ⟨hly, hry⟩ := hy
  refine ⟨by simp [hlx, hly], fun i hi => ?_⟩
  by_cases h : i < n
  · rw [hrx i h, List.getElem?_append_left (by omega)]
  · have := hry (i - n) (by omega)
    rw [show a + n + (i - n) = a + i by omega] at this
    rw [this, List.getElem?_append_right (by omega), hlx]

/-- One byte after a byte string extends it. -/
theorem Memory.readBytes_succ {m : Memory} {a n : Nat} {xs : List Byte} {b : Byte}
    (hx : m.readBytes a n = some xs) (hb : m.read (a + n) = some b) :
    m.readBytes a (n + 1) = some (xs ++ [b]) :=
  Memory.readBytes_append hx (by simp [Memory.readBytes, hb])

/-- A byte of a string that was read. -/
theorem Memory.read_of_readBytes {m : Memory} {n i : Nat} {bs : List Byte} (h : m.readBytes 0 n = some bs)
    (hi : i < n) : m.read i = bs[i]? := by
  simpa using (Memory.readBytes_eq_some.1 h).2 i hi

/-- Of two writes to one index the later one counts. -/
theorem Memory.write_write (m : Memory) (a : Nat) (v w : Byte) : (m.write a v).write a w = m.write a w := by
  induction m with
  | nil => simp [Memory.write]
  | cons c t ih =>
    obtain ⟨k, u⟩ := c
    simp only [Memory.write]
    split
    · simp [Memory.write]
    · split
      · simp [Memory.write]
      · next h1 h2 => simp [Memory.write, h1, h2, ih]

/-- A byte string read in two parts. -/
theorem Memory.readBytes_split {m : Memory} {a n k : Nat} {xs ys : List Byte}
    (h : m.readBytes a n = some (xs ++ ys)) (hk : xs.length = k) :
    m.readBytes a k = some xs ∧ m.readBytes (a + k) (n - k) = some ys := by
  obtain ⟨hl, hr⟩ := Memory.readBytes_eq_some.1 h
  simp only [List.length_append] at hl
  constructor
  · exact Memory.readBytes_eq_some.2
      ⟨hk, fun i hi => by rw [hr i (by omega), List.getElem?_append_left (by omega)]⟩
  · refine Memory.readBytes_eq_some.2 ⟨by omega, fun i hi => ?_⟩
    rw [Nat.add_assoc, hr (k + i) (by omega), List.getElem?_append_right (by omega)]
    congr 1; omega

/-- The buffers right after reset are in canonical form. -/
theorem Memory.wf_reset : State.reset.ibuf.wf ∧ State.reset.tbuf.wf := ⟨List.Pairwise.nil, List.Pairwise.nil⟩

/-- Reading the byte just written after a string. -/
theorem Memory.readBytes_write_end (m : Memory) (n : Nat) (v : Byte) :
    (m.write n v).readBytes 0 (n + 1) = (m.readBytes 0 n).map (· ++ [v]) := by
  have hcongr : (m.write n v).readBytes 0 n = m.readBytes 0 n :=
    Memory.readBytes_congr fun i hi => by rw [Memory.read_write_other]; omega
  cases h : m.readBytes 0 n with
  | some t =>
    rw [h] at hcongr
    simpa using Memory.readBytes_succ hcongr (by simp)
  | none =>
    cases h' : (m.write n v).readBytes 0 (n + 1) with
    | none => rfl
    | some t =>
      obtain ⟨hl, hr⟩ := Memory.readBytes_eq_some.1 h'
      have : (m.write n v).readBytes 0 n = some (t.take n) :=
        Memory.readBytes_eq_some.2 ⟨by simp [hl], fun i hi => by
          rw [hr i (by omega), List.getElem?_take, if_pos hi]⟩
      rw [hcongr, h] at this
      cases this

/-- Reading a string with two bytes just written after it. -/
theorem Memory.readBytes_trailer {m : Memory} {n : Nat} {body : List Byte} (h : m.readBytes 0 n = some body)
    (c k : Byte) : ((m.write n c).write (n + 1) k).readBytes 0 (n + 2) = some (body ++ [c, k]) := by
  rw [Memory.readBytes_write_end, Memory.readBytes_write_end, h]; simp

end Sys2Proof.Machine
end

