-- ==== Sys2Proof/Laws/State.lean ====
section
/-! SUPPORT. What each named update of State does to each field: one lemma per field per update, each true by rfl. -/

namespace Sys2Proof.Machine

/-! ### recordError -/

@[simp] theorem State.recordError_cfg (s : State) (e : ErrCode) :
    (s.recordError e).cfg = s.cfg := rfl
@[simp] theorem State.recordError_addr (s : State) (e : ErrCode) :
    (s.recordError e).addr = s.addr := rfl
@[simp] theorem State.recordError_csum (s : State) (e : ErrCode) :
    (s.recordError e).csum = s.csum := rfl
@[simp] theorem State.recordError_ilen (s : State) (e : ErrCode) :
    (s.recordError e).ilen = s.ilen := rfl
@[simp] theorem State.recordError_l1len (s : State) (e : ErrCode) :
    (s.recordError e).l1len = s.l1len := rfl
@[simp] theorem State.recordError_tlen (s : State) (e : ErrCode) :
    (s.recordError e).tlen = s.tlen := rfl
@[simp] theorem State.recordError_aencN (s : State) (e : ErrCode) :
    (s.recordError e).aencN = s.aencN := rfl
@[simp] theorem State.recordError_aencC0 (s : State) (e : ErrCode) :
    (s.recordError e).aencC0 = s.aencC0 := rfl
@[simp] theorem State.recordError_aencC1 (s : State) (e : ErrCode) :
    (s.recordError e).aencC1 = s.aencC1 := rfl
@[simp] theorem State.recordError_done (s : State) (e : ErrCode) :
    (s.recordError e).done = s.done := rfl
@[simp] theorem State.recordError_err (s : State) (e : ErrCode) :
    (s.recordError e).err = true := rfl
@[simp] theorem State.recordError_fmtd (s : State) (e : ErrCode) :
    (s.recordError e).fmtd = s.fmtd := rfl
@[simp] theorem State.recordError_normd (s : State) (e : ErrCode) :
    (s.recordError e).normd = s.normd := rfl
@[simp] theorem State.recordError_sealed (s : State) (e : ErrCode) :
    (s.recordError e).sealed = s.sealed := rfl
@[simp] theorem State.recordError_errcode (s : State) (e : ErrCode) :
    (s.recordError e).errcode = e := rfl
@[simp] theorem State.recordError_doneIe (s : State) (e : ErrCode) :
    (s.recordError e).doneIe = s.doneIe := rfl
@[simp] theorem State.recordError_errIe (s : State) (e : ErrCode) :
    (s.recordError e).errIe = s.errIe := rfl
@[simp] theorem State.recordError_ibuf (s : State) (e : ErrCode) :
    (s.recordError e).ibuf = s.ibuf := rfl
@[simp] theorem State.recordError_tbuf (s : State) (e : ErrCode) :
    (s.recordError e).tbuf = s.tbuf := rfl
@[simp] theorem State.recordError_run (s : State) (e : ErrCode) :
    (s.recordError e).run = s.run := rfl
@[simp] theorem State.recordError_tx (s : State) (e : ErrCode) :
    (s.recordError e).tx = s.tx := rfl
@[simp] theorem State.recordError_pins (s : State) (e : ErrCode) :
    (s.recordError e).pins = s.pins := rfl
@[simp] theorem State.recordError_inputs (s : State) (e : ErrCode) :
    (s.recordError e).inputs = s.inputs := rfl
@[simp] theorem State.recordError_reads (s : State) (e : ErrCode) :
    (s.recordError e).reads = s.reads := rfl
@[simp] theorem State.recordError_sinkOut (s : State) (e : ErrCode) :
    (s.recordError e).sinkOut = s.sinkOut := rfl
@[simp] theorem State.recordError_draws (s : State) (e : ErrCode) :
    (s.recordError e).draws = s.draws := rfl

/-! ### reject -/

@[simp] theorem State.reject_cfg (s : State) (e : ErrCode) :
    (s.reject e).cfg = s.cfg := rfl
@[simp] theorem State.reject_addr (s : State) (e : ErrCode) :
    (s.reject e).addr = s.addr := rfl
@[simp] theorem State.reject_csum (s : State) (e : ErrCode) :
    (s.reject e).csum = s.csum := rfl
@[simp] theorem State.reject_ilen (s : State) (e : ErrCode) :
    (s.reject e).ilen = s.ilen := rfl
@[simp] theorem State.reject_l1len (s : State) (e : ErrCode) :
    (s.reject e).l1len = s.l1len := rfl
@[simp] theorem State.reject_tlen (s : State) (e : ErrCode) :
    (s.reject e).tlen = s.tlen := rfl
@[simp] theorem State.reject_aencN (s : State) (e : ErrCode) :
    (s.reject e).aencN = s.aencN := rfl
@[simp] theorem State.reject_aencC0 (s : State) (e : ErrCode) :
    (s.reject e).aencC0 = s.aencC0 := rfl
@[simp] theorem State.reject_aencC1 (s : State) (e : ErrCode) :
    (s.reject e).aencC1 = s.aencC1 := rfl
@[simp] theorem State.reject_done (s : State) (e : ErrCode) :
    (s.reject e).done = true := rfl
@[simp] theorem State.reject_err (s : State) (e : ErrCode) :
    (s.reject e).err = true := rfl
@[simp] theorem State.reject_fmtd (s : State) (e : ErrCode) :
    (s.reject e).fmtd = s.fmtd := rfl
@[simp] theorem State.reject_normd (s : State) (e : ErrCode) :
    (s.reject e).normd = s.normd := rfl
@[simp] theorem State.reject_sealed (s : State) (e : ErrCode) :
    (s.reject e).sealed = s.sealed := rfl
@[simp] theorem State.reject_errcode (s : State) (e : ErrCode) :
    (s.reject e).errcode = e := rfl
@[simp] theorem State.reject_doneIe (s : State) (e : ErrCode) :
    (s.reject e).doneIe = s.doneIe := rfl
@[simp] theorem State.reject_errIe (s : State) (e : ErrCode) :
    (s.reject e).errIe = s.errIe := rfl
@[simp] theorem State.reject_ibuf (s : State) (e : ErrCode) :
    (s.reject e).ibuf = s.ibuf := rfl
@[simp] theorem State.reject_tbuf (s : State) (e : ErrCode) :
    (s.reject e).tbuf = s.tbuf := rfl
@[simp] theorem State.reject_run (s : State) (e : ErrCode) :
    (s.reject e).run = s.run := rfl
@[simp] theorem State.reject_tx (s : State) (e : ErrCode) :
    (s.reject e).tx = s.tx := rfl
@[simp] theorem State.reject_pins (s : State) (e : ErrCode) :
    (s.reject e).pins = s.pins := rfl
@[simp] theorem State.reject_inputs (s : State) (e : ErrCode) :
    (s.reject e).inputs = s.inputs := rfl
@[simp] theorem State.reject_reads (s : State) (e : ErrCode) :
    (s.reject e).reads = s.reads := rfl
@[simp] theorem State.reject_sinkOut (s : State) (e : ErrCode) :
    (s.reject e).sinkOut = s.sinkOut := rfl
@[simp] theorem State.reject_draws (s : State) (e : ErrCode) :
    (s.reject e).draws = s.draws := rfl

/-! ### accept -/

@[simp] theorem State.accept_cfg (s : State) (i : Instr) (g : Stage) :
    (s.accept i g).cfg = s.cfg := rfl
@[simp] theorem State.accept_addr (s : State) (i : Instr) (g : Stage) :
    (s.accept i g).addr = s.addr := rfl
@[simp] theorem State.accept_csum (s : State) (i : Instr) (g : Stage) :
    (s.accept i g).csum = s.csum := rfl
@[simp] theorem State.accept_ilen (s : State) (i : Instr) (g : Stage) :
    (s.accept i g).ilen = s.ilen := rfl
@[simp] theorem State.accept_l1len (s : State) (i : Instr) (g : Stage) :
    (s.accept i g).l1len = s.l1len := rfl
@[simp] theorem State.accept_tlen (s : State) (i : Instr) (g : Stage) :
    (s.accept i g).tlen = s.tlen := rfl
@[simp] theorem State.accept_aencN (s : State) (i : Instr) (g : Stage) :
    (s.accept i g).aencN = s.aencN := rfl
@[simp] theorem State.accept_aencC0 (s : State) (i : Instr) (g : Stage) :
    (s.accept i g).aencC0 = s.aencC0 := rfl
@[simp] theorem State.accept_aencC1 (s : State) (i : Instr) (g : Stage) :
    (s.accept i g).aencC1 = s.aencC1 := rfl
@[simp] theorem State.accept_done (s : State) (i : Instr) (g : Stage) :
    (s.accept i g).done = false := rfl
@[simp] theorem State.accept_err (s : State) (i : Instr) (g : Stage) :
    (s.accept i g).err = s.err := rfl
@[simp] theorem State.accept_fmtd (s : State) (i : Instr) (g : Stage) :
    (s.accept i g).fmtd = s.fmtd := rfl
@[simp] theorem State.accept_normd (s : State) (i : Instr) (g : Stage) :
    (s.accept i g).normd = s.normd := rfl
@[simp] theorem State.accept_sealed (s : State) (i : Instr) (g : Stage) :
    (s.accept i g).sealed = s.sealed := rfl
@[simp] theorem State.accept_errcode (s : State) (i : Instr) (g : Stage) :
    (s.accept i g).errcode = s.errcode := rfl
@[simp] theorem State.accept_doneIe (s : State) (i : Instr) (g : Stage) :
    (s.accept i g).doneIe = s.doneIe := rfl
@[simp] theorem State.accept_errIe (s : State) (i : Instr) (g : Stage) :
    (s.accept i g).errIe = s.errIe := rfl
@[simp] theorem State.accept_ibuf (s : State) (i : Instr) (g : Stage) :
    (s.accept i g).ibuf = s.ibuf := rfl
@[simp] theorem State.accept_tbuf (s : State) (i : Instr) (g : Stage) :
    (s.accept i g).tbuf = s.tbuf := rfl
@[simp] theorem State.accept_run (s : State) (i : Instr) (g : Stage) :
    (s.accept i g).run = some { cur := i, stage := g, snap := s.snapshot } := rfl
@[simp] theorem State.accept_tx (s : State) (i : Instr) (g : Stage) :
    (s.accept i g).tx = s.tx := rfl
@[simp] theorem State.accept_pins (s : State) (i : Instr) (g : Stage) :
    (s.accept i g).pins = s.pins := rfl
@[simp] theorem State.accept_inputs (s : State) (i : Instr) (g : Stage) :
    (s.accept i g).inputs = s.inputs := rfl
@[simp] theorem State.accept_reads (s : State) (i : Instr) (g : Stage) :
    (s.accept i g).reads = s.reads := rfl
@[simp] theorem State.accept_sinkOut (s : State) (i : Instr) (g : Stage) :
    (s.accept i g).sinkOut = s.sinkOut := rfl
@[simp] theorem State.accept_draws (s : State) (i : Instr) (g : Stage) :
    (s.accept i g).draws = s.draws := rfl

/-! ### complete -/

@[simp] theorem State.complete_cfg (s : State) :
    s.complete.cfg = s.cfg := rfl
@[simp] theorem State.complete_addr (s : State) :
    s.complete.addr = s.addr := rfl
@[simp] theorem State.complete_csum (s : State) :
    s.complete.csum = s.csum := rfl
@[simp] theorem State.complete_ilen (s : State) :
    s.complete.ilen = s.ilen := rfl
@[simp] theorem State.complete_l1len (s : State) :
    s.complete.l1len = s.l1len := rfl
@[simp] theorem State.complete_tlen (s : State) :
    s.complete.tlen = s.tlen := rfl
@[simp] theorem State.complete_aencN (s : State) :
    s.complete.aencN = s.aencN := rfl
@[simp] theorem State.complete_aencC0 (s : State) :
    s.complete.aencC0 = s.aencC0 := rfl
@[simp] theorem State.complete_aencC1 (s : State) :
    s.complete.aencC1 = s.aencC1 := rfl
@[simp] theorem State.complete_done (s : State) :
    s.complete.done = true := rfl
@[simp] theorem State.complete_err (s : State) :
    s.complete.err = s.err := rfl
@[simp] theorem State.complete_fmtd (s : State) :
    s.complete.fmtd = s.fmtd := rfl
@[simp] theorem State.complete_normd (s : State) :
    s.complete.normd = s.normd := rfl
@[simp] theorem State.complete_sealed (s : State) :
    s.complete.sealed = s.sealed := rfl
@[simp] theorem State.complete_errcode (s : State) :
    s.complete.errcode = s.errcode := rfl
@[simp] theorem State.complete_doneIe (s : State) :
    s.complete.doneIe = s.doneIe := rfl
@[simp] theorem State.complete_errIe (s : State) :
    s.complete.errIe = s.errIe := rfl
@[simp] theorem State.complete_ibuf (s : State) :
    s.complete.ibuf = s.ibuf := rfl
@[simp] theorem State.complete_tbuf (s : State) :
    s.complete.tbuf = s.tbuf := rfl
@[simp] theorem State.complete_run (s : State) :
    s.complete.run = none := rfl
@[simp] theorem State.complete_tx (s : State) :
    s.complete.tx = none := rfl
@[simp] theorem State.complete_pins (s : State) :
    s.complete.pins = s.pins := rfl
@[simp] theorem State.complete_inputs (s : State) :
    s.complete.inputs = s.inputs := rfl
@[simp] theorem State.complete_reads (s : State) :
    s.complete.reads = s.reads := rfl
@[simp] theorem State.complete_sinkOut (s : State) :
    s.complete.sinkOut = s.sinkOut := rfl
@[simp] theorem State.complete_draws (s : State) :
    s.complete.draws = s.draws := rfl

/-! ### toStage -/

@[simp] theorem State.toStage_cfg (s : State) (r : Run) (g : Stage) :
    (s.toStage r g).cfg = s.cfg := rfl
@[simp] theorem State.toStage_addr (s : State) (r : Run) (g : Stage) :
    (s.toStage r g).addr = s.addr := rfl
@[simp] theorem State.toStage_csum (s : State) (r : Run) (g : Stage) :
    (s.toStage r g).csum = s.csum := rfl
@[simp] theorem State.toStage_ilen (s : State) (r : Run) (g : Stage) :
    (s.toStage r g).ilen = s.ilen := rfl
@[simp] theorem State.toStage_l1len (s : State) (r : Run) (g : Stage) :
    (s.toStage r g).l1len = s.l1len := rfl
@[simp] theorem State.toStage_tlen (s : State) (r : Run) (g : Stage) :
    (s.toStage r g).tlen = s.tlen := rfl
@[simp] theorem State.toStage_aencN (s : State) (r : Run) (g : Stage) :
    (s.toStage r g).aencN = s.aencN := rfl
@[simp] theorem State.toStage_aencC0 (s : State) (r : Run) (g : Stage) :
    (s.toStage r g).aencC0 = s.aencC0 := rfl
@[simp] theorem State.toStage_aencC1 (s : State) (r : Run) (g : Stage) :
    (s.toStage r g).aencC1 = s.aencC1 := rfl
@[simp] theorem State.toStage_done (s : State) (r : Run) (g : Stage) :
    (s.toStage r g).done = s.done := rfl
@[simp] theorem State.toStage_err (s : State) (r : Run) (g : Stage) :
    (s.toStage r g).err = s.err := rfl
@[simp] theorem State.toStage_fmtd (s : State) (r : Run) (g : Stage) :
    (s.toStage r g).fmtd = s.fmtd := rfl
@[simp] theorem State.toStage_normd (s : State) (r : Run) (g : Stage) :
    (s.toStage r g).normd = s.normd := rfl
@[simp] theorem State.toStage_sealed (s : State) (r : Run) (g : Stage) :
    (s.toStage r g).sealed = s.sealed := rfl
@[simp] theorem State.toStage_errcode (s : State) (r : Run) (g : Stage) :
    (s.toStage r g).errcode = s.errcode := rfl
@[simp] theorem State.toStage_doneIe (s : State) (r : Run) (g : Stage) :
    (s.toStage r g).doneIe = s.doneIe := rfl
@[simp] theorem State.toStage_errIe (s : State) (r : Run) (g : Stage) :
    (s.toStage r g).errIe = s.errIe := rfl
@[simp] theorem State.toStage_ibuf (s : State) (r : Run) (g : Stage) :
    (s.toStage r g).ibuf = s.ibuf := rfl
@[simp] theorem State.toStage_tbuf (s : State) (r : Run) (g : Stage) :
    (s.toStage r g).tbuf = s.tbuf := rfl
@[simp] theorem State.toStage_run (s : State) (r : Run) (g : Stage) :
    (s.toStage r g).run = some { r with stage := g } := rfl
@[simp] theorem State.toStage_tx (s : State) (r : Run) (g : Stage) :
    (s.toStage r g).tx = s.tx := rfl
@[simp] theorem State.toStage_pins (s : State) (r : Run) (g : Stage) :
    (s.toStage r g).pins = s.pins := rfl
@[simp] theorem State.toStage_inputs (s : State) (r : Run) (g : Stage) :
    (s.toStage r g).inputs = s.inputs := rfl
@[simp] theorem State.toStage_reads (s : State) (r : Run) (g : Stage) :
    (s.toStage r g).reads = s.reads := rfl
@[simp] theorem State.toStage_sinkOut (s : State) (r : Run) (g : Stage) :
    (s.toStage r g).sinkOut = s.sinkOut := rfl
@[simp] theorem State.toStage_draws (s : State) (r : Run) (g : Stage) :
    (s.toStage r g).draws = s.draws := rfl

/-! ### commitTelegram -/

@[simp] theorem State.commitTelegram_cfg (s : State) (out : List Byte) :
    (s.commitTelegram out).cfg = s.cfg := rfl
@[simp] theorem State.commitTelegram_addr (s : State) (out : List Byte) :
    (s.commitTelegram out).addr = s.addr := rfl
@[simp] theorem State.commitTelegram_csum (s : State) (out : List Byte) :
    (s.commitTelegram out).csum = s.csum := rfl
@[simp] theorem State.commitTelegram_ilen (s : State) (out : List Byte) :
    (s.commitTelegram out).ilen = s.ilen := rfl
@[simp] theorem State.commitTelegram_l1len (s : State) (out : List Byte) :
    (s.commitTelegram out).l1len = s.l1len := rfl
@[simp] theorem State.commitTelegram_tlen (s : State) (out : List Byte) :
    (s.commitTelegram out).tlen = BitVec.ofNat 16 out.length := rfl
@[simp] theorem State.commitTelegram_aencN (s : State) (out : List Byte) :
    (s.commitTelegram out).aencN = s.aencN := rfl
@[simp] theorem State.commitTelegram_aencC0 (s : State) (out : List Byte) :
    (s.commitTelegram out).aencC0 = s.aencC0 := rfl
@[simp] theorem State.commitTelegram_aencC1 (s : State) (out : List Byte) :
    (s.commitTelegram out).aencC1 = s.aencC1 := rfl
@[simp] theorem State.commitTelegram_done (s : State) (out : List Byte) :
    (s.commitTelegram out).done = s.done := rfl
@[simp] theorem State.commitTelegram_err (s : State) (out : List Byte) :
    (s.commitTelegram out).err = s.err := rfl
@[simp] theorem State.commitTelegram_fmtd (s : State) (out : List Byte) :
    (s.commitTelegram out).fmtd = true := rfl
@[simp] theorem State.commitTelegram_normd (s : State) (out : List Byte) :
    (s.commitTelegram out).normd = false := rfl
@[simp] theorem State.commitTelegram_sealed (s : State) (out : List Byte) :
    (s.commitTelegram out).sealed = false := rfl
@[simp] theorem State.commitTelegram_errcode (s : State) (out : List Byte) :
    (s.commitTelegram out).errcode = s.errcode := rfl
@[simp] theorem State.commitTelegram_doneIe (s : State) (out : List Byte) :
    (s.commitTelegram out).doneIe = s.doneIe := rfl
@[simp] theorem State.commitTelegram_errIe (s : State) (out : List Byte) :
    (s.commitTelegram out).errIe = s.errIe := rfl
@[simp] theorem State.commitTelegram_ibuf (s : State) (out : List Byte) :
    (s.commitTelegram out).ibuf = s.ibuf := rfl
@[simp] theorem State.commitTelegram_tbuf (s : State) (out : List Byte) :
    (s.commitTelegram out).tbuf = s.tbuf.writeBytes 0 out := rfl
@[simp] theorem State.commitTelegram_run (s : State) (out : List Byte) :
    (s.commitTelegram out).run = s.run := rfl
@[simp] theorem State.commitTelegram_tx (s : State) (out : List Byte) :
    (s.commitTelegram out).tx = s.tx := rfl
@[simp] theorem State.commitTelegram_pins (s : State) (out : List Byte) :
    (s.commitTelegram out).pins = s.pins := rfl
@[simp] theorem State.commitTelegram_inputs (s : State) (out : List Byte) :
    (s.commitTelegram out).inputs = s.inputs := rfl
@[simp] theorem State.commitTelegram_reads (s : State) (out : List Byte) :
    (s.commitTelegram out).reads = s.reads := rfl
@[simp] theorem State.commitTelegram_sinkOut (s : State) (out : List Byte) :
    (s.commitTelegram out).sinkOut = s.sinkOut := rfl
@[simp] theorem State.commitTelegram_draws (s : State) (out : List Byte) :
    (s.commitTelegram out).draws = s.draws := rfl

/-! ### writeStatus -/

@[simp] theorem State.writeStatus_cfg (s : State) (w : Byte) :
    (s.writeStatus w).cfg = s.cfg := rfl
@[simp] theorem State.writeStatus_addr (s : State) (w : Byte) :
    (s.writeStatus w).addr = s.addr := rfl
@[simp] theorem State.writeStatus_csum (s : State) (w : Byte) :
    (s.writeStatus w).csum = s.csum := rfl
@[simp] theorem State.writeStatus_ilen (s : State) (w : Byte) :
    (s.writeStatus w).ilen = s.ilen := rfl
@[simp] theorem State.writeStatus_l1len (s : State) (w : Byte) :
    (s.writeStatus w).l1len = s.l1len := rfl
@[simp] theorem State.writeStatus_tlen (s : State) (w : Byte) :
    (s.writeStatus w).tlen = s.tlen := rfl
@[simp] theorem State.writeStatus_aencN (s : State) (w : Byte) :
    (s.writeStatus w).aencN = s.aencN := rfl
@[simp] theorem State.writeStatus_aencC0 (s : State) (w : Byte) :
    (s.writeStatus w).aencC0 = s.aencC0 := rfl
@[simp] theorem State.writeStatus_aencC1 (s : State) (w : Byte) :
    (s.writeStatus w).aencC1 = s.aencC1 := rfl
@[simp] theorem State.writeStatus_done (s : State) (w : Byte) :
    (s.writeStatus w).done = (s.done && !w.getLsbD 1) := rfl
@[simp] theorem State.writeStatus_err (s : State) (w : Byte) :
    (s.writeStatus w).err = (s.err && !w.getLsbD 2) := rfl
@[simp] theorem State.writeStatus_fmtd (s : State) (w : Byte) :
    (s.writeStatus w).fmtd = s.fmtd := rfl
@[simp] theorem State.writeStatus_normd (s : State) (w : Byte) :
    (s.writeStatus w).normd = s.normd := rfl
@[simp] theorem State.writeStatus_sealed (s : State) (w : Byte) :
    (s.writeStatus w).sealed = s.sealed := rfl
@[simp] theorem State.writeStatus_errcode (s : State) (w : Byte) :
    (s.writeStatus w).errcode = if w.getLsbD 2 then .none else s.errcode := rfl
@[simp] theorem State.writeStatus_doneIe (s : State) (w : Byte) :
    (s.writeStatus w).doneIe = s.doneIe := rfl
@[simp] theorem State.writeStatus_errIe (s : State) (w : Byte) :
    (s.writeStatus w).errIe = s.errIe := rfl
@[simp] theorem State.writeStatus_ibuf (s : State) (w : Byte) :
    (s.writeStatus w).ibuf = s.ibuf := rfl
@[simp] theorem State.writeStatus_tbuf (s : State) (w : Byte) :
    (s.writeStatus w).tbuf = s.tbuf := rfl
@[simp] theorem State.writeStatus_run (s : State) (w : Byte) :
    (s.writeStatus w).run = s.run := rfl
@[simp] theorem State.writeStatus_tx (s : State) (w : Byte) :
    (s.writeStatus w).tx = s.tx := rfl
@[simp] theorem State.writeStatus_pins (s : State) (w : Byte) :
    (s.writeStatus w).pins = s.pins := rfl
@[simp] theorem State.writeStatus_inputs (s : State) (w : Byte) :
    (s.writeStatus w).inputs = s.inputs := rfl
@[simp] theorem State.writeStatus_reads (s : State) (w : Byte) :
    (s.writeStatus w).reads = s.reads := rfl
@[simp] theorem State.writeStatus_sinkOut (s : State) (w : Byte) :
    (s.writeStatus w).sinkOut = s.sinkOut := rfl
@[simp] theorem State.writeStatus_draws (s : State) (w : Byte) :
    (s.writeStatus w).draws = s.draws := rfl

/-! ### writeCtrl -/

@[simp] theorem State.writeCtrl_cfg (s : State) (w : Byte) :
    (s.writeCtrl w).cfg = s.cfg := rfl
@[simp] theorem State.writeCtrl_addr (s : State) (w : Byte) :
    (s.writeCtrl w).addr = s.addr := rfl
@[simp] theorem State.writeCtrl_csum (s : State) (w : Byte) :
    (s.writeCtrl w).csum = s.csum := rfl
@[simp] theorem State.writeCtrl_ilen (s : State) (w : Byte) :
    (s.writeCtrl w).ilen = s.ilen := rfl
@[simp] theorem State.writeCtrl_l1len (s : State) (w : Byte) :
    (s.writeCtrl w).l1len = s.l1len := rfl
@[simp] theorem State.writeCtrl_tlen (s : State) (w : Byte) :
    (s.writeCtrl w).tlen = s.tlen := rfl
@[simp] theorem State.writeCtrl_aencN (s : State) (w : Byte) :
    (s.writeCtrl w).aencN = s.aencN := rfl
@[simp] theorem State.writeCtrl_aencC0 (s : State) (w : Byte) :
    (s.writeCtrl w).aencC0 = s.aencC0 := rfl
@[simp] theorem State.writeCtrl_aencC1 (s : State) (w : Byte) :
    (s.writeCtrl w).aencC1 = s.aencC1 := rfl
@[simp] theorem State.writeCtrl_done (s : State) (w : Byte) :
    (s.writeCtrl w).done = s.done := rfl
@[simp] theorem State.writeCtrl_err (s : State) (w : Byte) :
    (s.writeCtrl w).err = s.err := rfl
@[simp] theorem State.writeCtrl_fmtd (s : State) (w : Byte) :
    (s.writeCtrl w).fmtd = s.fmtd := rfl
@[simp] theorem State.writeCtrl_normd (s : State) (w : Byte) :
    (s.writeCtrl w).normd = s.normd := rfl
@[simp] theorem State.writeCtrl_sealed (s : State) (w : Byte) :
    (s.writeCtrl w).sealed = s.sealed := rfl
@[simp] theorem State.writeCtrl_errcode (s : State) (w : Byte) :
    (s.writeCtrl w).errcode = s.errcode := rfl
@[simp] theorem State.writeCtrl_doneIe (s : State) (w : Byte) :
    (s.writeCtrl w).doneIe = w.getLsbD 0 := rfl
@[simp] theorem State.writeCtrl_errIe (s : State) (w : Byte) :
    (s.writeCtrl w).errIe = w.getLsbD 1 := rfl
@[simp] theorem State.writeCtrl_ibuf (s : State) (w : Byte) :
    (s.writeCtrl w).ibuf = s.ibuf := rfl
@[simp] theorem State.writeCtrl_tbuf (s : State) (w : Byte) :
    (s.writeCtrl w).tbuf = s.tbuf := rfl
@[simp] theorem State.writeCtrl_run (s : State) (w : Byte) :
    (s.writeCtrl w).run = s.run := rfl
@[simp] theorem State.writeCtrl_tx (s : State) (w : Byte) :
    (s.writeCtrl w).tx = s.tx := rfl
@[simp] theorem State.writeCtrl_pins (s : State) (w : Byte) :
    (s.writeCtrl w).pins = s.pins := rfl
@[simp] theorem State.writeCtrl_inputs (s : State) (w : Byte) :
    (s.writeCtrl w).inputs = s.inputs := rfl
@[simp] theorem State.writeCtrl_reads (s : State) (w : Byte) :
    (s.writeCtrl w).reads = s.reads := rfl
@[simp] theorem State.writeCtrl_sinkOut (s : State) (w : Byte) :
    (s.writeCtrl w).sinkOut = s.sinkOut := rfl
@[simp] theorem State.writeCtrl_draws (s : State) (w : Byte) :
    (s.writeCtrl w).draws = s.draws := rfl

/-! ### logRead -/

@[simp] theorem State.logRead_cfg (s : State) (a : Addr) (v : Byte) (k : Nat) :
    (s.logRead a v k).cfg = s.cfg := rfl
@[simp] theorem State.logRead_addr (s : State) (a : Addr) (v : Byte) (k : Nat) :
    (s.logRead a v k).addr = s.addr := rfl
@[simp] theorem State.logRead_csum (s : State) (a : Addr) (v : Byte) (k : Nat) :
    (s.logRead a v k).csum = s.csum := rfl
@[simp] theorem State.logRead_ilen (s : State) (a : Addr) (v : Byte) (k : Nat) :
    (s.logRead a v k).ilen = s.ilen := rfl
@[simp] theorem State.logRead_l1len (s : State) (a : Addr) (v : Byte) (k : Nat) :
    (s.logRead a v k).l1len = s.l1len := rfl
@[simp] theorem State.logRead_tlen (s : State) (a : Addr) (v : Byte) (k : Nat) :
    (s.logRead a v k).tlen = s.tlen := rfl
@[simp] theorem State.logRead_aencN (s : State) (a : Addr) (v : Byte) (k : Nat) :
    (s.logRead a v k).aencN = s.aencN := rfl
@[simp] theorem State.logRead_aencC0 (s : State) (a : Addr) (v : Byte) (k : Nat) :
    (s.logRead a v k).aencC0 = s.aencC0 := rfl
@[simp] theorem State.logRead_aencC1 (s : State) (a : Addr) (v : Byte) (k : Nat) :
    (s.logRead a v k).aencC1 = s.aencC1 := rfl
@[simp] theorem State.logRead_done (s : State) (a : Addr) (v : Byte) (k : Nat) :
    (s.logRead a v k).done = s.done := rfl
@[simp] theorem State.logRead_err (s : State) (a : Addr) (v : Byte) (k : Nat) :
    (s.logRead a v k).err = s.err := rfl
@[simp] theorem State.logRead_fmtd (s : State) (a : Addr) (v : Byte) (k : Nat) :
    (s.logRead a v k).fmtd = s.fmtd := rfl
@[simp] theorem State.logRead_normd (s : State) (a : Addr) (v : Byte) (k : Nat) :
    (s.logRead a v k).normd = s.normd := rfl
@[simp] theorem State.logRead_sealed (s : State) (a : Addr) (v : Byte) (k : Nat) :
    (s.logRead a v k).sealed = s.sealed := rfl
@[simp] theorem State.logRead_errcode (s : State) (a : Addr) (v : Byte) (k : Nat) :
    (s.logRead a v k).errcode = s.errcode := rfl
@[simp] theorem State.logRead_doneIe (s : State) (a : Addr) (v : Byte) (k : Nat) :
    (s.logRead a v k).doneIe = s.doneIe := rfl
@[simp] theorem State.logRead_errIe (s : State) (a : Addr) (v : Byte) (k : Nat) :
    (s.logRead a v k).errIe = s.errIe := rfl
@[simp] theorem State.logRead_ibuf (s : State) (a : Addr) (v : Byte) (k : Nat) :
    (s.logRead a v k).ibuf = s.ibuf := rfl
@[simp] theorem State.logRead_tbuf (s : State) (a : Addr) (v : Byte) (k : Nat) :
    (s.logRead a v k).tbuf = s.tbuf := rfl
@[simp] theorem State.logRead_run (s : State) (a : Addr) (v : Byte) (k : Nat) :
    (s.logRead a v k).run = s.run := rfl
@[simp] theorem State.logRead_tx (s : State) (a : Addr) (v : Byte) (k : Nat) :
    (s.logRead a v k).tx = s.tx := rfl
@[simp] theorem State.logRead_pins (s : State) (a : Addr) (v : Byte) (k : Nat) :
    (s.logRead a v k).pins = s.pins := rfl
@[simp] theorem State.logRead_inputs (s : State) (a : Addr) (v : Byte) (k : Nat) :
    (s.logRead a v k).inputs = s.inputs := rfl
@[simp] theorem State.logRead_reads (s : State) (a : Addr) (v : Byte) (k : Nat) :
    (s.logRead a v k).reads = s.reads ++ [(a, v)] := rfl
@[simp] theorem State.logRead_sinkOut (s : State) (a : Addr) (v : Byte) (k : Nat) :
    (s.logRead a v k).sinkOut = s.sinkOut := rfl
@[simp] theorem State.logRead_draws (s : State) (a : Addr) (v : Byte) (k : Nat) :
    (s.logRead a v k).draws = s.draws + k := rfl

/-! ### placeCommand -/

@[simp] theorem State.placeCommand_cfg (s : State) (c : Byte) :
    (s.placeCommand c).cfg = s.cfg := rfl
@[simp] theorem State.placeCommand_addr (s : State) (c : Byte) :
    (s.placeCommand c).addr = s.addr := rfl
@[simp] theorem State.placeCommand_csum (s : State) (c : Byte) :
    (s.placeCommand c).csum = s.csum := rfl
@[simp] theorem State.placeCommand_ilen (s : State) (c : Byte) :
    (s.placeCommand c).ilen = s.ilen := rfl
@[simp] theorem State.placeCommand_l1len (s : State) (c : Byte) :
    (s.placeCommand c).l1len = s.l1len := rfl
@[simp] theorem State.placeCommand_tlen (s : State) (c : Byte) :
    (s.placeCommand c).tlen = s.tlen := rfl
@[simp] theorem State.placeCommand_aencN (s : State) (c : Byte) :
    (s.placeCommand c).aencN = s.aencN := rfl
@[simp] theorem State.placeCommand_aencC0 (s : State) (c : Byte) :
    (s.placeCommand c).aencC0 = s.aencC0 := rfl
@[simp] theorem State.placeCommand_aencC1 (s : State) (c : Byte) :
    (s.placeCommand c).aencC1 = s.aencC1 := rfl
@[simp] theorem State.placeCommand_done (s : State) (c : Byte) :
    (s.placeCommand c).done = s.done := rfl
@[simp] theorem State.placeCommand_err (s : State) (c : Byte) :
    (s.placeCommand c).err = s.err := rfl
@[simp] theorem State.placeCommand_fmtd (s : State) (c : Byte) :
    (s.placeCommand c).fmtd = s.fmtd := rfl
@[simp] theorem State.placeCommand_normd (s : State) (c : Byte) :
    (s.placeCommand c).normd = s.normd := rfl
@[simp] theorem State.placeCommand_sealed (s : State) (c : Byte) :
    (s.placeCommand c).sealed = s.sealed := rfl
@[simp] theorem State.placeCommand_errcode (s : State) (c : Byte) :
    (s.placeCommand c).errcode = s.errcode := rfl
@[simp] theorem State.placeCommand_doneIe (s : State) (c : Byte) :
    (s.placeCommand c).doneIe = s.doneIe := rfl
@[simp] theorem State.placeCommand_errIe (s : State) (c : Byte) :
    (s.placeCommand c).errIe = s.errIe := rfl
@[simp] theorem State.placeCommand_ibuf (s : State) (c : Byte) :
    (s.placeCommand c).ibuf = s.ibuf := rfl
@[simp] theorem State.placeCommand_tbuf (s : State) (c : Byte) :
    (s.placeCommand c).tbuf = s.tbuf := rfl
@[simp] theorem State.placeCommand_run (s : State) (c : Byte) :
    (s.placeCommand c).run = s.run := rfl
@[simp] theorem State.placeCommand_tx (s : State) (c : Byte) :
    (s.placeCommand c).tx = s.tx := rfl
@[simp] theorem State.placeCommand_pins (s : State) (c : Byte) :
    (s.placeCommand c).pins = s.pins := rfl
@[simp] theorem State.placeCommand_inputs (s : State) (c : Byte) :
    (s.placeCommand c).inputs = Pins.write cmdOffset c :: s.inputs := rfl
@[simp] theorem State.placeCommand_reads (s : State) (c : Byte) :
    (s.placeCommand c).reads = s.reads := rfl
@[simp] theorem State.placeCommand_sinkOut (s : State) (c : Byte) :
    (s.placeCommand c).sinkOut = s.sinkOut := rfl
@[simp] theorem State.placeCommand_draws (s : State) (c : Byte) :
    (s.placeCommand c).draws = s.draws := rfl

/-! ### resetBlock -/

@[simp] theorem State.resetBlock_cfg (s : State) :
    s.resetBlock.cfg = s.cfg := rfl
@[simp] theorem State.resetBlock_addr (s : State) :
    s.resetBlock.addr = State.reset.addr := rfl
@[simp] theorem State.resetBlock_csum (s : State) :
    s.resetBlock.csum = State.reset.csum := rfl
@[simp] theorem State.resetBlock_ilen (s : State) :
    s.resetBlock.ilen = State.reset.ilen := rfl
@[simp] theorem State.resetBlock_l1len (s : State) :
    s.resetBlock.l1len = State.reset.l1len := rfl
@[simp] theorem State.resetBlock_tlen (s : State) :
    s.resetBlock.tlen = State.reset.tlen := rfl
@[simp] theorem State.resetBlock_aencN (s : State) :
    s.resetBlock.aencN = State.reset.aencN := rfl
@[simp] theorem State.resetBlock_aencC0 (s : State) :
    s.resetBlock.aencC0 = State.reset.aencC0 := rfl
@[simp] theorem State.resetBlock_aencC1 (s : State) :
    s.resetBlock.aencC1 = State.reset.aencC1 := rfl
@[simp] theorem State.resetBlock_done (s : State) :
    s.resetBlock.done = State.reset.done := rfl
@[simp] theorem State.resetBlock_err (s : State) :
    s.resetBlock.err = State.reset.err := rfl
@[simp] theorem State.resetBlock_fmtd (s : State) :
    s.resetBlock.fmtd = State.reset.fmtd := rfl
@[simp] theorem State.resetBlock_normd (s : State) :
    s.resetBlock.normd = State.reset.normd := rfl
@[simp] theorem State.resetBlock_sealed (s : State) :
    s.resetBlock.sealed = State.reset.sealed := rfl
@[simp] theorem State.resetBlock_errcode (s : State) :
    s.resetBlock.errcode = State.reset.errcode := rfl
@[simp] theorem State.resetBlock_doneIe (s : State) :
    s.resetBlock.doneIe = State.reset.doneIe := rfl
@[simp] theorem State.resetBlock_errIe (s : State) :
    s.resetBlock.errIe = State.reset.errIe := rfl
@[simp] theorem State.resetBlock_ibuf (s : State) :
    s.resetBlock.ibuf = State.reset.ibuf := rfl
@[simp] theorem State.resetBlock_tbuf (s : State) :
    s.resetBlock.tbuf = State.reset.tbuf := rfl
@[simp] theorem State.resetBlock_run (s : State) :
    s.resetBlock.run = State.reset.run := rfl
@[simp] theorem State.resetBlock_tx (s : State) :
    s.resetBlock.tx = State.reset.tx := rfl
@[simp] theorem State.resetBlock_pins (s : State) :
    s.resetBlock.pins = s.pins := rfl
@[simp] theorem State.resetBlock_inputs (s : State) :
    s.resetBlock.inputs = s.inputs := rfl
@[simp] theorem State.resetBlock_reads (s : State) :
    s.resetBlock.reads = s.reads := rfl
@[simp] theorem State.resetBlock_sinkOut (s : State) :
    s.resetBlock.sinkOut = s.sinkOut := rfl
@[simp] theorem State.resetBlock_draws (s : State) :
    s.resetBlock.draws = s.draws := rfl

/-! ### sampleInputs -/

@[simp] theorem sampleInputs_cfg (s : State) :
    (sampleInputs s).cfg = s.cfg := rfl
@[simp] theorem sampleInputs_addr (s : State) :
    (sampleInputs s).addr = s.addr := rfl
@[simp] theorem sampleInputs_csum (s : State) :
    (sampleInputs s).csum = s.csum := rfl
@[simp] theorem sampleInputs_ilen (s : State) :
    (sampleInputs s).ilen = s.ilen := rfl
@[simp] theorem sampleInputs_l1len (s : State) :
    (sampleInputs s).l1len = s.l1len := rfl
@[simp] theorem sampleInputs_tlen (s : State) :
    (sampleInputs s).tlen = s.tlen := rfl
@[simp] theorem sampleInputs_aencN (s : State) :
    (sampleInputs s).aencN = s.aencN := rfl
@[simp] theorem sampleInputs_aencC0 (s : State) :
    (sampleInputs s).aencC0 = s.aencC0 := rfl
@[simp] theorem sampleInputs_aencC1 (s : State) :
    (sampleInputs s).aencC1 = s.aencC1 := rfl
@[simp] theorem sampleInputs_done (s : State) :
    (sampleInputs s).done = s.done := rfl
@[simp] theorem sampleInputs_err (s : State) :
    (sampleInputs s).err = s.err := rfl
@[simp] theorem sampleInputs_fmtd (s : State) :
    (sampleInputs s).fmtd = s.fmtd := rfl
@[simp] theorem sampleInputs_normd (s : State) :
    (sampleInputs s).normd = s.normd := rfl
@[simp] theorem sampleInputs_sealed (s : State) :
    (sampleInputs s).sealed = s.sealed := rfl
@[simp] theorem sampleInputs_errcode (s : State) :
    (sampleInputs s).errcode = s.errcode := rfl
@[simp] theorem sampleInputs_doneIe (s : State) :
    (sampleInputs s).doneIe = s.doneIe := rfl
@[simp] theorem sampleInputs_errIe (s : State) :
    (sampleInputs s).errIe = s.errIe := rfl
@[simp] theorem sampleInputs_ibuf (s : State) :
    (sampleInputs s).ibuf = s.ibuf := rfl
@[simp] theorem sampleInputs_tbuf (s : State) :
    (sampleInputs s).tbuf = s.tbuf := rfl
@[simp] theorem sampleInputs_run (s : State) :
    (sampleInputs s).run = s.run := rfl
@[simp] theorem sampleInputs_tx (s : State) :
    (sampleInputs s).tx = s.tx := rfl
@[simp] theorem sampleInputs_pins (s : State) :
    (sampleInputs s).pins = s.inputs.headD Pins.quiet := rfl
@[simp] theorem sampleInputs_inputs (s : State) :
    (sampleInputs s).inputs = s.inputs.tail := rfl
@[simp] theorem sampleInputs_reads (s : State) :
    (sampleInputs s).reads = s.reads := rfl
@[simp] theorem sampleInputs_sinkOut (s : State) :
    (sampleInputs s).sinkOut = s.sinkOut := rfl
@[simp] theorem sampleInputs_draws (s : State) :
    (sampleInputs s).draws = s.draws := rfl

end Sys2Proof.Machine
end

