-- ==== Sys2Proof/Laws/Engine.lean ====
section
/-! SUPPORT. What the shared operations of the engine can do, said once: the end of a stage, each stage, one engine step, and the
issue of a command. -/

namespace Sys2Proof.Machine

/-! ### BUSY and chaining -/

theorem State.busy_eq_false {s : State} : s.busy = false ↔ s.run = none := by
  simp [State.busy]

theorem State.busy_eq_true {s : State} : s.busy = true ↔ ∃ r, s.run = some r := by
  simp [State.busy, Option.isSome_iff_exists]

@[simp] theorem andThen_next (s : State) (f : State → Result) : andThen (.next s) f = f s := rfl
@[simp] theorem andThen_fault (e : Fault) (f : State → Result) : andThen (.fault e) f = .fault e := rfl
@[simp] theorem andThen_refused (e : Refusal) (f : State → Result) : andThen (.refused e) f = .refused e := rfl

/-- A chain answers a next state exactly when both its parts do. -/
theorem andThen_eq_next {o : Result} {f : State → Result} {t : State} :
    andThen o f = .next t ↔ ∃ u, o = .next u ∧ f u = .next t := by
  cases o <;> simp [andThen]

/-! ### The end of a stage -/

theorem State.advance_send {r : Run} (h : isSend r.cur = true) (s : State) (g : Stage) :
    s.advance r g = s.toStage r g := by simp [State.advance, h]

theorem State.advance_single {r : Run} (h : isSend r.cur = false) (s : State) (g : Stage) :
    s.advance r g = s.complete := by simp [State.advance, h]

@[simp] theorem State.advance_cfg (s : State) (r : Run) (g : Stage) :
    (s.advance r g).cfg = s.cfg := by unfold State.advance; split <;> rfl
@[simp] theorem State.advance_addr (s : State) (r : Run) (g : Stage) :
    (s.advance r g).addr = s.addr := by unfold State.advance; split <;> rfl
@[simp] theorem State.advance_csum (s : State) (r : Run) (g : Stage) :
    (s.advance r g).csum = s.csum := by unfold State.advance; split <;> rfl
@[simp] theorem State.advance_ilen (s : State) (r : Run) (g : Stage) :
    (s.advance r g).ilen = s.ilen := by unfold State.advance; split <;> rfl
@[simp] theorem State.advance_l1len (s : State) (r : Run) (g : Stage) :
    (s.advance r g).l1len = s.l1len := by unfold State.advance; split <;> rfl
@[simp] theorem State.advance_tlen (s : State) (r : Run) (g : Stage) :
    (s.advance r g).tlen = s.tlen := by unfold State.advance; split <;> rfl
@[simp] theorem State.advance_aencN (s : State) (r : Run) (g : Stage) :
    (s.advance r g).aencN = s.aencN := by unfold State.advance; split <;> rfl
@[simp] theorem State.advance_aencC0 (s : State) (r : Run) (g : Stage) :
    (s.advance r g).aencC0 = s.aencC0 := by unfold State.advance; split <;> rfl
@[simp] theorem State.advance_aencC1 (s : State) (r : Run) (g : Stage) :
    (s.advance r g).aencC1 = s.aencC1 := by unfold State.advance; split <;> rfl
@[simp] theorem State.advance_err (s : State) (r : Run) (g : Stage) :
    (s.advance r g).err = s.err := by unfold State.advance; split <;> rfl
@[simp] theorem State.advance_fmtd (s : State) (r : Run) (g : Stage) :
    (s.advance r g).fmtd = s.fmtd := by unfold State.advance; split <;> rfl
@[simp] theorem State.advance_normd (s : State) (r : Run) (g : Stage) :
    (s.advance r g).normd = s.normd := by unfold State.advance; split <;> rfl
@[simp] theorem State.advance_sealed (s : State) (r : Run) (g : Stage) :
    (s.advance r g).sealed = s.sealed := by unfold State.advance; split <;> rfl
@[simp] theorem State.advance_errcode (s : State) (r : Run) (g : Stage) :
    (s.advance r g).errcode = s.errcode := by unfold State.advance; split <;> rfl
@[simp] theorem State.advance_doneIe (s : State) (r : Run) (g : Stage) :
    (s.advance r g).doneIe = s.doneIe := by unfold State.advance; split <;> rfl
@[simp] theorem State.advance_errIe (s : State) (r : Run) (g : Stage) :
    (s.advance r g).errIe = s.errIe := by unfold State.advance; split <;> rfl
@[simp] theorem State.advance_ibuf (s : State) (r : Run) (g : Stage) :
    (s.advance r g).ibuf = s.ibuf := by unfold State.advance; split <;> rfl
@[simp] theorem State.advance_tbuf (s : State) (r : Run) (g : Stage) :
    (s.advance r g).tbuf = s.tbuf := by unfold State.advance; split <;> rfl
@[simp] theorem State.advance_pins (s : State) (r : Run) (g : Stage) :
    (s.advance r g).pins = s.pins := by unfold State.advance; split <;> rfl
@[simp] theorem State.advance_inputs (s : State) (r : Run) (g : Stage) :
    (s.advance r g).inputs = s.inputs := by unfold State.advance; split <;> rfl
@[simp] theorem State.advance_reads (s : State) (r : Run) (g : Stage) :
    (s.advance r g).reads = s.reads := by unfold State.advance; split <;> rfl
@[simp] theorem State.advance_sinkOut (s : State) (r : Run) (g : Stage) :
    (s.advance r g).sinkOut = s.sinkOut := by unfold State.advance; split <;> rfl
@[simp] theorem State.advance_draws (s : State) (r : Run) (g : Stage) :
    (s.advance r g).draws = s.draws := by unfold State.advance; split <;> rfl

theorem State.advance_tx {s : State} (h : s.tx = none) (r : Run) (g : Stage) : (s.advance r g).tx = none := by
  unfold State.advance; split <;> simp [h]

/-! ### One engine step -/

/-- The engine never writes the operand registers but TLEN, nor CTRL, IBUF, the parameters, or what stands for the host
(20_memory.md R92). -/
structure EngineKeeps (s t : State) : Prop where
  cfg : t.cfg = s.cfg
  addr : t.addr = s.addr
  ilen : t.ilen = s.ilen
  l1len : t.l1len = s.l1len
  doneIe : t.doneIe = s.doneIe
  errIe : t.errIe = s.errIe
  ibuf : t.ibuf = s.ibuf
  pins : t.pins = s.pins
  inputs : t.inputs = s.inputs
  reads : t.reads = s.reads
  draws : t.draws = s.draws

theorem EngineKeeps.refl (s : State) : EngineKeeps s s := ⟨rfl, rfl, rfl, rfl, rfl, rfl, rfl, rfl, rfl, rfl, rfl⟩

theorem EngineKeeps.trans {s t u : State} (h : EngineKeeps s t) (h' : EngineKeeps t u) : EngineKeeps s u :=
  ⟨h'.cfg.trans h.cfg, h'.addr.trans h.addr, h'.ilen.trans h.ilen, h'.l1len.trans h.l1len,
    h'.doneIe.trans h.doneIe, h'.errIe.trans h.errIe, h'.ibuf.trans h.ibuf, h'.pins.trans h.pins,
    h'.inputs.trans h.inputs, h'.reads.trans h.reads, h'.draws.trans h.draws⟩

/-- The telegram a FMT stage of `r` writes, if its input is written. -/
def Run.formatted (r : Run) (k : TelegramKind) (s : State) : Option (List Byte) :=
  match k with
  | .za => (inputText r s).map telegramZa
  | .zi => (inputText r s).map telegramZi
  | .v => (inputText r s).map telegramV
  | .aa =>
    match inputLine1 r s, inputLine2 r s with
    | some p, some q => some (telegramAa r.snap.addr p q)
    | _, _ => none

/-- What one engine step that goes on can do, stage by stage. -/
inductive EngineMove (s : State) : State → Prop where
  /-- SEQ = IDLE: no step (R241). -/
  | idle (h : s.run = none) : EngineMove s s
  | nop (r : Run) (h : s.run = some r) (hg : r.stage = .nop) : EngineMove s s.complete
  | clear (r : Run) (h : s.run = some r) (hg : r.stage = .clear) :
      EngineMove s ({ s with tlen := 0, fmtd := false, normd := false, sealed := false } : State).complete
  | addrenc (r : Run) (h : s.run = some r) (hg : r.stage = .addrenc) :
      EngineMove s
        ({ s with
            aencN := BitVec.ofNat 8 (enc r.snap.addr).length
            aencC0 := (enc r.snap.addr).getD 0 0x00
            aencC1 := (enc r.snap.addr).getD 1 0x00 } : State).complete
  | fmt (r : Run) (k : TelegramKind) (out : List Byte) (h : s.run = some r) (hg : r.stage = .fmt k)
      (ho : r.formatted k s = some out) : EngineMove s ((s.commitTelegram out).advance r .norm)
  | norm (r : Run) (t : List Byte) (h : s.run = some r) (hg : r.stage = .norm)
      (ht : s.tbuf.readBytes 0 (workLength r s) = some t) :
      EngineMove s
        (({ s with
            tbuf := s.tbuf.writeBytes 0 (norm s.cfg.substEnc t)
            tlen := BitVec.ofNat 16 (norm s.cfg.substEnc t).length
            normd := true } : State).advance r .sealSum)
  | sealSum (r : Run) (t : List Byte) (h : s.run = some r) (hg : r.stage = .sealSum)
      (ht : s.tbuf.readBytes 0 (workLength r s) = some t) :
      EngineMove s
        (({ s with
            tbuf := (s.tbuf.write (workLength r s) Config.cr).write (workLength r s + 1) Config.placeholder } :
              State).toStage r (.sealTail (chk (t ++ [Config.cr]))))
  | sealTail (r : Run) (acc : Byte) (h : s.run = some r) (hg : r.stage = .sealTail acc) :
      EngineMove s
        (({ s with
            tbuf := s.tbuf.write (workLength r s + 1) acc
            tlen := BitVec.ofNat 16 (workLength r s + 2)
            csum := acc
            sealed := true } : State).advance r (.xmit 0))
  | txFail (r : Run) (x : Nat) (b : Byte) (h : s.run = some r) (hg : r.stage = .xmit x) (hb : s.tx = some b)
      (hf : s.pins.txFail = true) : EngineMove s (s.recordError .txfail).complete
  | txAccept (r : Run) (x : Nat) (b : Byte) (h : s.run = some r) (hg : r.stage = .xmit x) (hb : s.tx = some b)
      (hf : s.pins.txFail = false) (hr : s.pins.txReady = true) :
      EngineMove s (({ s with tx := none, sinkOut := s.sinkOut ++ [b] } : State).toStage r (.xmit (x + 1)))
  | txPending (r : Run) (x : Nat) (b : Byte) (h : s.run = some r) (hg : r.stage = .xmit x) (hb : s.tx = some b)
      (hf : s.pins.txFail = false) (hr : s.pins.txReady = false) : EngineMove s s
  | txOffer (r : Run) (x : Nat) (b : Byte) (h : s.run = some r) (hg : r.stage = .xmit x) (hn : s.tx = none)
      (hx : x < workLength r s) (hb : s.tbuf.read x = some b) : EngineMove s { s with tx := some b }
  | txDone (r : Run) (x : Nat) (h : s.run = some r) (hg : r.stage = .xmit x) (hn : s.tx = none)
      (hx : workLength r s ≤ x) : EngineMove s s.complete

/-- A FMT stage, for any telegram type. -/
theorem fmtStage_eq (k : TelegramKind) {s : State} {r : Run} (h : s.run = some r) (hg : r.stage = .fmt k) :
    engineStep s =
      match r.formatted k s with
      | some out => .next ((s.commitTelegram out).advance r .norm)
      | none => .fault .unwrittenIbuf := by
  simp only [engineStep, h, hg]
  cases k
  · cases h1 : inputText r s <;> simp [fmtZaStage, Run.formatted, h1]
  · cases h1 : inputText r s <;> simp [fmtZiStage, Run.formatted, h1]
  · cases h1 : inputText r s <;> simp [fmtVStage, Run.formatted, h1]
  · cases h1 : inputLine1 r s <;> cases h2 : inputLine2 r s <;> simp [fmtAaStage, Run.formatted, h1, h2]

/-- The SEAL stage up to the placeholder. -/
theorem sealStage_eq {s : State} {r : Run} (h : s.run = some r) (hg : r.stage = .sealSum) :
    engineStep s =
      match s.tbuf.readBytes 0 (workLength r s) with
      | some t =>
        .next
          (({ s with
              tbuf := (s.tbuf.write (workLength r s) Config.cr).write (workLength r s + 1) Config.placeholder } :
                State).toStage r (.sealTail (chk (t ++ [Config.cr]))))
      | none => .fault .unwrittenTbuf := by
  simp only [engineStep, h, hg, sealStage, Memory.readBytes_write_end]
  cases s.tbuf.readBytes 0 (workLength r s) <;> rfl

/-- INVERSION: every engine step that goes on is one of the moves. -/
theorem engineStep_cases {s t : State} (h : engineStep s = .next t) : EngineMove s t := by
  cases hr : s.run with
  | none => simp only [engineStep, hr] at h; cases h; exact .idle hr
  | some r =>
    cases hg : r.stage with
    | nop => simp only [engineStep, hr, hg, nopStage] at h; cases h; exact .nop r hr hg
    | clear => simp only [engineStep, hr, hg, clearStage] at h; cases h; exact .clear r hr hg
    | addrenc => simp only [engineStep, hr, hg, addrencStage] at h; cases h; exact .addrenc r hr hg
    | fmt k =>
      rw [fmtStage_eq k hr hg] at h
      split at h
      · next out ho => cases h; exact .fmt r k out hr hg ho
      · cases h
    | norm =>
      simp only [engineStep, hr, hg, normStage] at h
      split at h
      · next u hu => cases h; exact .norm r u hr hg hu
      · cases h
    | sealSum =>
      rw [sealStage_eq hr hg] at h
      split at h
      · next u hu => cases h; exact .sealSum r u hr hg hu
      · cases h
    | sealTail acc => simp only [engineStep, hr, hg, sealTailStage] at h; cases h; exact .sealTail r acc hr hg
    | xmit x =>
      have e : engineStep s = xmitStage x r s := by simp only [engineStep, hr, hg]
      rw [e] at h
      simp only [xmitStage] at h
      split at h
      · next b hb =>
        split at h
        · next hf => cases h; exact .txFail r x b hr hg hb hf
        · next hf =>
          split at h
          · next hy => cases h; exact .txAccept r x b hr hg hb (by simpa using hf) hy
          · next hy => cases h; exact .txPending r x b hr hg hb (by simpa using hf) (by simpa using hy)
      · next hn =>
        split at h
        · next hx =>
          split at h
          · next b hb => cases h; exact .txOffer r x b hr hg hn hx hb
          · cases h
        · next hx => cases h; exact .txDone r x hr hg hn (by omega)

theorem EngineMove.keeps {s t : State} (h : EngineMove s t) : EngineKeeps s t := by
  cases h <;> constructor <;> simp

theorem engineStep_keeps {s t : State} (h : engineStep s = .next t) : EngineKeeps s t := (engineStep_cases h).keeps

/-- An idle engine stays as it is through any number of its steps. -/
theorem engineRun_idle {s : State} (h : s.run = none) (n : Nat) : engineRun n s = .next s := by
  induction n with
  | zero => rfl
  | succ n ih => simp [engineRun, engineStep, h, ih]

/-- A property that every engine step keeps is kept by any number of them. -/
theorem engineRun_induction {P : State → Prop} (hstep : ∀ s t, P s → EngineMove s t → P t) {n : Nat} {s t : State}
    (hs : P s) (h : engineRun n s = .next t) : P t := by
  induction n generalizing s with
  | zero => cases h; exact hs
  | succ n ih =>
    obtain ⟨u, hu, ht⟩ := andThen_eq_next.1 h
    exact ih (hstep s u hs (engineStep_cases hu)) ht

theorem engineRun_keeps {n : Nat} {s t : State} (h : engineRun n s = .next t) : EngineKeeps s t :=
  engineRun_induction (P := EngineKeeps s) (fun _ _ hk hm => hk.trans hm.keeps) (EngineKeeps.refl s) h

theorem engineRun_one (s : State) : engineRun 1 s = engineStep s := by
  simp only [engineRun]; cases engineStep s <;> rfl

theorem engineRun_add (m n : Nat) (s : State) : engineRun (m + n) s = andThen (engineRun m s) (engineRun n) := by
  induction m generalizing s with
  | zero => simp [engineRun]
  | succ m ih =>
    rw [show m + 1 + n = (m + n) + 1 by omega]
    simp only [engineRun]
    cases engineStep s with
    | next u => simp [ih]
    | fault e => rfl
    | refused e => rfl

/-! ### What one stage answers, as an equation -/

theorem workLength_send {r : Run} (h : isSend r.cur = true) (s : State) : workLength r s = s.tlen.toNat := by
  simp [workLength, h]

theorem normStage_eq {s : State} {r : Run} {t : List Byte} (h : s.run = some r) (hg : r.stage = .norm)
    (ht : s.tbuf.readBytes 0 (workLength r s) = some t) :
    engineStep s =
      .next
        (({ s with
            tbuf := s.tbuf.writeBytes 0 (norm s.cfg.substEnc t)
            tlen := BitVec.ofNat 16 (norm s.cfg.substEnc t).length
            normd := true } : State).advance r .sealSum) := by
  have e : engineStep s = normStage r s := by simp only [engineStep, h, hg]
  rw [e, normStage, ht]

theorem sealTailStage_eq {s : State} {r : Run} {acc : Byte} {n : Nat} (h : s.run = some r)
    (hg : r.stage = .sealTail acc) (hn : workLength r s = n) :
    engineStep s =
      .next
        (({ s with
            tbuf := s.tbuf.write (n + 1) acc
            tlen := BitVec.ofNat 16 (n + 2)
            csum := acc
            sealed := true } : State).advance r (.xmit 0)) := by
  have e : engineStep s = sealTailStage acc r s := by simp only [engineStep, h, hg]
  rw [e, sealTailStage, hn]

theorem xmitStage_eq {s : State} {r : Run} {x : Nat} (h : s.run = some r) (hg : r.stage = .xmit x) :
    engineStep s = xmitStage x r s := by simp only [engineStep, h, hg]

theorem engineStep_offer {s : State} {r : Run} {x : Nat} {b : Byte} (h : s.run = some r) (hg : r.stage = .xmit x)
    (htx : s.tx = none) (hx : x < workLength r s) (hb : s.tbuf.read x = some b) :
    engineStep s = .next { s with tx := some b } := by
  rw [xmitStage_eq h hg, xmitStage, htx]; simp [hx, hb]

/-- Both steps of the SEAL stage, over a telegram whose bytes are written. -/
theorem engineRun_seal {s : State} {r : Run} {body : List Byte} (h : s.run = some r) (hg : r.stage = .sealSum)
    (hw : workLength r s = s.tlen.toNat) (ht : s.telegram = some body) :
    engineRun 2 s =
      .next
        (({ s with
            tbuf := (s.tbuf.write s.tlen.toNat Config.cr).write (s.tlen.toNat + 1) (chk (body ++ [Config.cr]))
            tlen := BitVec.ofNat 16 (s.tlen.toNat + 2)
            csum := chk (body ++ [Config.cr])
            sealed := true } : State).advance { r with stage := .sealTail (chk (body ++ [Config.cr])) } (.xmit 0)) := by
  have ht' : s.tbuf.readBytes 0 s.tlen.toNat = some body := ht
  have hl : ∀ u : State, u.tlen = s.tlen →
      workLength { r with stage := .sealTail (chk (body ++ [Config.cr])) } u = s.tlen.toNat := by
    intro u hu
    unfold workLength at hw ⊢
    rw [hu]
    split
    · rfl
    · next hs => rw [if_neg hs] at hw; exact hw
  rw [show (2 : Nat) = 1 + 1 from rfl, engineRun_add, engineRun_one, sealStage_eq h hg, hw, ht']
  dsimp only
  rw [andThen_next, engineRun_one]
  refine Eq.trans (sealTailStage_eq (n := s.tlen.toNat) rfl rfl (hl _ rfl)) ?_
  simp only [State.toStage_tbuf, Memory.write_write]
  unfold State.advance
  split <;> rfl

/-! ### Issue -/

/-- Every command is issued in the same way: its own checks, first stage and number of steps. -/
theorem exec_eq_issue (i : Instr) (s : State) :
    exec i s = issue i (firstStage i) (commandChecks i) (immediateSteps i) s := by cases i <;> rfl

/-- DROP. -/
theorem exec_busy {s : State} (h : s.busy = true) (i : Instr) : exec i s = .next (s.recordError .busy) := by
  simp [exec_eq_issue, issue, h]

/-- REJECT. -/
theorem exec_reject {s : State} {i : Instr} {e : ErrCode} (h : s.busy = false)
    (he : firstError (commandChecks i s) = some e) : exec i s = .next (s.reject e) := by
  simp [exec_eq_issue, issue, h, he]

/-- ACCEPT in a turn that holds the engine back. -/
theorem exec_held {s : State} {i : Instr} (h : s.busy = false) (he : firstError (commandChecks i s) = none)
    (hh : s.pins.hold = true) : exec i s = .next (s.accept i (firstStage i)) := by
  simp [exec_eq_issue, issue, h, he, hh]

/-- ACCEPT, and the engine's steps in the same turn. -/
theorem exec_run {s : State} {i : Instr} (h : s.busy = false) (he : firstError (commandChecks i s) = none)
    (hh : s.pins.hold = false) : exec i s = engineRun (immediateSteps i) (s.accept i (firstStage i)) := by
  simp [exec_eq_issue, issue, h, he, hh]

/-- INVERSION: a command that goes on was dropped, rejected, or accepted and run for some steps. -/
theorem exec_cases {i : Instr} {s t : State} (h : exec i s = .next t) :
    (s.busy = true ∧ t = s.recordError .busy) ∨
    (s.busy = false ∧ ∃ e, firstError (commandChecks i s) = some e ∧ t = s.reject e) ∨
    (s.busy = false ∧ firstError (commandChecks i s) = none ∧
      ∃ n, (n = 0 ∨ n = immediateSteps i) ∧ engineRun n (s.accept i (firstStage i)) = .next t) := by
  cases hb : s.busy with
  | true => rw [exec_busy hb] at h; cases h; exact .inl ⟨rfl, rfl⟩
  | false =>
    cases he : firstError (commandChecks i s) with
    | some e => rw [exec_reject hb he] at h; cases h; exact .inr (.inl ⟨rfl, e, rfl, rfl⟩)
    | none =>
      cases hh : s.pins.hold with
      | true => rw [exec_held hb he hh] at h; exact .inr (.inr ⟨rfl, rfl, 0, .inl rfl, by simpa [engineRun] using h⟩)
      | false => rw [exec_run hb he hh] at h; exact .inr (.inr ⟨rfl, rfl, _, .inr rfl, h⟩)

/-! ### Acceptance checks -/

theorem firstError_eq_none {l : List (Bool × ErrCode)} : firstError l = none ↔ ∀ c ∈ l, c.1 = false := by
  induction l with
  | nil => simp [firstError]
  | cons c l ih =>
    obtain ⟨b, e⟩ := c
    cases b <;> simp [firstError, ih]

end Sys2Proof.Machine
end

