-- ==== Sys2Proof/Laws/Bus.lean ====
section
/-! SUPPORT. What a turn can do, said once: the host read, the host write, the CMD write, reset and the step. -/

namespace Sys2Proof.Machine

/-! ### Reads -/

/-- A host read changes the record of reads and the count of draws, and nothing else (R87). -/
theorem hostRead_eq (s : State) :
    hostRead s = { s with reads := (hostRead s).reads, draws := (hostRead s).draws } := by
  unfold hostRead unspecifiedRead State.logRead
  split
  · rfl
  · split <;> rfl

@[simp] theorem hostRead_cfg (s : State) : (hostRead s).cfg = s.cfg := by rw [hostRead_eq]
@[simp] theorem hostRead_addr (s : State) : (hostRead s).addr = s.addr := by rw [hostRead_eq]
@[simp] theorem hostRead_csum (s : State) : (hostRead s).csum = s.csum := by rw [hostRead_eq]
@[simp] theorem hostRead_ilen (s : State) : (hostRead s).ilen = s.ilen := by rw [hostRead_eq]
@[simp] theorem hostRead_l1len (s : State) : (hostRead s).l1len = s.l1len := by rw [hostRead_eq]
@[simp] theorem hostRead_tlen (s : State) : (hostRead s).tlen = s.tlen := by rw [hostRead_eq]
@[simp] theorem hostRead_aencN (s : State) : (hostRead s).aencN = s.aencN := by rw [hostRead_eq]
@[simp] theorem hostRead_aencC0 (s : State) : (hostRead s).aencC0 = s.aencC0 := by rw [hostRead_eq]
@[simp] theorem hostRead_aencC1 (s : State) : (hostRead s).aencC1 = s.aencC1 := by rw [hostRead_eq]
@[simp] theorem hostRead_done (s : State) : (hostRead s).done = s.done := by rw [hostRead_eq]
@[simp] theorem hostRead_err (s : State) : (hostRead s).err = s.err := by rw [hostRead_eq]
@[simp] theorem hostRead_fmtd (s : State) : (hostRead s).fmtd = s.fmtd := by rw [hostRead_eq]
@[simp] theorem hostRead_normd (s : State) : (hostRead s).normd = s.normd := by rw [hostRead_eq]
@[simp] theorem hostRead_sealed (s : State) : (hostRead s).sealed = s.sealed := by rw [hostRead_eq]
@[simp] theorem hostRead_errcode (s : State) : (hostRead s).errcode = s.errcode := by rw [hostRead_eq]
@[simp] theorem hostRead_doneIe (s : State) : (hostRead s).doneIe = s.doneIe := by rw [hostRead_eq]
@[simp] theorem hostRead_errIe (s : State) : (hostRead s).errIe = s.errIe := by rw [hostRead_eq]
@[simp] theorem hostRead_ibuf (s : State) : (hostRead s).ibuf = s.ibuf := by rw [hostRead_eq]
@[simp] theorem hostRead_tbuf (s : State) : (hostRead s).tbuf = s.tbuf := by rw [hostRead_eq]
@[simp] theorem hostRead_run (s : State) : (hostRead s).run = s.run := by rw [hostRead_eq]
@[simp] theorem hostRead_tx (s : State) : (hostRead s).tx = s.tx := by rw [hostRead_eq]
@[simp] theorem hostRead_pins (s : State) : (hostRead s).pins = s.pins := by rw [hostRead_eq]
@[simp] theorem hostRead_inputs (s : State) : (hostRead s).inputs = s.inputs := by rw [hostRead_eq]
@[simp] theorem hostRead_sinkOut (s : State) : (hostRead s).sinkOut = s.sinkOut := by rw [hostRead_eq]

theorem hostRead_of_not_re {s : State} (h : s.pins.regRe = false) : hostRead s = s := by simp [hostRead, h]

/-! ### Writes -/

/-- A write to a location changes operand registers, the acknowledge bits, CTRL or a buffer; never what follows. -/
structure WriteKeeps (s t : State) : Prop where
  cfg : t.cfg = s.cfg
  csum : t.csum = s.csum
  aencN : t.aencN = s.aencN
  aencC0 : t.aencC0 = s.aencC0
  aencC1 : t.aencC1 = s.aencC1
  fmtd : t.fmtd = s.fmtd
  normd : t.normd = s.normd
  sealed : t.sealed = s.sealed
  run : t.run = s.run
  tx : t.tx = s.tx
  pins : t.pins = s.pins
  inputs : t.inputs = s.inputs
  reads : t.reads = s.reads
  sinkOut : t.sinkOut = s.sinkOut
  draws : t.draws = s.draws

theorem writeLoc_keeps (s : State) (l : Loc) (v : Byte) : WriteKeeps s (writeLoc s l v) := by
  cases l <;> simp only [writeLoc] <;> (try split) <;> constructor <;> simp

/-- What a host write that is no CMD write leaves while BUSY = 1: only the acknowledge bits and CTRL can change (R90). -/
theorem writeLoc_busy {s : State} (h : s.busy = true) (l : Loc) (v : Byte) :
    writeLoc s l v = s ∨ (l = .status ∧ writeLoc s l v = s.writeStatus v) ∨
      (l = .ctrl ∧ writeLoc s l v = s.writeCtrl v) := by
  cases l <;> simp [writeLoc, h]

/-- A frozen telegram is not written (R91). -/
theorem writeLoc_sealed {s : State} (h : s.sealed = true) (l : Loc) (v : Byte) :
    (writeLoc s l v).tbuf = s.tbuf ∧ (writeLoc s l v).tlen = s.tlen := by
  cases l <;> simp only [writeLoc, h] <;> (try split) <;> simp_all

/-! ### The host's part of a turn -/

/-- What the host write of a turn can do. -/
inductive HostMove (s : State) : State → Prop where
  /-- No write. -/
  | none (h : s.pins.regWe = false) : HostMove s s
  /-- A write to a location that is not CMD. -/
  | write (h : s.pins.regWe = true) (hl : locate s.cfg s.pins.regAddr ≠ .cmd) :
      HostMove s (writeLoc s (locate s.cfg s.pins.regAddr) s.pins.regWdata)
  /-- DROP. -/
  | drop (h : s.pins.regWe = true) (hl : locate s.cfg s.pins.regAddr = .cmd) (hb : s.busy = true) :
      HostMove s (s.recordError .busy)
  /-- REJECT. -/
  | reject (e : ErrCode) (h : s.pins.regWe = true) (hl : locate s.cfg s.pins.regAddr = .cmd) (hb : s.busy = false)
      (he : e ≠ .none) : HostMove s (s.reject e)
  /-- ACCEPT, and the engine's steps of the same turn. -/
  | accept (i : Instr) (n : Nat) (t : State) (h : s.pins.regWe = true) (hl : locate s.cfg s.pins.regAddr = .cmd)
      (hb : s.busy = false) (hi : decode s.pins.regWdata = .command i) (hc : firstError (commandChecks i s) = Option.none)
      (hn : n = 0 ∨ n = immediateSteps i) (ht : engineRun n (s.accept i (firstStage i)) = .next t) : HostMove s t

theorem firstError_ne_none {l : List (Bool × ErrCode)} {e : ErrCode} (hl : ∀ c ∈ l, c.2 ≠ .none)
    (h : firstError l = some e) : e ≠ .none := by
  induction l with
  | nil => simp [firstError] at h
  | cons c l ih =>
    obtain ⟨b, e'⟩ := c
    simp only [firstError] at h
    split at h
    · cases h; exact hl (b, e) (by simp)
    · exact ih (fun c hc => hl c (by simp [hc])) h

/-- A rejection records an error, never NONE. -/
theorem commandChecks_ne_none {i : Instr} {s : State} {e : ErrCode} (h : firstError (commandChecks i s) = some e) :
    e ≠ .none := by
  refine firstError_ne_none (fun c hc => ?_) h
  cases i <;>
    simp only [commandChecks, checksZa, checksZi, checksV, checksAa, checksNorm, checksSeal, checksXmit, List.mem_cons,
      List.not_mem_nil, or_false] at hc <;>
    rcases hc with rfl | rfl | rfl | rfl <;>
    simp [checkIlen, checkL1len, checkTlen, checkCount, checkRoom, checkNotFrozen, checkSealed]

theorem hostWrite_cases {s t : State} (h : hostWrite s = .next t) : HostMove s t := by
  cases hw : s.pins.regWe with
  | false => simp only [hostWrite, hw] at h; cases h; exact .none hw
  | true =>
    by_cases hl : locate s.cfg s.pins.regAddr = .cmd
    · simp only [hostWrite, hw, hl] at h
      change writeCmd s s.pins.regWdata = .next t at h
      simp only [writeCmd] at h
      split at h
      · next i hi =>
        rcases exec_cases h with ⟨hb, rfl⟩ | ⟨hb, e, he, rfl⟩ | ⟨hb, hc, n, hn, ht⟩
        · exact .drop hw hl hb
        · exact .reject e hw hl hb (commandChecks_ne_none he)
        · exact .accept i n t hw hl hb hi hc hn ht
      · split at h
        · next hb => cases h; exact .drop hw hl hb
        · next hb => cases h; exact .reject .badcmd hw hl (by simpa using hb) (by simp)
    · have e : hostWrite s = .next (writeLoc s (locate s.cfg s.pins.regAddr) s.pins.regWdata) := by
        simp only [hostWrite, hw]
        split
        · next hc => simp at hc
        · rfl
      rw [e] at h; cases h; exact .write hw hl

/-- What one step that goes on can do. -/
inductive StepMove (s : State) : State → Prop where
  /-- `rst` = 1. -/
  | reset (h : (s.inputs.headD Pins.quiet).rst = true) : StepMove s (resetTurn (sampleInputs s))
  /-- The host's part, and no engine step. -/
  | host (t : State) (h : (s.inputs.headD Pins.quiet).rst = false) (hm : HostMove (hostRead (sampleInputs s)) t) :
      StepMove s t
  /-- The host's part, then a step of the command that was running at the start of the turn. -/
  | engine (u t : State) (h : (s.inputs.headD Pins.quiet).rst = false) (hb : s.busy = true)
      (hm : HostMove (hostRead (sampleInputs s)) u) (he : EngineMove u t) : StepMove s t

@[simp] theorem sampleInputs_busy (s : State) : (sampleInputs s).busy = s.busy := rfl
@[simp] theorem hostRead_busy (s : State) : (hostRead s).busy = s.busy := by simp [State.busy]

theorem step_cases {s t : State} (h : step s = .next t) : StepMove s t := by
  unfold step turn at h
  split at h
  · next hr => cases h; exact .reset hr
  · next hr =>
    obtain ⟨u, hu, ht⟩ := andThen_eq_next.1 h
    have hr' : (s.inputs.headD Pins.quiet).rst = false := by simpa using hr
    have hm := hostWrite_cases hu
    split at ht
    · next hb =>
      unfold engineTurn at ht
      split at ht
      · cases ht; exact .host _ hr' hm
      · exact .engine u t hr' hb hm (engineStep_cases ht)
    · cases ht; exact .host _ hr' hm

theorem sampleInputs_next {s : State} {p : Pins} {rest : List Pins} (h : s.nextTurn p rest) :
    sampleInputs s = s.withTurn p rest := by
  unfold sampleInputs State.withTurn; rw [h]; rfl

theorem headD_next {s : State} {p : Pins} {rest : List Pins} (h : s.nextTurn p rest) :
    s.inputs.headD Pins.quiet = p := by rw [h]; rfl

/-! ### The address map -/

/-- A register is found at its own offset only. -/
theorem locate_register {c : Params} {a : Addr} {l : Loc} {n : Nat} (h : locate c a = l)
    (hn : ∀ k < 17, registerMap.getD k .reserved = l → k = n) (hi : ∀ i, l ≠ .ibuf i) (ht : ∀ i, l ≠ .tbuf i)
    (hr : l ≠ .reserved) : a.toNat = n := by
  unfold locate at h
  split at h
  · by_cases h17 : a.toNat < 17
    · exact hn _ h17 h
    · rw [List.getD_eq_default _ _ (by show 17 ≤ _; omega)] at h
      exact absurd h.symm hr
  · split at h
    · split at h
      · exact absurd h.symm (hi _)
      · exact absurd h.symm hr
    · split at h
      · split at h
        · exact absurd h.symm (ht _)
        · exact absurd h.symm hr
      · exact absurd h.symm hr

/-- The address of CMD, and no other, is located there. -/
theorem locate_eq_cmd {c : Params} {a : Addr} : locate c a = .cmd ↔ a = 0x002 :=
  ⟨fun h => BitVec.eq_of_toNat_eq (locate_register h (n := 2) (by decide) (by simp) (by simp) (by simp)), by rintro rfl; rfl⟩

/-- The address of STATUS, and no other, is located there. -/
theorem locate_eq_status {c : Params} {a : Addr} : locate c a = .status ↔ a = 0x003 :=
  ⟨fun h => BitVec.eq_of_toNat_eq (locate_register h (n := 3) (by decide) (by simp) (by simp) (by simp)), by rintro rfl; rfl⟩

/-- The address of CTRL, and no other, is located there. -/
theorem locate_eq_ctrl {c : Params} {a : Addr} : locate c a = .ctrl ↔ a = 0x005 :=
  ⟨fun h => BitVec.eq_of_toNat_eq (locate_register h (n := 5) (by decide) (by simp) (by simp) (by simp)), by rintro rfl; rfl⟩

/-- No register offset holds a buffer byte. -/
theorem registerMap_no_buffer (n i : Nat) :
    registerMap.getD n .reserved ≠ .ibuf i ∧ registerMap.getD n .reserved ≠ .tbuf i := by
  have h : registerMap.all (fun l => match l with | .ibuf _ => false | .tbuf _ => false | _ => true) = true := by decide
  rw [List.getD_eq_getElem?_getD]
  cases hn : registerMap[n]? with
  | none => simp
  | some l =>
    have := List.all_eq_true.1 h l (List.mem_of_getElem? hn)
    constructor <;> rintro rfl <;> simp at this

/-- Where the buffer windows lie (R81). -/
theorem locate_range {c : Params} {a : Addr} :
    (∀ i, locate c a = .ibuf i → i < c.ibufSize ∧ a.toNat = 0x400 + i) ∧
    (∀ i, locate c a = .tbuf i → i < c.tbufSize ∧ a.toNat = 0x800 + i) := by
  constructor <;> intro i h <;> unfold locate at h
  · split at h
    · exact absurd h (registerMap_no_buffer _ i).1
    · split at h
      · split at h
        · simp only [Loc.ibuf.injEq] at h; omega
        · cases h
      · split at h
        · split at h <;> cases h
        · cases h
  · split at h
    · exact absurd h (registerMap_no_buffer _ i).2
    · split at h
      · split at h <;> cases h
      · split at h
        · split at h
          · simp only [Loc.tbuf.injEq] at h; omega
          · cases h
        · cases h

/-! ### Turns -/

theorem turns_succ (n : Nat) (s : State) : turns (n + 1) s = andThen (step s) (turns n) := rfl

theorem turns_add (m n : Nat) (s : State) : turns (m + n) s = andThen (turns m s) (turns n) := by
  induction m generalizing s with
  | zero => simp [turns]
  | succ m ih =>
    rw [show m + 1 + n = (m + n) + 1 by omega, turns_succ, turns_succ]
    cases step s with
    | next u => simp [ih]
    | fault e => rfl
    | refused e => rfl

/-- A turn without a reset and without a host access is the engine's alone. -/
theorem turn_noHost {s : State} (hp : s.pins.noHost) : turn s = if s.busy then engineTurn s else .next s := by
  obtain ⟨h1, h2, h3⟩ := hp
  unfold turn
  rw [hostRead_of_not_re h3, if_neg (by simp [h1])]
  simp [hostWrite, h2]

/-- The same, while a command runs, of a step. -/
theorem step_noHost {s : State} {p : Pins} {rest : List Pins} (h : s.nextTurn p rest) (hp : p.noHost)
    (hb : s.busy = true) : step s = engineTurn (s.withTurn p rest) := by
  rw [step, sampleInputs_next h, turn_noHost hp]
  exact if_pos hb

/-! ### A turn with a host access -/

/-- A write strobe at CMD is a CMD write. -/
theorem hostWrite_cmd {s : State} (hw : s.pins.regWe = true) (ha : s.pins.regAddr = 0x002) :
    hostWrite s = writeCmd s s.pins.regWdata := by
  simp only [hostWrite, hw, locate_eq_cmd.2 ha]; rfl

/-- A write strobe elsewhere is a write to the location. -/
theorem hostWrite_loc {s : State} (hw : s.pins.regWe = true) (ha : s.pins.regAddr ≠ 0x002) :
    hostWrite s = .next (writeLoc s (locate s.cfg s.pins.regAddr) s.pins.regWdata) := by
  simp only [hostWrite, hw]
  split
  · next h => exact absurd h (by simp)
  · split
    · next h => exact absurd (locate_eq_cmd.1 h) ha
    · rfl

/-- A CMD write while BUSY = 1 is dropped, whatever the byte (R272). -/
theorem writeCmd_busy {s : State} (h : s.busy = true) (c : Byte) : writeCmd s c = .next (s.recordError .busy) := by
  unfold writeCmd
  split
  · exact exec_busy h _
  · exact if_pos h

/-- The host's part of a busy block's turn always goes on, and leaves the sequencer, the offer and the signals as they were. -/
theorem hostWrite_busy {s : State} (h : s.busy = true) :
    ∃ t, hostWrite s = .next t ∧ t.run = s.run ∧ t.tx = s.tx ∧ t.pins = s.pins := by
  cases hw : s.pins.regWe with
  | false => exact ⟨s, by simp [hostWrite, hw], rfl, rfl, rfl⟩
  | true =>
    by_cases ha : s.pins.regAddr = 0x002
    · exact ⟨_, (hostWrite_cmd hw ha).trans (writeCmd_busy h _), rfl, rfl, rfl⟩
    · have k := writeLoc_keeps s (locate s.cfg s.pins.regAddr) s.pins.regWdata
      exact ⟨_, hostWrite_loc hw ha, k.run, k.tx, k.pins⟩

/-- The engine's part of a turn in which it rests changes nothing. -/
theorem engineTurn_rests {s : State} (h : s.engineRests s.pins) : engineTurn s = .next s := by
  unfold engineTurn
  rcases h with h | ⟨h1, h2⟩ | ⟨r, x, b, h1, h2, h3, h4, h5⟩
  · split
    · rfl
    · simp [engineStep, h]
  · simp [h1, h2]
  · simp [h3, engineStep, h1, h2, xmitStage, h4, h5]

/-- A step without a reset: the read, the write, and the engine's part if a command was running. -/
theorem step_noReset {s : State} {p : Pins} {rest : List Pins} (h : s.nextTurn p rest) (hr : p.rst = false) :
    step s = andThen (hostWrite (hostRead (s.withTurn p rest))) (fun t => if s.busy then engineTurn t else .next t) := by
  rw [step, sampleInputs_next h]
  exact if_neg (by simp [State.withTurn, hr])

/-- Where the engine rests a step is the host's part of the turn. -/
theorem step_rests {s : State} {p : Pins} {rest : List Pins} (h : s.nextTurn p rest) (hr : p.rst = false)
    (he : s.engineRests p) : step s = hostWrite (hostRead (s.withTurn p rest)) := by
  rw [step_noReset h hr]
  cases hb : s.busy with
  | false => cases hostWrite (hostRead (s.withTurn p rest)) <;> rfl
  | true =>
    obtain ⟨t, ht, h1, h2, h3⟩ := hostWrite_busy (s := hostRead (s.withTurn p rest)) (by rw [hostRead_busy]; exact hb)
    rw [ht]
    refine engineTurn_rests ?_
    simp only [hostRead_run, hostRead_tx, hostRead_pins] at h1 h2 h3
    rw [h3]; unfold State.engineRests; rw [h1, h2]; exact he

/-- Which bits are unspecified does not depend on the signals of the turn. -/
theorem unspecifiedBits_withTurn (s : State) (p : Pins) (rest : List Pins) (l : Loc) :
    unspecifiedBits (s.withTurn p rest) l = unspecifiedBits s l := by cases l <;> rfl

/-- What a read returns does not depend on the signals of the turn. -/
theorem readValue_withTurn (s : State) (p : Pins) (rest : List Pins) (a : Addr) :
    readValue (s.withTurn p rest) a = readValue s a := by
  have h2 : ∀ l, heldValue (s.withTurn p rest) l = heldValue s l := fun l => by cases l <;> rfl
  simp only [readValue, unspecifiedBits_withTurn, h2]
  rfl

/-- What a read alone leaves of a turn: the value before the turn is recorded, a draw is counted if a bit of it is unspecified,
and nothing else changes (R87, R88). -/
theorem hostRead_records {s : State} {p : Pins} {rest : List Pins} (hre : p.regRe = true) (hwe : p.regWe = false) :
    hostRead (s.withTurn p rest) =
      { s.withTurn p rest with
        reads := s.reads ++ [(p.regAddr, readValue s p.regAddr)]
        draws := if unspecifiedBits s (locate s.cfg p.regAddr) = 0x00 then s.draws else s.draws + 1 } := by
  rw [← readValue_withTurn s p rest, ← unspecifiedBits_withTurn s p rest]
  rw [hostRead, if_neg (by simp [State.withTurn, hre]), if_neg (by simp [State.withTurn, hwe])]
  simp only [State.withTurn, State.logRead]
  congr 1
  exact apply_ite (s.draws + ·) _ 0 1

/-- With both strobes set the recorded value is drawn (R88, I4). -/
theorem hostRead_both {s : State} (hre : s.pins.regRe = true) (hwe : s.pins.regWe = true) :
    (hostRead s).reads = s.reads ++ [(s.pins.regAddr, Config.freeByte s.draws)] ∧ (hostRead s).draws = s.draws + 1 := by
  simp [hostRead, hre, hwe, unspecifiedRead, State.logRead]

/-- Nothing but the host read of a turn changes the record of reads or counts a draw. -/
theorem HostMove.reads {s t : State} (h : HostMove s t) : t.reads = s.reads ∧ t.draws = s.draws := by
  cases h with
  | none _ => exact ⟨rfl, rfl⟩
  | write _ _ => exact ⟨(writeLoc_keeps _ _ _).reads, (writeLoc_keeps _ _ _).draws⟩
  | drop _ _ _ => exact ⟨rfl, rfl⟩
  | reject _ _ _ _ _ => exact ⟨rfl, rfl⟩
  | accept _ _ _ _ _ _ _ _ _ ht => exact ⟨(engineRun_keeps ht).reads, (engineRun_keeps ht).draws⟩

theorem step_reads {s t : State} {p : Pins} {rest : List Pins} (h : s.nextTurn p rest) (hr : p.rst = false)
    (ht : step s = .next t) :
    t.reads = (hostRead (s.withTurn p rest)).reads ∧ t.draws = (hostRead (s.withTurn p rest)).draws := by
  have e := headD_next h
  rw [← sampleInputs_next h]
  cases step_cases ht with
  | reset hr' => rw [e, hr] at hr'; cases hr'
  | host t _ hm => exact hm.reads
  | engine u t _ _ hm he => exact ⟨he.keeps.reads.trans hm.reads.1, he.keeps.draws.trans hm.reads.2⟩

/-- A step of a running command that ends it sets DONE (R272). -/
theorem EngineMove.done_of_ends {s t : State} (h : EngineMove s t) (hb : s.run ≠ none) (ht : t.run = none) :
    t.done = true := by
  cases h with
  | idle h => exact absurd h hb
  | txPending _ _ _ h _ _ _ _ => rw [h] at ht; cases ht
  | txOffer _ _ _ h _ _ _ _ => simp [h] at ht
  | fmt r _ _ _ _ _ => unfold State.advance at ht ⊢; split at ht <;> simp_all
  | norm r _ _ _ _ => unfold State.advance at ht ⊢; split at ht <;> simp_all
  | sealTail r _ _ _ => unfold State.advance at ht ⊢; split at ht <;> simp_all
  | sealSum _ _ _ _ _ => simp at ht
  | txAccept _ _ _ _ _ _ _ _ => simp at ht
  | nop _ _ _ => rfl
  | clear _ _ _ => rfl
  | addrenc _ _ _ => rfl
  | txFail _ _ _ _ _ _ _ => rfl
  | txDone _ _ _ _ _ _ => rfl

/-! ### What a read returns -/

/-- A location with no unspecified bit reads as the value it holds (R89). -/
theorem readValue_exact {s : State} {a : Addr} {l : Loc} (hl : locate s.cfg a = l) (h : unspecifiedBits s l = 0x00) :
    readValue s a = heldValue s l := by
  subst hl; exact if_pos h

/-- A location with every bit unspecified reads as a free value (R89, I2, I3). -/
theorem readValue_open {s : State} {a : Addr} {l : Loc} (hl : locate s.cfg a = l) (h : unspecifiedBits s l = 0xFF) :
    readValue s a = Config.freeByte s.draws := by
  subst hl
  have e : ∀ f : Byte, f &&& 0xFF = f := by decide
  rw [readValue, if_neg (by rw [h]; decide), h, blend, e]; simp

/-! ### The tx port -/

/-- A byte on offer shows on the port (R54). -/
theorem tx_some {s : State} {b : Byte} (h : s.tx = some b) : s.txValid = true ∧ s.txData = b := by
  simp [State.txValid, State.txData, h]

/-- Without an offer `tx_valid` = 0 (R54). -/
theorem tx_none {s : State} (h : s.tx = none) : s.txValid = false := by simp [State.txValid, h]

end Sys2Proof.Machine
end

