-- ==== Sys2Proof/Laws/PerInstr.lean ====
section
/-! SUPPORT. What holds of every command as syntax, one lemma per command: it is well formed, its opcode decodes to
it, and its group is not a reserved one (spec 30_encoding.md R110, R113). -/

namespace Sys2Proof.Laws.Encoding

/-- The command is well formed, its opcode decodes to it, as a byte and as a table word, and field G is not one of the
reserved groups 101, 110, 111 (R110). -/
def Statement (i : Instr) : Prop :=
  i.wellFormed = true ∧ decode (encode i) = .command i ∧ decodeTableWord 8 (encode i).toNat = some i ∧
    (fieldG (encode i)).toNat < 5

theorem nop : Statement .nop := ⟨rfl, rfl, rfl, by decide⟩
theorem clear : Statement .clear := ⟨rfl, rfl, rfl, by decide⟩
theorem addrenc : Statement .addrenc := ⟨rfl, rfl, rfl, by decide⟩
theorem fmtZa : Statement .fmtZa := ⟨rfl, rfl, rfl, by decide⟩
theorem fmtZi : Statement .fmtZi := ⟨rfl, rfl, rfl, by decide⟩
theorem fmtV : Statement .fmtV := ⟨rfl, rfl, rfl, by decide⟩
theorem fmtAa : Statement .fmtAa := ⟨rfl, rfl, rfl, by decide⟩
theorem norm : Statement .norm := ⟨rfl, rfl, rfl, by decide⟩
theorem sealTelegram : Statement .sealTelegram := ⟨rfl, rfl, rfl, by decide⟩
theorem xmit : Statement .xmit := ⟨rfl, rfl, rfl, by decide⟩
theorem sendZa : Statement .sendZa := ⟨rfl, rfl, rfl, by decide⟩
theorem sendZi : Statement .sendZi := ⟨rfl, rfl, rfl, by decide⟩
theorem sendV : Statement .sendV := ⟨rfl, rfl, rfl, by decide⟩
theorem sendAa : Statement .sendAa := ⟨rfl, rfl, rfl, by decide⟩

end Sys2Proof.Laws.Encoding
end

