-- ==== Sys2Proof/Laws/Safety.lean ====
section
/-! SUPPORT. What the invariant and the acceptance checks say, in the form later proofs use. -/

namespace Sys2Proof.Machine

/-- The bounds of legal parameters (R7, R8). -/
theorem legal_bounds {c : Params} (h : c.legal = true) :
    1 ≤ c.ibufSize ∧ c.ibufSize ≤ 1024 ∧ 8 ≤ c.tbufSize ∧ c.tbufSize ≤ 1024 := by
  simpa [Params.legal] using h

/-- A format and a send command of one telegram type make the same checks (R249). -/
theorem commandChecks_kind {i : Instr} {k : TelegramKind} (h : telegramKind i = some k) :
    commandChecks i = commandChecks (fmtCommand k) := by
  cases i <;> cases k <;> first | rfl | (exact absurd h (by decide))

/-- When FMT.ZA and SEND.ZA are accepted. -/
theorem checksZa_none {s : State} : firstError (checksZa s) = none ↔
    s.ilen.toNat ≤ s.cfg.ibufSize ∧ blocks s.ilen.toNat Config.blockLong ≤ 255 ∧
    lengthZa s.ilen.toNat + 2 ≤ s.cfg.tbufSize := by
  simp [firstError_eq_none, checksZa, checkIlen, checkCount, checkRoom]

/-- When FMT.ZI and SEND.ZI are accepted. -/
theorem checksZi_none {s : State} : firstError (checksZi s) = none ↔
    s.ilen.toNat ≤ s.cfg.ibufSize ∧ blocks s.ilen.toNat Config.blockShort ≤ 255 ∧
    lengthZi s.ilen.toNat + 2 ≤ s.cfg.tbufSize := by
  simp [firstError_eq_none, checksZi, checkIlen, checkCount, checkRoom]

/-- When FMT.V and SEND.V are accepted. -/
theorem checksV_none {s : State} : firstError (checksV s) = none ↔
    s.ilen.toNat ≤ s.cfg.ibufSize ∧ lengthV s.ilen.toNat + 2 ≤ s.cfg.tbufSize := by
  simp [firstError_eq_none, checksV, checkIlen, checkRoom]

/-- When FMT.AA and SEND.AA are accepted. -/
theorem checksAa_none {s : State} : firstError (checksAa s) = none ↔
    s.ilen.toNat ≤ s.cfg.ibufSize ∧ s.l1len.toNat ≤ s.ilen.toNat ∧
    blocks (bodyLengthAa s.ilen.toNat s.l1len.toNat) Config.blockLong ≤ 255 ∧
    lengthAa s.addr s.ilen.toNat s.l1len.toNat + 2 ≤ s.cfg.tbufSize := by
  simp [firstError_eq_none, checksAa, checkIlen, checkL1len, checkCount, checkRoom]

/-- When NORM is accepted. -/
theorem checksNorm_none {s : State} : firstError (checksNorm s) = none ↔
    s.sealed = false ∧ s.tlen.toNat ≤ s.cfg.tbufSize := by
  simp [firstError_eq_none, checksNorm, checkNotFrozen, checkTlen]

/-- When SEAL is accepted. -/
theorem checksSeal_none {s : State} : firstError (checksSeal s) = none ↔
    s.sealed = false ∧ s.tlen.toNat ≤ s.cfg.tbufSize ∧ s.tlen.toNat + 2 ≤ s.cfg.tbufSize := by
  simp [firstError_eq_none, checksSeal, checkNotFrozen, checkTlen, checkRoom]

/-- When XMIT is accepted. -/
theorem checksXmit_none {s : State} : firstError (checksXmit s) = none ↔ s.sealed = true := by
  simp [firstError_eq_none, checksXmit, checkSealed]

/-- The telegram of an accepted FMT stage leaves room for the trailer (R184). -/
theorem formatted_room {r : Run} {k : TelegramKind} {s : State} {out : List Byte}
    (hk : telegramKind r.cur = some k) (ha : r.snap.addr = s.addr) (hi : r.snap.ilen = s.ilen) (hl : r.snap.l1len = s.l1len)
    (hc : firstError (commandChecks r.cur s) = none) (ho : r.formatted k s = some out) :
    out.length + 2 ≤ s.cfg.tbufSize := by
  rw [commandChecks_kind hk] at hc
  cases k with
  | za =>
    obtain ⟨t, ht, rfl⟩ := Option.map_eq_some_iff.1 ho
    have := Memory.readBytes_length ht
    rw [telegramZa_length, this, hi]
    exact (checksZa_none.1 hc).2.2
  | zi =>
    obtain ⟨t, ht, rfl⟩ := Option.map_eq_some_iff.1 ho
    have := Memory.readBytes_length ht
    rw [telegramZi_length, this, hi]
    exact (checksZi_none.1 hc).2.2
  | v =>
    obtain ⟨t, ht, rfl⟩ := Option.map_eq_some_iff.1 ho
    have := Memory.readBytes_length ht
    rw [telegramV_length, this, hi]
    exact (checksV_none.1 hc).2
  | aa =>
    obtain ⟨-, h1, -, h2⟩ := checksAa_none.1 hc
    simp only [Run.formatted] at ho
    split at ho
    · next p q hp hq =>
      cases ho
      have h3 := Memory.readBytes_length hp
      have h4 := Memory.readBytes_length hq
      rw [hl] at h3; rw [hl, hi] at h4
      rw [telegramAa_length, ha, h3, h4]
      have : s.l1len.toNat + (s.ilen.toNat - s.l1len.toNat) = s.ilen.toNat := by omega
      rw [this]; exact h2
    · cases ho

/-- What the invariant says of a running command. -/
theorem State.Inv.running {s : State} (hs : s.Inv) {r : Run} (h : s.run = some r) :
    r.snap.addr = s.addr ∧ r.snap.ilen = s.ilen ∧ r.snap.l1len = s.l1len ∧
      (isSend r.cur = false → r.snap.tlen = s.tlen) ∧ s.stageAgrees r := by
  have := hs.sequencer; simpa only [State.sequencerAgrees, h] using this

/-- While the snapshot agrees, every stage works on the current TLEN. -/
theorem workLength_eq {s : State} {r : Run} (h : isSend r.cur = false → r.snap.tlen = s.tlen) :
    workLength r s = s.tlen.toNat := by
  unfold workLength; split
  · rfl
  · next hh => rw [h (by simpa using hh)]

/-- A length of at most 1024 fits a 16-bit register. -/
theorem ofNat16 {n : Nat} (h : n ≤ 1024) : (BitVec.ofNat 16 n).toNat = n := by
  rw [BitVec.toNat_ofNat]; exact Nat.mod_eq_of_lt (by omega)

/-- The checks read the operand registers, SEALED and the parameters only. -/
theorem commandChecks_congr {s s' : State} (i : Instr) (hcfg : s'.cfg = s.cfg)
    (ha : s'.addr = s.addr) (hi : s'.ilen = s.ilen) (hl : s'.l1len = s.l1len) (ht : s'.tlen = s.tlen)
    (hs : s'.sealed = s.sealed) : commandChecks i s' = commandChecks i s := by
  cases i <;>
    simp only [commandChecks, checksZa, checksZi, checksV, checksAa, checksNorm, checksSeal, checksXmit, checkIlen,
      checkL1len, checkTlen, checkRoom, checkNotFrozen, checkSealed, hcfg, ha, hi, hl, ht, hs]

/-- The host read of a turn changes no check: a command accepted in the turn passes them in the state before it. -/
theorem commandChecks_hostRead (i : Instr) (s : State) (p : Pins) (rest : List Pins) :
    commandChecks i (hostRead (s.withTurn p rest)) = commandChecks i s :=
  commandChecks_congr i (hostRead_cfg _) (hostRead_addr _) (hostRead_ilen _) (hostRead_l1len _) (hostRead_tlen _)
    (hostRead_sealed _)

/-- What a stage asks for is asked of a few fields only. -/
theorem stageAgrees_congr {s s' : State} {r : Run} (h : s.stageAgrees r) (hcfg : s'.cfg = s.cfg)
    (ha : s'.addr = s.addr) (hi : s'.ilen = s.ilen) (hl : s'.l1len = s.l1len) (ht : s'.tlen = s.tlen)
    (hs : s'.sealed = s.sealed) (hb : s'.tbuf = s.tbuf) (hx : s'.tx = s.tx) (ho : s'.sinkOut = s.sinkOut) : s'.stageAgrees r := by
  have e := commandChecks_congr r.cur hcfg ha hi hl ht hs
  unfold State.stageAgrees State.telegram at *
  simpa only [e, hcfg, ht, hs, hb, hx, ho] using h

/-- A change outside these fields leaves the sequencer in agreement. -/
theorem sequencerAgrees_congr {s s' : State} (h : s.sequencerAgrees) (hcfg : s'.cfg = s.cfg)
    (ha : s'.addr = s.addr) (hi : s'.ilen = s.ilen) (hl : s'.l1len = s.l1len) (ht : s'.tlen = s.tlen)
    (hs : s'.sealed = s.sealed) (hb : s'.tbuf = s.tbuf) (hx : s'.tx = s.tx) (ho : s'.sinkOut = s.sinkOut)
    (hr : s'.run = s.run) : s'.sequencerAgrees := by
  cases hrun : s.run with
  | none => simpa only [State.sequencerAgrees, hr, hrun, hx] using h
  | some r =>
    simp only [State.sequencerAgrees, hr, hrun, ha, hi, hl, ht] at h ⊢
    exact ⟨h.1, h.2.1, h.2.2.1, h.2.2.2.1, stageAgrees_congr h.2.2.2.2 hcfg ha hi hl ht hs hb hx ho⟩

/-- Where the bytes of the IBUF window are found (R81). -/
theorem locate_ibuf {c : Params} {a : Addr} {i : Nat} (hc : c.legal = true) (h : a.toNat = 0x400 + i)
    (hi : i < c.ibufSize) : locate c a = .ibuf i := by
  obtain ⟨-, h1, -, -⟩ := legal_bounds hc
  unfold locate
  rw [if_neg (by omega), if_pos (by omega), h, Nat.add_sub_cancel_left, if_pos hi]

/-- Where the bytes of the TBUF window are found (R81). -/
theorem locate_tbuf {c : Params} {a : Addr} {i : Nat} (hc : c.legal = true) (h : a.toNat = 0x800 + i)
    (hi : i < c.tbufSize) : locate c a = .tbuf i := by
  obtain ⟨-, -, -, h1⟩ := legal_bounds hc
  unfold locate
  rw [if_neg (by omega), if_neg (by omega), if_pos (by omega), h, Nat.add_sub_cancel_left, if_pos hi]

/-- Which locations are reserved (R81, R82). -/
theorem locate_reserved {c : Params} {a : Addr} (hc : c.legal = true)
    (h : 0x011 ≤ a.toNat ∧ a.toNat ≤ 0x3FF ∨ 0x400 + c.ibufSize ≤ a.toNat ∧ a.toNat ≤ 0x7FF ∨
      0x800 + c.tbufSize ≤ a.toNat ∧ a.toNat ≤ 0xBFF ∨ 0xC00 ≤ a.toNat) : locate c a = .reserved := by
  obtain ⟨-, -, -, h1⟩ := legal_bounds hc
  unfold locate
  rcases h with h | h | h | h
  · rw [if_pos (by omega)]; exact List.getD_eq_default _ _ (by show 17 ≤ _; omega)
  · rw [if_neg (by omega), if_pos (by omega), if_neg (by omega)]
  · rw [if_neg (by omega), if_neg (by omega), if_pos (by omega), if_neg (by omega)]
  · rw [if_neg (by omega), if_neg (by omega), if_neg (by omega)]

/-- A reset keeps the parameters. -/
theorem resetTurn_cfg (s : State) : (resetTurn s).cfg = s.cfg := by
  unfold resetTurn unspecifiedRead; split <;> rfl

/-- A reset leaves both buffers unwritten (R302). -/
theorem resetTurn_buffers (s : State) : (resetTurn s).ibuf = [] ∧ (resetTurn s).tbuf = [] := by
  unfold resetTurn unspecifiedRead; split <;> exact ⟨rfl, rfl⟩

/-- The stages of a SEND up to its first offer (R249): what each writes, and the telegram the engine then offers. -/
theorem engineRun_send {s : State} {r : Run} {k : TelegramKind} {out body : List Byte} {c : Byte} {m : Memory}
    (h : s.run = some r) (hg : r.stage = .fmt k) (hsd : isSend r.cur = true) (htx : s.tx = none)
    (ho : r.formatted k s = some out) (hlen : out.length + 2 ≤ 1024) (hb : body = norm s.cfg.substEnc out)
    (hc : c = chk (body ++ [Config.cr]))
    (hm : m = (((s.tbuf.writeBytes 0 out).writeBytes 0 body).write body.length Config.cr).write (body.length + 1) c) :
    m.readBytes 0 (body.length + 2) = some (body ++ [Config.cr, c]) ∧
    engineRun 5 s =
      .next { s with
              tbuf := m, tlen := BitVec.ofNat 16 (body.length + 2), csum := c,
              fmtd := true, normd := true, sealed := true,
              run := some { r with stage := .xmit 0 }, tx := (body ++ [Config.cr, c]).head? } := by
  have hnl := norm_length_le s.cfg.substEnc out
  rw [← hb] at hnl
  have e1 : engineRun 1 s = .next ((s.commitTelegram out).toStage r .norm) := by
    rw [engineRun_one, fmtStage_eq k h hg, ho]; dsimp only; rw [State.advance_send hsd]
  generalize hu : ({ s.commitTelegram out with
      tbuf := (s.tbuf.writeBytes 0 out).writeBytes 0 body, tlen := BitVec.ofNat 16 body.length, normd := true } :
        State) = u
  have hut : u.telegram = some body := by
    rw [← hu]; simp only [State.telegram]; rw [ofNat16 (by omega)]; exact Memory.readBytes_writeBytes _ _ _
  have hul : u.tlen.toNat = body.length := by rw [← hu]; exact ofNat16 (by omega)
  have e2 : engineRun 1 ((s.commitTelegram out).toStage r .norm) = .next (u.toStage r .sealSum) := by
    have hl : ((s.commitTelegram out).toStage r .norm).tlen.toNat = out.length := ofNat16 (by omega)
    have ht : ((s.commitTelegram out).toStage r .norm).tbuf.readBytes 0
        (workLength { r with stage := .norm } ((s.commitTelegram out).toStage r .norm)) = some out := by
      rw [workLength_send (r := { r with stage := .norm }) hsd, hl]
      exact Memory.readBytes_writeBytes _ _ _
    rw [engineRun_one, normStage_eq rfl rfl ht, State.advance_send (r := { r with stage := .norm }) hsd]
    subst hb; subst hu; rfl
  have hul' : (u.toStage r .sealSum).tlen.toNat = body.length := hul
  have e3 := engineRun_seal (s := u.toStage r .sealSum) (r := { r with stage := .sealSum }) (body := body) rfl rfl
    (workLength_send (r := { r with stage := .sealSum }) hsd _) hut
  rw [State.advance_send (r := { r with stage := .sealTail _ }) hsd, ← hc, hul'] at e3
  have hub : u.tbuf = (s.tbuf.writeBytes 0 out).writeBytes 0 body := by rw [← hu]
  have hread : m.readBytes 0 (body.length + 2) = some (body ++ [Config.cr, c]) := by
    rw [hm, ← hub]; exact Memory.readBytes_trailer (by rw [← hul]; exact hut) _ _
  obtain ⟨b, hhead⟩ : ∃ b, (body ++ [Config.cr, c]).head? = some b := by cases body <;> simp
  have hb0 := Memory.read_of_readBytes (i := 0) hread (by omega)
  rw [← List.head?_eq_getElem?, hhead, hm, ← hub] at hb0
  refine ⟨hread, ?_⟩
  rw [show (5 : Nat) = 1 + (1 + (2 + 1)) from rfl, engineRun_add, e1, andThen_next, engineRun_add, e2, andThen_next,
    engineRun_add, e3, andThen_next, engineRun_one, hhead, hm]
  refine Eq.trans (engineStep_offer (r := { r with stage := .xmit 0 }) (x := 0) (b := b) rfl rfl ?_ ?_ hb0) ?_
  · subst hu; exact htx
  · rw [workLength_send (r := { r with stage := .xmit 0 }) hsd]
    show 0 < (BitVec.ofNat 16 (body.length + 2)).toNat
    rw [ofNat16 (by omega)]; omega
  · subst hu; rfl

end Sys2Proof.Machine
end

