-- ==== Sys2Proof/Tests/Slice0.lean ====
section
/-! SUPPORT. Tests on small states. Expected values come from spec 95_test_vectors.md (the id of each vector stands in the test's
comment) or are worked out by hand from the rule named there. -/

namespace Sys2Proof.Machine.Test

/-! ### Helpers -/

/-- The machine went on, to a state with property `p`. -/
def goesOn (o : Result) (p : State → Bool) : Bool :=
  match o with
  | .next t => p t
  | .fault _ => false
  | .refused _ => false

/-- The machine stopped with fault `e`. -/
def faults (o : Result) (e : Fault) : Bool :=
  match o with
  | .next _ => false
  | .fault f => decide (f = e)
  | .refused _ => false

/-- One turn in which the host writes `c` to CMD. -/
def issued (s : State) (c : Byte) : Result := step (s.placeCommand c)

/-- After LOADI: IBUF holds `t` and ILEN its length. -/
def loaded (t : List Byte) : State :=
  { State.reset with ibuf := Memory.writeBytes [] 0 t, ilen := BitVec.ofNat 16 t.length }

/-- After LOADT: TBUF holds `t` and TLEN its length. -/
def body (t : List Byte) : State :=
  { State.reset with tbuf := Memory.writeBytes [] 0 t, tlen := BitVec.ofNat 16 t.length }

/-- The sealed telegram `v12` of section 2.5, STATUS 0x20. -/
def sealedV12 : State :=
  { body [0x76, 0x31, 0x32, 0x0D, 0x07] with csum := 0x07, sealed := true }

/-- XMIT of that telegram, the byte at index 2 on offer, two bytes accepted. -/
def offering : State :=
  { sealedV12 with
    run := some { cur := .xmit, stage := .xmit 2, snap := sealedV12.snapshot }
    tx := some 0x32
    sinkOut := [0x76, 0x31] }

/-- The same XMIT with every byte accepted and no completion yet. -/
def sentAll : State :=
  { sealedV12 with
    run := some { cur := .xmit, stage := .xmit 5, snap := sealedV12.snapshot }
    sinkOut := [0x76, 0x31, 0x32, 0x0D, 0x07] }

/-- The state with one more turn to come. -/
def withNext (s : State) (p : Pins) : State := { s with inputs := [p] }

/-- Both buffers at their largest legal sizes. -/
def large : Params := { ibufSize := 1024, tbufSize := 1024, substEnc := .utf8 }

/-- TBUF at its smallest legal size. -/
def small : Params := { ibufSize := 256, tbufSize := 8, substEnc := .utf8 }

/-! ### Well-formedness: an illegal value for each bound of R7 and R8 -/

theorem test_illegal_ibuf_empty : Params.legal { Params.default with ibufSize := 0 } = false := by decide
theorem test_illegal_ibuf_large : Params.legal { Params.default with ibufSize := 1025 } = false := by decide
theorem test_illegal_tbuf_small : Params.legal { Params.default with tbufSize := 7 } = false := by decide
theorem test_illegal_tbuf_large : Params.legal { Params.default with tbufSize := 1025 } = false := by decide
theorem test_legal_extremes : large.legal = true ∧ small.legal = true ∧ Params.default.legal = true := by decide

/-! ### Decoding: the bits S, G, F of R113, family by family -/

theorem test_decode_control :
    decode (0b0#1 ++ 0b000#3 ++ 0b0000#4) = .command .nop ∧ decode (0b0#1 ++ 0b000#3 ++ 0b0001#4) = .command .clear ∧
    decode (0b0#1 ++ 0b000#3 ++ 0b0010#4) = .command .addrenc := by decide
theorem test_decode_format :
    decode (0b0#1 ++ 0b001#3 ++ 0b0000#4) = .command .fmtZa ∧ decode (0b0#1 ++ 0b001#3 ++ 0b0001#4) = .command .fmtZi ∧
    decode (0b0#1 ++ 0b001#3 ++ 0b0010#4) = .command .fmtV ∧ decode (0b0#1 ++ 0b001#3 ++ 0b0011#4) = .command .fmtAa := by
  decide
theorem test_decode_normalise : decode (0b0#1 ++ 0b010#3 ++ 0b0000#4) = .command .norm := by decide
theorem test_decode_seal : decode (0b0#1 ++ 0b011#3 ++ 0b0000#4) = .command .sealTelegram := by decide
theorem test_decode_transmit : decode (0b0#1 ++ 0b100#3 ++ 0b0000#4) = .command .xmit := by decide
theorem test_decode_send :
    decode (0b1#1 ++ 0b001#3 ++ 0b0000#4) = .command .sendZa ∧ decode (0b1#1 ++ 0b001#3 ++ 0b0001#4) = .command .sendZi ∧
    decode (0b1#1 ++ 0b001#3 ++ 0b0010#4) = .command .sendV ∧ decode (0b1#1 ++ 0b001#3 ++ 0b0011#4) = .command .sendAa := by
  decide
/-- K4: some reserved bytes. -/
theorem test_decode_reserved :
    [0x03, 0x0F, 0x14, 0x1F, 0x21, 0x2F, 0x31, 0x41, 0x50, 0x70, 0x80, 0x81, 0x82, 0x94, 0xA0, 0xB0, 0xC0, 0xFF].all
      (fun c => decide (decode c = .reserved)) = true := by decide
/-- A table word is a command byte. -/
theorem test_table_word : decodeTableWord 8 0x93 = some .sendAa ∧ decodeTableWord 8 0x55 = none := by decide

/-! ### Each command, one turn -/

/-- K1. -/
theorem test_nop : goesOn (issued sealedV12 0x00) (fun t => decide (t.statusByte = 0x22 ∧ t.tbuf = sealedV12.tbuf)) = true := by
  decide
/-- K2. -/
theorem test_clear :
    goesOn (issued { sealedV12 with done := true, err := true, errcode := .frozen, fmtd := true, normd := true } 0x01)
      (fun t => decide (t.tlen = 0 ∧ t.statusByte = 0x06 ∧ t.errcode.code = 0x06 ∧ t.tbuf = sealedV12.tbuf)) = true := by
  decide
/-- The worked example of R162. -/
theorem test_addrenc_two :
    goesOn (issued { State.reset with addr := 0xA5 } 0x02)
      (fun t => decide (t.aencN = 2 ∧ t.aencC0 = 0x3A ∧ t.aencC1 = 0x35)) = true := by decide
/-- A corner case of R162. -/
theorem test_addrenc_one :
    goesOn (issued { State.reset with addr := 0x0F, aencC1 := 0x35 } 0x02)
      (fun t => decide (t.aencN = 1 ∧ t.aencC0 = 0x3F ∧ t.aencC1 = 0x00)) = true := by decide
/-- F1. -/
theorem test_fmt_za :
    goesOn (issued (loaded [0x48, 0x62, 0x66]) 0x10)
      (fun t => decide (t.statusByte = 0x0A ∧ t.telegram = some
        [0x7A, 0x41, 0x31, 0x48, 0x62, 0x66, 0x20, 0x20, 0x20, 0x20, 0x20, 0x20, 0x20, 0x20, 0x20, 0x20, 0x20, 0x20, 0x20])) =
      true := by decide
/-- F17. -/
theorem test_fmt_za_len :
    goesOn (issued { State.reset with ilen := 257 } 0x10)
      (fun t => decide (t.statusByte = 0x06 ∧ t.errcode.code = 0x03 ∧ t.tlen = 0)) = true := by decide
/-- F4. -/
theorem test_fmt_zi :
    goesOn (issued (loaded [0x31, 0x32, 0x33, 0x34, 0x35]) 0x11)
      (fun t => decide (t.telegram = some [0x7A, 0x49, 0x32, 0x31, 0x32, 0x33, 0x34, 0x35, 0x20, 0x20, 0x20])) = true := by
  decide
/-- F25: RANGE before OVF. -/
theorem test_fmt_zi_range :
    goesOn (issued { State.reset with cfg := large, ilen := 1021 } 0x11)
      (fun t => decide (t.statusByte = 0x06 ∧ t.errcode.code = 0x04)) = true := by decide
/-- F28: the old telegram's tail stays. -/
theorem test_fmt_v :
    goesOn (issued { sealedV12 with ibuf := [(0, 0x37)], ilen := 1 } 0x12)
      (fun t => decide (t.statusByte = 0x0A ∧ t.telegram = some [0x76, 0x37] ∧
        t.tbuf.readBytes 2 3 = some [0x32, 0x0D, 0x07])) = true := by decide
/-- F24. -/
theorem test_fmt_v_ovf :
    goesOn (issued { State.reset with cfg := small, ilen := 6 } 0x12) (fun t => decide (t.errcode.code = 0x05)) = true := by
  decide
/-- F10. -/
theorem test_fmt_aa :
    goesOn (issued { loaded [0x41, 0x42] with addr := 0x01, l1len := 1 } 0x13)
      (fun t => decide (t.telegram = some
        [0x61, 0x41, 0x31, 0x31, 0x41, 0x0A, 0x42, 0x0A, 0x0A,
         0x20, 0x20, 0x20, 0x20, 0x20, 0x20, 0x20, 0x20, 0x20, 0x20, 0x20])) = true := by decide
/-- F14: an empty line 2 and a two-character address. -/
theorem test_fmt_aa_one_line :
    goesOn (issued { loaded [0x47, 0x6C, 0x65, 0x69, 0x73] with addr := 0xA5, l1len := 5 } 0x13)
      (fun t => decide (t.telegram = some
        [0x61, 0x41, 0x3A, 0x35, 0x31, 0x47, 0x6C, 0x65, 0x69, 0x73, 0x0A, 0x0A,
         0x20, 0x20, 0x20, 0x20, 0x20, 0x20, 0x20, 0x20, 0x20])) = true := by decide
/-- N13 and N6: the freed tail stays, and a first 0xC3 that starts no pair is copied. -/
theorem test_norm_utf8 :
    goesOn (issued (body [0xC3, 0xBC, 0xC3, 0xBC, 0x41]) 0x20)
      (fun t => decide (t.telegram = some [0x7D, 0x7D, 0x41] ∧ t.tbuf.readBytes 3 2 = some [0xBC, 0x41])) = true ∧
    norm .utf8 [0xC3, 0xC3, 0xBC] = [0xC3, 0x7D] := by decide
/-- N12. -/
theorem test_norm_latin1 :
    goesOn
      (issued { body [0xE4, 0xF6, 0xFC, 0xDF, 0xC4, 0xD6, 0xDC] with
                cfg := { Params.default with substEnc := .latin1 } } 0x20)
      (fun t => decide (t.telegram = some [0x7B, 0x7C, 0x7D, 0x7E, 0x5B, 0x5C, 0x5D])) = true := by decide
/-- S7: bit 7 of the checksum is not masked away. -/
theorem test_seal :
    goesOn (issued (body [0x80]) 0x30)
      (fun t => decide (t.statusByte = 0x22 ∧ t.telegram = some [0x80, 0x0D, 0xF2] ∧ t.csum = 0xF2)) = true := by decide
/-- S14: LEN before OVF. -/
theorem test_seal_len :
    goesOn (issued { State.reset with tlen := 513 } 0x30)
      (fun t => decide (t.errcode.code = 0x03 ∧ t.sealed = false)) = true := by
  decide
/-- X1, the first offer. -/
theorem test_xmit :
    goesOn (issued sealedV12 0x40) (fun t => decide (t.tx = some 0x76 ∧ t.busy = true ∧ t.done = false)) = true := by decide
/-- X6. -/
theorem test_xmit_not_sealed :
    goesOn (issued State.reset 0x40)
      (fun t => decide (t.statusByte = 0x06 ∧ t.errcode.code = 0x07 ∧ t.tx = none)) = true := by
  decide
/-- D3, up to the first offer. -/
theorem test_send_za :
    goesOn (issued (loaded [0x53, 0xC3, 0xBC, 0x64]) 0x90)
      (fun t => decide (t.tlen = 20 ∧ t.csum = 0x32 ∧ t.tx = some 0x7A ∧ t.tbuf.readBytes 0 8 =
        some [0x7A, 0x41, 0x31, 0x53, 0x7D, 0x64, 0x20, 0x20])) = true := by decide
/-- D10. -/
theorem test_send_za_len :
    goesOn (issued { State.reset with ilen := 257 } 0x90)
      (fun t => decide (t.statusByte = 0x06 ∧ t.errcode.code = 0x03 ∧ t.tx = none)) = true := by decide
/-- D5, up to the first offer. -/
theorem test_send_zi :
    goesOn (issued (loaded [0x31, 0x32, 0x33, 0x34, 0x35]) 0x91)
      (fun t => decide (t.telegram = some [0x7A, 0x49, 0x32, 0x31, 0x32, 0x33, 0x34, 0x35, 0x20, 0x20, 0x20, 0x0D, 0x62])) =
      true := by decide
/-- D7, up to the first offer. -/
theorem test_send_v :
    goesOn (issued (loaded [0xC3, 0x9F]) 0x92)
      (fun t => decide (t.telegram = some [0x76, 0x7E, 0x0D, 0x7A] ∧ t.tx = some 0x76)) = true := by decide
/-- D9, up to the first offer. -/
theorem test_send_aa :
    goesOn (issued { loaded [0x47, 0x72, 0xC3, 0xBC, 0x6E] with addr := 0x10, l1len := 5 } 0x93)
      (fun t => decide (t.telegram = some
        [0x61, 0x41, 0x31, 0x30, 0x31, 0x47, 0x72, 0x7D, 0x6E, 0x0A, 0x0A,
         0x20, 0x20, 0x20, 0x20, 0x20, 0x20, 0x20, 0x20, 0x20, 0x0D, 0x64])) = true := by decide

/-! ### Errors, the sink and the bus, one turn -/

/-- P6: an unwritten IBUF byte is a fault. -/
theorem test_unwritten_ibuf : faults (issued { State.reset with ilen := 2 } 0x12) .unwrittenIbuf = true := by decide
/-- S15: an unwritten TBUF byte is a fault. -/
theorem test_unwritten_tbuf :
    faults (issued { State.reset with tbuf := [(0, 0x41), (2, 0x41)], tlen := 3 } 0x30) .unwrittenTbuf = true := by decide
/-- K7: BUSY is checked before BADCMD; the offer goes on. -/
theorem test_busy_drop :
    goesOn (issued offering 0xFF) (fun t => decide (t.errcode.code = 0x02 ∧ t.done = false ∧ t.tx = some 0x32)) = true := by
  decide
/-- K4: a reserved byte is BADCMD. -/
theorem test_badcmd :
    goesOn (issued State.reset 0x03) (fun t => decide (t.statusByte = 0x06 ∧ t.errcode.code = 0x01)) = true := by decide
/-- X2: FAIL on the byte at index 2, although the sink is ready too. -/
theorem test_txfail :
    goesOn (step (withNext offering { Pins.sinkAccepts with txFail := true }))
      (fun t => decide (t.statusByte = 0x26 ∧ t.errcode.code = 0x08 ∧ t.sinkOut = [0x76, 0x31])) = true := by decide
/-- X1: ACCEPT of the byte at index 2. -/
theorem test_txaccept :
    goesOn (step (withNext offering Pins.sinkAccepts)) (fun t => decide (t.sinkOut = [0x76, 0x31, 0x32] ∧ t.busy = true)) =
      true := by decide
/-- G8. -/
theorem test_status_clear_err :
    goesOn (step (withNext { State.reset with done := true, err := true, errcode := .badcmd } (Pins.write 0x003 0x04)))
      (fun t => decide (t.statusByte = 0x02 ∧ t.errcode.code = 0x00)) = true := by decide
/-- G10, the high half. -/
theorem test_tlen_hi :
    goesOn (step (withNext { State.reset with tlen := 0x0034 } (Pins.write 0x00D 0x12)))
      (fun t => decide (t.tlen = 0x1234 ∧ readValue t 0x00C = 0x34)) = true := by decide
/-- G3 and G1. -/
theorem test_reads :
    [0x011, 0x3FF, 0x500, 0xA00, 0xFFF].all (fun a => decide (readValue State.reset a = 0x00)) = true ∧
    readValue State.reset 0x000 = 0x43 := by decide
/-- G17: an error that is enabled raises irq. -/
theorem test_irq :
    goesOn (issued { State.reset with errIe := true } 0x40) (fun t => t.irq) = true ∧
    goesOn (issued { State.reset with errIe := true } 0x00) (fun t => !t.irq) = true := by decide

/-! ### Witnesses: for each statement with hypotheses, states and operands that meet all of them, at the ends of the ranges -/

/-- The state with one more turn to come, and `q` the rest. -/
def withTwo (s : State) (p : Pins) (q : List Pins) : State := { s with inputs := p :: q }

/-- A sealed telegram meets the invariant of the machine. -/
theorem sealedV12_inv : sealedV12.Inv where
  legal := by decide
  canonical := ⟨by decide, by decide⟩
  inRange := ⟨by decide, by decide⟩
  errorRecord := by unfold State.errorRecordAgrees; decide
  sealedOk := fun _ => ⟨[0x76, 0x31, 0x32], by decide, by decide, by decide, by decide⟩
  sequencer := rfl

/-- So it does whatever turns are to come. -/
theorem sealedV12_inv_inputs (q : List Pins) : State.Inv { sealedV12 with inputs := q } :=
  ⟨sealedV12_inv.1, sealedV12_inv.2, sealedV12_inv.3, sealedV12_inv.4, sealedV12_inv.5, sealedV12_inv.6⟩

/-- A pending offer meets the invariant of the machine. -/
theorem offering_inv : offering.Inv where
  legal := by decide
  canonical := ⟨by decide, by decide⟩
  inRange := ⟨by decide, by decide⟩
  errorRecord := by unfold State.errorRecordAgrees; decide
  sealedOk := sealedV12_inv.sealedOk
  sequencer := by
    refine ⟨rfl, rfl, rfl, fun _ => rfl, .inl rfl, rfl, by decide, fun b hb => ?_, [], [0x76, 0x31], by decide, rfl⟩
    cases hb
    decide

theorem witness_DecodeInvertsEncode :
    Instr.sendAa.wellFormed = true ∧ Instr.nop.wellFormed = true ∧ (0x93 : Byte) = encode .sendAa ∧
    (0x00 : Byte) = encode .nop := by
  decide
theorem witness_CommandBytesDecode :
    ∀ c ∈ ([0x03, 0x0F, 0x14, 0x8F, 0x94, 0xFF] : List Byte),
      c ∉ ([0x00, 0x01, 0x02, 0x10, 0x11, 0x12, 0x13, 0x20, 0x30, 0x40, 0x90, 0x91, 0x92, 0x93] : List Byte) := by decide
theorem witness_ReservedBytesAreRejected :
    State.reset.busy = false ∧
    ∀ c ∈ ([0x03, 0x0F, 0x14, 0x1F, 0x21, 0x2F, 0x31, 0x3F, 0x41, 0x8F, 0x94, 0xFF] : List Byte),
      (3 ≤ c.toNat ∧ c.toNat ≤ 0x0F ∨ 0x14 ≤ c.toNat ∧ c.toNat ≤ 0x1F ∨ 0x21 ≤ c.toNat ∧ c.toNat ≤ 0x2F ∨
        0x31 ≤ c.toNat ∧ c.toNat ≤ 0x3F ∨ 0x41 ≤ c.toNat ∧ c.toNat ≤ 0x8F ∨ 0x94 ≤ c.toNat) := by decide
/-- A CMD write of a byte the step statements speak of: a command and a reserved byte of an idle block, and a byte written while
an offer stays unanswered, in a held turn, and in a turn in which the sink accepts the offer. -/
theorem witness_StepRunsDecodedCommand :
    (∀ c ∈ ([0x40, 0xFF] : List Byte), (withNext sealedV12 (Pins.write 0x002 c)).nextTurn (Pins.write 0x002 c) [] ∧
      (Pins.write 0x002 c).rst = false ∧ (Pins.write 0x002 c).regWe = true ∧ (Pins.write 0x002 c).regAddr = 0x002 ∧
      (withNext sealedV12 (Pins.write 0x002 c)).busy = false ∧
      (withNext sealedV12 (Pins.write 0x002 c)).engineRests (Pins.write 0x002 c)) ∧
    (decode (Pins.write 0x002 0x40).regWdata = .command .xmit ∧ decode (Pins.write 0x002 0xFF).regWdata = .reserved) ∧
    ((withNext offering (Pins.write 0x002 0x00)).nextTurn (Pins.write 0x002 0x00) [] ∧ offering.busy = true ∧
      (withNext offering (Pins.write 0x002 0x00)).engineRests (Pins.write 0x002 0x00)) ∧
    (sentAll.busy = true ∧ sentAll.engineRests { Pins.write 0x002 0x00 with hold := true }) ∧
    ((withNext offering { Pins.write 0x002 0x00 with txReady := true }).nextTurn
      { Pins.write 0x002 0x00 with txReady := true } [] ∧ offering.busy = true) :=
  ⟨fun _ _ => ⟨rfl, rfl, rfl, rfl, rfl, .inl rfl⟩, by decide,
    ⟨rfl, rfl, .inr (.inr ⟨_, _, _, rfl, rfl, rfl, rfl, rfl⟩)⟩, ⟨rfl, .inr (.inl ⟨rfl, rfl⟩)⟩, ⟨rfl, rfl⟩⟩
theorem witness_BusyCommandWriteIsDropped : offering.busy = true := by decide
theorem witness_IdleBlockTakesNoStep :
    (withNext sealedV12 Pins.sinkAccepts).nextTurn Pins.sinkAccepts [] ∧ Pins.sinkAccepts.noHost ∧
    (withNext sealedV12 Pins.sinkAccepts).run = none := ⟨rfl, ⟨rfl, rfl, rfl⟩, rfl⟩
/-- An idle block, a turn that holds the engine back, a STATUS write while an offer stays unanswered, and a CTRL write in a turn
in which the sink accepts the offer. -/
theorem witness_StepPerformsTheHostWrite :
    ((withNext State.reset (Pins.write 0x006 0x05)).nextTurn (Pins.write 0x006 0x05) [] ∧
      (Pins.write 0x006 0x05).rst = false ∧ (Pins.write 0x006 0x05).regWe = true ∧
      (Pins.write 0x006 0x05).regAddr ≠ 0x002 ∧ (withNext State.reset (Pins.write 0x006 0x05)).run = none) ∧
    ((withNext sentAll { Pins.write 0x005 0x03 with hold := true }).nextTurn { Pins.write 0x005 0x03 with hold := true } [] ∧
      sentAll.busy = true ∧ (withNext sentAll { Pins.write 0x005 0x03 with hold := true }).tx = none ∧
      ({ Pins.write 0x005 0x03 with hold := true } : Pins).hold = true) ∧
    ((withNext offering (Pins.write 0x003 0x06)).nextTurn (Pins.write 0x003 0x06) [] ∧
      (withNext offering (Pins.write 0x003 0x06)).run =
        some { cur := .xmit, stage := .xmit 2, snap := sealedV12.snapshot } ∧
      (withNext offering (Pins.write 0x003 0x06)).tx = some 0x32 ∧ (Pins.write 0x003 0x06).txReady = false ∧
      (Pins.write 0x003 0x06).txFail = false) ∧
    ((withNext offering { Pins.write 0x005 0x03 with txReady := true }).nextTurn
        { Pins.write 0x005 0x03 with txReady := true } [] ∧ offering.busy = true) :=
  ⟨⟨rfl, by decide⟩, ⟨rfl, by decide⟩, ⟨rfl, by decide⟩, ⟨rfl, rfl⟩⟩
theorem witness_ResetTurnRestoresTheBlock :
    (withNext offering { Pins.read 0x003 with rst := true }).nextTurn { Pins.read 0x003 with rst := true } [] ∧
    ({ Pins.read 0x003 with rst := true } : Pins).rst = true := ⟨rfl, rfl⟩

theorem witness_NopSetsDoneOnly : sealedV12.ready := ⟨⟨rfl, rfl⟩, rfl⟩
theorem witness_ClearDiscardsTheTelegram : sealedV12.ready := ⟨⟨rfl, rfl⟩, rfl⟩
/-- The last address of one character and the first of two. -/
theorem witness_AddrencEncodesTheAddress :
    (State.ready { State.reset with addr := 0x0F } ∧ ({ State.reset with addr := 0x0F } : State).addr.toNat < 16) ∧
    (State.ready { State.reset with addr := 0x10 } ∧ 16 ≤ ({ State.reset with addr := 0x10 } : State).addr.toNat) :=
  ⟨⟨⟨⟨rfl, rfl⟩, rfl⟩, by decide⟩, ⟨⟨⟨rfl, rfl⟩, rfl⟩, by decide⟩⟩

/-- Sixteen bytes of text and a TBUF that has just enough room. -/
def fullBlock : State :=
  { loaded (List.replicate 16 0x41) with cfg := { ibufSize := 16, tbufSize := 21, substEnc := .utf8 } }

theorem witness_FmtZaWritesFreeText :
    (fullBlock.ready ∧ fullBlock.cfg.legal = true ∧
      fullBlock.ibuf.readBytes 0 fullBlock.ilen.toNat = some (List.replicate 16 0x41) ∧
      [0x7A, 0x41, 0x31] ++ List.replicate 16 (0x41 : Byte) = [0x7A, 0x41] ++ enc (BitVec.ofNat 8 ((16 + 15) / 16)) ++
        List.replicate 16 0x41 ++ List.replicate ((16 - 16 % 16) % 16) 0x20 ∧
      fullBlock.ilen.toNat ≤ fullBlock.cfg.ibufSize ∧ (16 + 15) / 16 ≤ 255 ∧
      ([0x7A, 0x41, 0x31] ++ List.replicate 16 (0x41 : Byte)).length + 2 ≤ fullBlock.cfg.tbufSize) ∧
    (State.reset.ready ∧ State.reset.cfg.legal = true ∧ State.reset.ibuf.readBytes 0 State.reset.ilen.toNat = some [] ∧
      ([0x7A, 0x41, 0x30] : List Byte) = [0x7A, 0x41] ++ enc (BitVec.ofNat 8 ((0 + 15) / 16)) ++ [] ++
        List.replicate ((16 - 0 % 16) % 16) 0x20) :=
  ⟨⟨⟨⟨rfl, rfl⟩, rfl⟩, by decide⟩, ⟨⟨⟨rfl, rfl⟩, rfl⟩, by decide⟩⟩
theorem witness_FmtZiWritesCompactText :
    (loaded [0x31, 0x32, 0x33]).ready ∧ (loaded [0x31, 0x32, 0x33]).cfg.legal = true ∧
    (loaded [0x31, 0x32, 0x33]).ibuf.readBytes 0 (loaded [0x31, 0x32, 0x33]).ilen.toNat = some [0x31, 0x32, 0x33] ∧
    ([0x7A, 0x49, 0x31, 0x31, 0x32, 0x33, 0x20] : List Byte) = [0x7A, 0x49] ++ enc (BitVec.ofNat 8 ((3 + 3) / 4)) ++
      [0x31, 0x32, 0x33] ++ List.replicate ((4 - 3 % 4) % 4) 0x20 ∧
    (loaded [0x31, 0x32, 0x33]).ilen.toNat ≤ (loaded [0x31, 0x32, 0x33]).cfg.ibufSize ∧ (3 + 3) / 4 ≤ 255 ∧
    [0x7A, 0x49, 0x31, 0x31, 0x32, 0x33, (0x20 : Byte)].length + 2 ≤ (loaded [0x31, 0x32, 0x33]).cfg.tbufSize :=
  ⟨⟨⟨rfl, rfl⟩, rfl⟩, by decide⟩

/-- Five bytes of text and the smallest TBUF, which they fill up to the trailer. -/
def fullRun : State := { loaded [0x31, 0x32, 0x33, 0x34, 0x35] with cfg := small }

theorem witness_FmtVWritesRunNumber :
    fullRun.ready ∧ fullRun.cfg.legal = true ∧
    fullRun.ibuf.readBytes 0 fullRun.ilen.toNat = some [0x31, 0x32, 0x33, 0x34, 0x35] ∧
    fullRun.ilen.toNat ≤ fullRun.cfg.ibufSize ∧ 5 + 3 ≤ fullRun.cfg.tbufSize := ⟨⟨⟨rfl, rfl⟩, rfl⟩, by decide⟩

/-- The two lines `A` and `B` at address 1 (W9). -/
def twoLines : State := { loaded [0x41, 0x42] with addr := 0x01, l1len := 1 }

/-- The line `A` alone at address 0x10. -/
def oneLine : State := { loaded [0x41] with addr := 0x10, l1len := 1 }

/-- With a second line and without one. -/
theorem witness_FmtAaWritesTwoLineDisplay :
    (twoLines.ready ∧ twoLines.cfg.legal = true ∧ twoLines.l1len.toNat ≤ twoLines.ilen.toNat ∧
      [(0x41 : Byte)].length = twoLines.l1len.toNat ∧
      twoLines.ibuf.readBytes 0 twoLines.ilen.toNat = some ([0x41] ++ [0x42]) ∧
      ([0x41, 0x0A, 0x42, 0x0A, 0x0A] : List Byte) =
        [0x41] ++ (if ([0x42] : List Byte) = [] then [] else [0x0A]) ++ [0x42] ++ [0x0A, (0x0A : Byte)] ∧
      ([0x61, 0x41, 0x31, 0x31, 0x41, 0x0A, 0x42, 0x0A, 0x0A,
        0x20, 0x20, 0x20, 0x20, 0x20, 0x20, 0x20, 0x20, 0x20, 0x20, 0x20] : List Byte) =
        [0x61, 0x41] ++ enc twoLines.addr ++ enc (BitVec.ofNat 8 ((5 + 15) / 16)) ++ [0x41, 0x0A, 0x42, 0x0A, 0x0A]
          ++ List.replicate ((16 - 5 % 16) % 16) 0x20 ∧
      twoLines.ilen.toNat ≤ twoLines.cfg.ibufSize ∧ (5 + 15) / 16 ≤ 255 ∧ 20 + 2 ≤ twoLines.cfg.tbufSize) ∧
    (oneLine.ready ∧ oneLine.cfg.legal = true ∧ oneLine.l1len.toNat ≤ oneLine.ilen.toNat ∧
      [(0x41 : Byte)].length = oneLine.l1len.toNat ∧
      oneLine.ibuf.readBytes 0 oneLine.ilen.toNat = some ([0x41] ++ []) ∧
      ([0x41, 0x0A, 0x0A] : List Byte) =
        [0x41] ++ (if ([] : List Byte) = [] then [] else [0x0A]) ++ [] ++ [0x0A, (0x0A : Byte)]) :=
  ⟨⟨⟨⟨rfl, rfl⟩, rfl⟩, by decide⟩, ⟨⟨⟨rfl, rfl⟩, rfl⟩, by decide⟩⟩

theorem witness_NormSubstitutesInPlace :
    (body [0x53, 0xC3, 0xBC, 0x64]).ready ∧ (body [0x53, 0xC3, 0xBC, 0x64]).cfg.legal = true ∧
    (body [0x53, 0xC3, 0xBC, 0x64]).sealed = false ∧
    (body [0x53, 0xC3, 0xBC, 0x64]).tlen.toNat ≤ (body [0x53, 0xC3, 0xBC, 0x64]).cfg.tbufSize ∧
    (body [0x53, 0xC3, 0xBC, 0x64]).telegram = some [0x53, 0xC3, 0xBC, 0x64] := ⟨⟨⟨rfl, rfl⟩, rfl⟩, by decide⟩

/-- A body with just enough room for the trailer. -/
def fullBody : State := { body [0x76, 0x31, 0x32, 0x33, 0x34, 0x35] with cfg := small }

theorem witness_SealAppendsTheTrailer :
    (fullBody.ready ∧ fullBody.cfg.legal = true ∧ fullBody.sealed = false ∧
      fullBody.tlen.toNat + 2 ≤ fullBody.cfg.tbufSize ∧ fullBody.telegram = some [0x76, 0x31, 0x32, 0x33, 0x34, 0x35] ∧
      (0x35 : Byte) = ([0x76, 0x31, 0x32, 0x33, 0x34, 0x35, 0x0D] : List Byte).foldl (fun acc b => acc ^^^ b) 0x7F) ∧
    (State.reset.ready ∧ State.reset.cfg.legal = true ∧ State.reset.sealed = false ∧
      State.reset.tlen.toNat + 2 ≤ State.reset.cfg.tbufSize ∧ State.reset.telegram = some [] ∧
      (0x72 : Byte) = ([0x0D] : List Byte).foldl (fun acc b => acc ^^^ b) 0x7F) :=
  ⟨⟨⟨⟨rfl, rfl⟩, rfl⟩, by decide⟩, ⟨⟨⟨rfl, rfl⟩, rfl⟩, by decide⟩⟩
theorem witness_XmitOffersTheFirstByte :
    (sealedV12.ready ∧ sealedV12.sealed = true ∧ 0 < sealedV12.tlen.toNat ∧ sealedV12.tbuf.read 0 = some 0x76) ∧
    offering.tx = some 0x32 ∧ State.reset.tx = none ∧ offering.Inv ∧ offering.txValid = true :=
  ⟨⟨⟨⟨rfl, rfl⟩, rfl⟩, by decide⟩, rfl, rfl, offering_inv, rfl⟩
/-- FreeText `Süd` (D3) and the two-line display. -/
theorem witness_SendOffersTheSealedTelegram :
    ((loaded [0xC3, 0x9F]).ready ∧ (loaded [0xC3, 0x9F]).cfg.legal = true ∧
      firstError (commandChecks (sendCommand .v) (loaded [0xC3, 0x9F])) = none ∧
      (loaded [0xC3, 0x9F]).formatted .v = some [0x76, 0xC3, 0x9F] ∧
      ([0x76, 0x7E] : List Byte) = norm (loaded [0xC3, 0x9F]).cfg.substEnc [0x76, 0xC3, 0x9F] ∧
      (0x7A : Byte) = ([0x76, 0x7E, 0x0D] : List Byte).foldl (fun acc b => acc ^^^ b) 0x7F) ∧
    (twoLines.ready ∧ twoLines.cfg.legal = true ∧ firstError (commandChecks (sendCommand .aa) twoLines) = none ∧
      (twoLines.formatted .aa).isSome = true) :=
  ⟨⟨⟨⟨rfl, rfl⟩, rfl⟩, by decide⟩, ⟨⟨⟨rfl, rfl⟩, rfl⟩, by decide⟩⟩

/-- A configuration beyond the legal ones: with a legal IBUF only CompactText reaches RANGE (R214). -/
def beyond : Params := { ibufSize := 4096, tbufSize := 1024, substEnc := .utf8 }

/-- The reset state with these parameters, ILEN and L1LEN. -/
def lengths (c : Params) (n l : Half) : State := { State.reset with cfg := c, ilen := n, l1len := l }

/-- LEN; RANGE and OVF of FreeText and of CompactText, at the counts 255 and 256; OVF of RunNumber; LEN (L1LEN), RANGE and
OVF of TwoLineDisplay; the default parameters; a telegram that just fits. -/
theorem witness_FormatAndSendRejections :
    ((lengths Params.default 257 0).busy = false ∧
      (lengths Params.default 257 0).cfg.ibufSize < (lengths Params.default 257 0).ilen.toNat) ∧
    ((lengths beyond 4081 0).busy = false ∧ (lengths beyond 4081 0).ilen.toNat ≤ (lengths beyond 4081 0).cfg.ibufSize ∧
      255 < ((lengths beyond 4081 0).ilen.toNat + 15) / 16) ∧
    ((lengths beyond 4080 0).ilen.toNat ≤ (lengths beyond 4080 0).cfg.ibufSize ∧
      ((lengths beyond 4080 0).ilen.toNat + 15) / 16 ≤ 255 ∧
      (lengths beyond 4080 0).cfg.tbufSize < 2 + (enc (BitVec.ofNat 8 (((lengths beyond 4080 0).ilen.toNat + 15) / 16))).length
        + 16 * (((lengths beyond 4080 0).ilen.toNat + 15) / 16) + 2) ∧
    ((lengths large 1021 0).ilen.toNat ≤ (lengths large 1021 0).cfg.ibufSize ∧
      255 < ((lengths large 1021 0).ilen.toNat + 3) / 4) ∧
    ((lengths large 1020 0).ilen.toNat ≤ (lengths large 1020 0).cfg.ibufSize ∧
      ((lengths large 1020 0).ilen.toNat + 3) / 4 ≤ 255 ∧
      (lengths large 1020 0).cfg.tbufSize < 2 + (enc (BitVec.ofNat 8 (((lengths large 1020 0).ilen.toNat + 3) / 4))).length
        + 4 * (((lengths large 1020 0).ilen.toNat + 3) / 4) + 2) ∧
    ((lengths small 6 0).ilen.toNat ≤ (lengths small 6 0).cfg.ibufSize ∧
      (lengths small 6 0).cfg.tbufSize < (lengths small 6 0).ilen.toNat + 3) ∧
    ((lengths small 0 1).ilen.toNat ≤ (lengths small 0 1).cfg.ibufSize ∧
      (lengths small 0 1).ilen.toNat < (lengths small 0 1).l1len.toNat) ∧
    ((lengths beyond 4078 0).ilen.toNat ≤ (lengths beyond 4078 0).cfg.ibufSize ∧
      (lengths beyond 4078 0).l1len.toNat ≤ (lengths beyond 4078 0).ilen.toNat ∧
      256 = ((lengths beyond 4078 0).ilen.toNat + 2
        + (if (lengths beyond 4078 0).l1len.toNat < (lengths beyond 4078 0).ilen.toNat then 1 else 0) + 15) / 16) ∧
    ((lengths small 0 0).ilen.toNat ≤ (lengths small 0 0).cfg.ibufSize ∧
      (lengths small 0 0).l1len.toNat ≤ (lengths small 0 0).ilen.toNat ∧
      1 = ((lengths small 0 0).ilen.toNat + 2
        + (if (lengths small 0 0).l1len.toNat < (lengths small 0 0).ilen.toNat then 1 else 0) + 15) / 16 ∧
      (lengths small 0 0).cfg.tbufSize < 2 + (enc (lengths small 0 0).addr).length + (enc (BitVec.ofNat 8 1)).length
        + 16 * 1 + 2) ∧
    ((lengths Params.default 256 0).busy = false ∧ (lengths Params.default 256 0).cfg = Params.default) ∧
    (fullRun.busy = false ∧ firstError (commandChecks .fmtV fullRun) = none ∧
      fullRun.formatted .v = some [0x76, 0x31, 0x32, 0x33, 0x34, 0x35]) := by decide

/-- The reset state with this TLEN. -/
def lengthT (n : Half) : State := { State.reset with tlen := n }

/-- FROZEN; NOTSEALED; LEN just above TBUF_SIZE; OVF at both lengths that leave too little room. -/
theorem witness_NormSealXmitRejections :
    (sealedV12.busy = false ∧ sealedV12.sealed = true) ∧ (State.reset.busy = false ∧ State.reset.sealed = false) ∧
    ((lengthT 513).busy = false ∧ (lengthT 513).sealed = false ∧ (lengthT 513).cfg.tbufSize < (lengthT 513).tlen.toNat) ∧
    ((lengthT 511).busy = false ∧ (lengthT 511).sealed = false ∧ (lengthT 511).tlen.toNat ≤ (lengthT 511).cfg.tbufSize ∧
      (lengthT 511).cfg.tbufSize < (lengthT 511).tlen.toNat + 2) ∧
    ((lengthT 512).busy = false ∧ (lengthT 512).sealed = false ∧ (lengthT 512).tlen.toNat ≤ (lengthT 512).cfg.tbufSize ∧
      (lengthT 512).cfg.tbufSize < (lengthT 512).tlen.toNat + 2) := by decide
theorem witness_UnwrittenBytesFault :
    (State.ready { State.reset with ilen := 2, ibuf := [(0, 0x41)] } ∧
      firstError (commandChecks .sendV { State.reset with ilen := 2, ibuf := [(0, 0x41)] }) = none ∧
      Memory.readBytes [(0, 0x41)] 0 2 = none) ∧
    (State.ready { State.reset with tlen := 1 } ∧ ({ State.reset with tlen := 1 } : State).telegram = none ∧
      (1#16).toNat + 2 ≤ State.reset.cfg.tbufSize ∧ State.reset.sealed = false) :=
  ⟨⟨⟨⟨rfl, rfl⟩, rfl⟩, by decide⟩, ⟨⟨⟨rfl, rfl⟩, rfl⟩, by decide⟩⟩

theorem witness_HeldCommandIsOnlyAccepted :
    ({ loaded [0x31] with pins := { Pins.quiet with hold := true } } : State).busy = false ∧
    ({ loaded [0x31] with pins := { Pins.quiet with hold := true } } : State).pins.hold = true ∧
    firstError (commandChecks .fmtV { loaded [0x31] with pins := { Pins.quiet with hold := true } }) = none := by decide
theorem witness_StepwiseExecutionEqualsAtomic : (body [0x41]).idle ∧ nonWaiting .sealTelegram = true :=
  ⟨⟨rfl, rfl⟩, rfl⟩
theorem witness_AcceptedByteReachesTheSink :
    (withNext offering Pins.sinkAccepts).nextTurn Pins.sinkAccepts [] ∧ Pins.sinkAccepts.noHost ∧
    offering.run = some { cur := .xmit, stage := .xmit 2, snap := sealedV12.snapshot } ∧ offering.tx = some 0x32 ∧
    Pins.sinkAccepts.txFail = false ∧ Pins.sinkAccepts.txReady = true := ⟨rfl, ⟨rfl, rfl, rfl⟩, rfl, by decide⟩
theorem witness_FailedOfferEndsTheTransfer :
    (withNext offering { Pins.sinkAccepts with txFail := true }).nextTurn { Pins.sinkAccepts with txFail := true } [] ∧
    Pins.noHost { Pins.sinkAccepts with txFail := true } ∧
    offering.run = some { cur := .xmit, stage := .xmit 2, snap := sealedV12.snapshot } ∧ offering.tx = some 0x32 ∧
    ({ Pins.sinkAccepts with txFail := true } : Pins).txFail = true := ⟨rfl, ⟨rfl, rfl, rfl⟩, rfl, by decide⟩
theorem witness_UnansweredOfferHangs :
    (withTwo offering Pins.quiet [Pins.write 0x002 0x01]).run =
      some { cur := .xmit, stage := .xmit 2, snap := sealedV12.snapshot } ∧
    (withTwo offering Pins.quiet [Pins.write 0x002 0x01]).tx = some 0x32 ∧
    ∀ p ∈ (withTwo offering Pins.quiet [Pins.write 0x002 0x01]).inputs,
      p.rst = false ∧ p.txReady = false ∧ p.txFail = false := by
  decide
theorem witness_XmitDeliversTheTelegram :
    State.Inv { sealedV12 with inputs := List.replicate 10 Pins.sinkAccepts ++ [] } ∧
    State.ready { sealedV12 with inputs := List.replicate 10 Pins.sinkAccepts ++ [] } ∧ sealedV12.sealed = true ∧
    sealedV12.telegram = some [0x76, 0x31, 0x32, 0x0D, 0x07] ∧
    ∃ t, exec .xmit { sealedV12 with inputs := List.replicate 10 Pins.sinkAccepts ++ [] } = .next t :=
  ⟨sealedV12_inv_inputs _, ⟨⟨rfl, rfl⟩, rfl⟩, rfl, by decide, _, rfl⟩
theorem witness_SendEqualsTheFourCommands :
    (loaded [0x31, 0x32]).ready ∧ (loaded [0x31, 0x32]).cfg.legal = true ∧
    firstError (commandChecks (fmtCommand .v) (loaded [0x31, 0x32])) = none ∧
    ∃ t, exec (fmtCommand .v) (loaded [0x31, 0x32]) = .next t := ⟨⟨⟨rfl, rfl⟩, rfl⟩, by decide, by decide, _, rfl⟩
/-- W7. -/
theorem witness_SendDeliversTheSealedTelegram :
    (loaded [0x31, 0x32]).cfg.legal = true ∧ (loaded [0x31, 0x32]).idle ∧
    firstError (commandChecks (sendCommand .v) (loaded [0x31, 0x32])) = none ∧
    (loaded [0x31, 0x32]).formatted .v = some [0x76, 0x31, 0x32] ∧
    ([0x76, 0x31, 0x32, 0x0D, 0x07] : List Byte) =
      norm (loaded [0x31, 0x32]).cfg.substEnc [0x76, 0x31, 0x32] ++
        [0x0D, chk (norm (loaded [0x31, 0x32]).cfg.substEnc [0x76, 0x31, 0x32] ++ [0x0D])] ∧
    (withTwo (loaded [0x31, 0x32]) (Pins.write 0x002 0x92) (List.replicate 10 Pins.sinkAccepts)).inputs =
      Pins.write 0x002 (encode (sendCommand .v)) :: (List.replicate (2 * 5) Pins.sinkAccepts ++ []) :=
  ⟨by decide, ⟨rfl, rfl⟩, by decide⟩

theorem witness_AddressEncodingIsInjective :
    (enc 0x10).length = 2 ∧ (0x31 : Byte) ∈ enc 0x10 ∧ (0x0F : Byte).toNat < 16 ∧ 16 ≤ (0x10 : Byte).toNat := by decide
theorem witness_NormalizationIsIdempotent :
    (∀ b ∈ ([0x00, 0x41, 0x7F] : List Byte), b.toNat < 0x80) ∧ SubstEnc.latin1 = .latin1 := by decide
theorem witness_SevenCharactersAreSubstituted :
    (0xC2 : Byte) ≠ 0xC3 ∧ (0xC3 : Byte) ∉ ([0xA4, 0xB6, 0xBC, 0x9F, 0x84, 0x96, 0x9C] : List Byte) ∧
    (0xE5 : Byte) ∉ ([0xE4, 0xF6, 0xFC, 0xDF, 0xC4, 0xD6, 0xDC] : List Byte) ∧
    ((0x9C, 0xDC, 0x5D) : Byte × Byte × Byte) ∈ substTable := by decide
theorem witness_SubstitutionOrderDoesNotMatter : substTable.reverse.Perm substTable := List.reverse_perm _
theorem witness_ChecksumIsOrderFreeXor :
    List.Perm [0x31, 0x32, (0x7F : Byte)] [0x7F, 0x32, 0x31] ∧
    ∀ b ∈ ([0x31, 0x32, 0x7F] : List Byte), b.toNat < 0x80 := by decide
theorem witness_DefaultSizesNeverRejectText :
    ({ State.reset with ilen := 256, l1len := 256 } : State).cfg = Params.default ∧ (256#16).toNat ≤ 256 ∧
    (TelegramKind.aa = .aa → (256#16).toNat ≤ (256#16).toNat) := by decide

theorem witness_ReadsReturnTheRegisters :
    (∀ e : ErrCode, ({ State.reset with errcode := e } : State).errcode = e) ∧ State.reset.busy = false ∧
    ∀ r, sentAll.run = some r → r.cur ≠ .addrenc := by
  refine ⟨fun _ => rfl, by decide, fun r h => ?_⟩
  cases h
  decide
/-- The last index of each buffer at its largest size, written and unwritten, and a TBUF byte of a busy block. -/
theorem witness_BufferWindowsReadTheBuffers :
    (large.legal = true ∧ (0x7FF#12).toNat = 0x400 + 1023 ∧ (0xBFF#12).toNat = 0x800 + 1023 ∧ 1023 < large.ibufSize ∧
      1023 < large.tbufSize ∧ Memory.read [(1023, 0x41)] 1023 = some 0x41 ∧ State.reset.busy = false) ∧
    (Memory.read [] 1023 = none ∧ ({ State.reset with cfg := large } : State).ibuf = [] ∧
      ({ State.reset with cfg := large } : State).tbuf = []) ∧
    (offering.cfg.legal = true ∧ (0x804#12).toNat = 0x800 + 4 ∧ 4 < offering.cfg.tbufSize ∧ offering.busy = true) := by
  decide
/-- Both ends of each reserved range. -/
theorem witness_ReservedLocationsAreInert :
    State.reset.cfg.legal = true ∧
    ∀ a ∈ ([0x011, 0x3FF, 0x500, 0x7FF, 0xA00, 0xBFF, 0xC00, 0xFFF] : List Addr),
      (0x011 ≤ a.toNat ∧ a.toNat ≤ 0x3FF ∨ 0x400 + State.reset.cfg.ibufSize ≤ a.toNat ∧ a.toNat ≤ 0x7FF ∨
        0x800 + State.reset.cfg.tbufSize ≤ a.toNat ∧ a.toNat ≤ 0xBFF ∨ 0xC00 ≤ a.toNat) := by decide
/-- A read of an idle block, of a busy one while an offer stays unanswered and in a turn in which the sink accepts it, and a turn
with both strobes; the draw counter at the exact reads of an idle block and of a reserved location, at an unwritten byte, and at
STATUS of a busy block. -/
theorem witness_HostReadHasNoSideEffect :
    ((withNext State.reset (Pins.read 0x400)).nextTurn (Pins.read 0x400) [] ∧ (Pins.read 0x400).rst = false ∧
      (Pins.read 0x400).regRe = true ∧ (Pins.read 0x400).regWe = false ∧
      (withNext State.reset (Pins.read 0x400)).engineRests (Pins.read 0x400)) ∧
    ((withNext offering (Pins.read 0x003)).nextTurn (Pins.read 0x003) [] ∧ offering.busy = true ∧
      (withNext offering (Pins.read 0x003)).engineRests (Pins.read 0x003)) ∧
    ((withNext offering { Pins.read 0x003 with txReady := true }).nextTurn { Pins.read 0x003 with txReady := true } [] ∧
      ∃ t, step (withNext offering { Pins.read 0x003 with txReady := true }) = .next t) ∧
    ((withNext offering { Pins.write 0x003 0x02 with regRe := true }).nextTurn { Pins.write 0x003 0x02 with regRe := true } [] ∧
      ({ Pins.write 0x003 0x02 with regRe := true } : Pins).regRe = true ∧
      ({ Pins.write 0x003 0x02 with regRe := true } : Pins).regWe = true ∧
      ∃ t, step (withNext offering { Pins.write 0x003 0x02 with regRe := true }) = .next t) ∧
    (unspecifiedBits State.reset (locate State.reset.cfg 0x003) = 0x00 ∧
      unspecifiedBits offering (locate offering.cfg 0x011) = 0x00 ∧
      unspecifiedBits State.reset (locate State.reset.cfg 0x400) ≠ 0x00 ∧
      unspecifiedBits offering (locate offering.cfg 0x003) ≠ 0x00) :=
  ⟨⟨rfl, rfl, rfl, rfl, .inl rfl⟩, ⟨rfl, rfl, .inr (.inr ⟨_, _, _, rfl, rfl, rfl, rfl, rfl⟩)⟩, ⟨rfl, _, rfl⟩,
    ⟨rfl, rfl, rfl, _, rfl⟩, by decide⟩
/-- A state of an idle block in which each 16-bit register holds 0x1234, and what each half write of 0xFF makes of it. -/
theorem witness_OperandWritesStoreTheByte :
    State.reset.run = none ∧ State.reset.sealed = false ∧
    (∀ a : Addr, (withNext State.reset (Pins.write a 0xFF)).nextTurn (Pins.write a 0xFF) []) ∧
    (0x12FF#16).toNat = (0x1234#16).toNat / 256 * 256 + (0xFF#8).toNat ∧
    (0xFF34#16).toNat = (0xFF#8).toNat * 256 + (0x1234#16).toNat % 256 := ⟨rfl, rfl, fun _ => rfl, by decide, by decide⟩
/-- The last index of each window at the default sizes. -/
theorem witness_BufferWindowWritesStoreOneByte :
    State.reset.cfg.legal = true ∧ State.reset.run = none ∧
    (∀ a : Addr, (withNext State.reset (Pins.write a 0x41)).nextTurn (Pins.write a 0x41) []) ∧
    ((0x4FF#12).toNat = 0x400 + 255 ∧ 255 < State.reset.cfg.ibufSize) ∧
    ((0x9FF#12).toNat = 0x800 + 511 ∧ 511 < State.reset.cfg.tbufSize ∧ State.reset.sealed = false) :=
  ⟨by decide, rfl, fun _ => rfl, by decide, by decide⟩
theorem witness_LockedWritesAreIgnored :
    sealedV12.sealed = true ∧ 0x800 ≤ (0x800#12).toNat ∧ (0xBFF#12).toNat ≤ 0xBFF ∧ offering.busy = true ∧
    (0x006#12) ≠ 0x002 ∧ (0x006#12) ≠ 0x003 ∧ (0x006#12) ≠ 0x005 := by decide
theorem witness_StatusReadsAndClears : sealedV12.busy = false := by decide

/-- ADDRENC accepted and not yet performed. -/
def encoding : State := { State.reset with run := some { cur := .addrenc, stage := .addrenc, snap := State.reset.snapshot } }

theorem witness_BusyReadsHideIntermediateResults :
    offering.busy = true ∧ encoding.busy = true ∧ encoding.runsAddrenc = true := by decide
/-- NORM accepted and not yet performed. -/
def normalising : State :=
  { body [0x41] with run := some { cur := .norm, stage := .norm, snap := (body [0x41]).snapshot } }

/-- FAIL with a write to CMD and with a write to STATUS; a completion with a write to STATUS of XMIT, of an ADDRENC that was only
accepted, and of a NORM that was. -/
theorem witness_EngineBeatsSameTurnHostWrite :
    (∀ a ∈ ([0x002, 0x003] : List Addr),
      (withNext offering { Pins.write a 0x06 with txFail := true }).nextTurn { Pins.write a 0x06 with txFail := true } [] ∧
      offering.run = some { cur := .xmit, stage := .xmit 2, snap := sealedV12.snapshot } ∧ offering.tx = some 0x32 ∧
      ({ Pins.write a 0x06 with txFail := true } : Pins).rst = false ∧
      ({ Pins.write a 0x06 with txFail := true } : Pins).regWe = true) ∧
    ((withNext sentAll (Pins.write 0x003 0x02)).nextTurn (Pins.write 0x003 0x02) [] ∧ sentAll.tx = none ∧
      (Pins.write 0x003 0x02).hold = false ∧
      workLength { cur := .xmit, stage := .xmit 5, snap := sealedV12.snapshot } sentAll ≤ 5) ∧
    ((withNext encoding (Pins.write 0x003 0x02)).nextTurn (Pins.write 0x003 0x02) [] ∧ encoding.tx = none ∧
      encoding.run = some { cur := .addrenc, stage := .addrenc, snap := State.reset.snapshot } ∧
      (Pins.write 0x003 0x02).hold = false) ∧
    ((withNext normalising (Pins.write 0x003 0x02)).nextTurn (Pins.write 0x003 0x02) [] ∧ normalising.busy = true ∧
      ∃ t, step (withNext normalising (Pins.write 0x003 0x02)) = .next t ∧ t.run = none) :=
  ⟨fun _ _ => ⟨rfl, rfl, rfl, rfl, rfl⟩, ⟨rfl, by decide⟩, ⟨rfl, by decide⟩, rfl, rfl, _, rfl, rfl⟩

theorem witness_EveryStepKeepsTheInvariant :
    State.Inv { sealedV12 with inputs := [Pins.write 0x002 0x40] } ∧
    ∃ t, step { sealedV12 with inputs := [Pins.write 0x002 0x40] } = .next t := ⟨sealedV12_inv_inputs _, _, rfl⟩
theorem witness_EveryStepKeepsBuffersCanonical :
    (withNext (body [0x41]) (Pins.write 0x800 0x42)).buffersCanonical ∧
    ∃ t, step (withNext (body [0x41]) (Pins.write 0x800 0x42)) = .next t ∧ t.tbuf.read 0 = some 0x42 :=
  ⟨⟨by decide, by decide⟩, _, rfl, by decide⟩
/-- A host write to TBUF of an idle block, and a CMD write of CLEAR that is dropped while XMIT runs. -/
theorem witness_SealedTelegramIsFrozen :
    (State.Inv { sealedV12 with inputs := [Pins.write 0x800 0x00] } ∧
      State.nextTurn { sealedV12 with inputs := [Pins.write 0x800 0x00] } (Pins.write 0x800 0x00) [] ∧
      sealedV12.sealed = true ∧ ∃ t, step { sealedV12 with inputs := [Pins.write 0x800 0x00] } = .next t) ∧
    ((withNext offering (Pins.write 0x002 0x01)).Inv ∧
      (withNext offering (Pins.write 0x002 0x01)).nextTurn (Pins.write 0x002 0x01) [] ∧ offering.sealed = true ∧
      ∃ t, step (withNext offering (Pins.write 0x002 0x01)) = .next t) :=
  ⟨⟨sealedV12_inv_inputs _, rfl, rfl, _, rfl⟩,
    ⟨offering_inv.1, offering_inv.2, offering_inv.3, offering_inv.4, offering_inv.5, offering_inv.6⟩, rfl, rfl, _, rfl⟩
theorem witness_OnlyTheHostWritesIbuf :
    (withNext State.reset (Pins.write 0x400 0x41)).nextTurn (Pins.write 0x400 0x41) [] ∧
    ∃ t, step (withNext State.reset (Pins.write 0x400 0x41)) = .next t ∧ t.ibuf ≠ State.reset.ibuf :=
  ⟨rfl, _, rfl, by decide⟩
theorem witness_ErrStaysUntilAcknowledged :
    (withNext { State.reset with err := true, errcode := .len } (Pins.write 0x002 0x01)).nextTurn (Pins.write 0x002 0x01) [] ∧
    ∃ t, step (withNext { State.reset with err := true, errcode := .len } (Pins.write 0x002 0x01)) = .next t :=
  ⟨rfl, _, rfl⟩
theorem witness_SinkOutputOnlyGrows :
    (withNext offering Pins.sinkAccepts).nextTurn Pins.sinkAccepts [] ∧
    ∃ t, step (withNext offering Pins.sinkAccepts) = .next t ∧ t.sinkOut ≠ offering.sinkOut := ⟨rfl, _, rfl, by decide⟩
/-- CSUM changes by SEAL, AENC_* by ADDRENC. -/
theorem witness_ResultRegistersHaveOneWriter :
    ((withNext (body [0x41]) (Pins.write 0x002 0x30)).nextTurn (Pins.write 0x002 0x30) [] ∧
      ∃ t, step (withNext (body [0x41]) (Pins.write 0x002 0x30)) = .next t ∧ t.csum ≠ (body [0x41]).csum) ∧
    ((withNext State.reset (Pins.write 0x002 0x02)).nextTurn (Pins.write 0x002 0x02) [] ∧
      ∃ t, step (withNext State.reset (Pins.write 0x002 0x02)) = .next t ∧ t.aencN ≠ State.reset.aencN) :=
  ⟨⟨rfl, _, rfl, by decide⟩, ⟨rfl, _, rfl, by decide⟩⟩
theorem witness_ParametersNeverChange : ∃ t, step offering = .next t := ⟨_, rfl⟩

end Sys2Proof.Machine.Test
end

section
/-! PROOFS. STATUS, CTRL and `irq` as the host sees them, and the reset values (spec 10_state.md R36, R44, R56;
60_exceptions.md R280). -/

namespace Sys2Proof.Machine

/-! ### One bit of a read -/

theorem blend_getLsbD (v m free : Byte) (j : Nat) :
    (blend v m free).getLsbD j = if m.getLsbD j then free.getLsbD j else v.getLsbD j := by
  by_cases hj : j < 8
  · simp only [blend, BitVec.getLsbD_or, BitVec.getLsbD_and, BitVec.getLsbD_not, hj]
    cases m.getLsbD j <;> simp
  · simp [BitVec.getLsbD_of_ge _ j (Nat.le_of_not_lt hj)]

/-- Each bit of a read is the one the location holds, unless the location leaves that bit unspecified (R89). -/
theorem readValue_getLsbD {s : State} {a : Addr} {l : Loc} (hl : locate s.cfg a = l) (j : Nat) :
    (readValue s a).getLsbD j =
      if (unspecifiedBits s l).getLsbD j then (Config.freeByte s.draws).getLsbD j else (heldValue s l).getLsbD j := by
  subst hl
  unfold readValue
  split
  · next h => simp [h]
  · exact blend_getLsbD ..

/-! ### STATUS (R36) -/

theorem statusByte_getLsbD (s : State) (j : Nat) :
    s.statusByte.getLsbD j = [s.busy, s.done, s.err, s.fmtd, s.normd, s.sealed].getD j false := by
  simp only [State.statusByte, BitVec.getLsbD_append]
  match j with
  | 0 | 1 | 2 | 3 | 4 | 5 => simp
  | j + 6 => simp

theorem unspecifiedBits_status_getLsbD (s : State) (j : Nat) :
    (unspecifiedBits s .status).getLsbD j = (s.busy && decide (3 ≤ j ∧ j ≤ 5)) := by
  have mask : ∀ j < 8, (0x38 : Byte).getLsbD j = decide (3 ≤ j ∧ j ≤ 5) := by decide
  cases hb : s.busy
  · simp [unspecifiedBits, hb]
  · by_cases hj : j < 8
    · simpa [unspecifiedBits, hb] using mask j hj
    · have high : ¬(3 ≤ j ∧ j ≤ 5) := by omega
      simp [BitVec.getLsbD_of_ge _ j (Nat.le_of_not_lt hj), high]

/-- A read of STATUS, bit by bit: bits 3 to 5 are free while BUSY = 1 (R89), the others are exact. -/
theorem readValue_status_getLsbD (s : State) (j : Nat) :
    (readValue s 0x003).getLsbD j =
      if s.busy && decide (3 ≤ j ∧ j ≤ 5) then (Config.freeByte s.draws).getLsbD j
      else [s.busy, s.done, s.err, s.fmtd, s.normd, s.sealed].getD j false := by
  rw [readValue_getLsbD (locate_eq_status.2 rfl), unspecifiedBits_status_getLsbD, ← statusByte_getLsbD]
  rfl

theorem writeLoc_status (s : State) (w : Byte) : writeLoc s (locate s.cfg 0x003) w = s.writeStatus w := by
  rw [locate_eq_status.2 rfl]; rfl

/-- The acknowledge of R36 and R283, flag by flag. -/
theorem writeStatus_eq (s : State) (w : Byte) :
    s.writeStatus w =
      { s with
        done := if w.getLsbD 1 then false else s.done
        err := if w.getLsbD 2 then false else s.err
        errcode := if w.getLsbD 2 then .none else s.errcode } := by
  have clear : ∀ flag bit : Bool, (flag && !bit) = if bit then false else flag := by decide
  simp only [State.writeStatus, clear]

/-! ### CTRL and `irq` (R44, R280) -/

theorem writeLoc_ctrl (s : State) (w : Byte) : writeLoc s (locate s.cfg 0x005) w = s.writeCtrl w := by
  rw [locate_eq_ctrl.2 rfl]; rfl

theorem readValue_ctrl (s : State) : readValue s 0x005 = s.ctrlByte :=
  readValue_exact (locate_eq_ctrl.2 rfl) rfl

theorem ctrlByte_writeCtrl (s : State) (w : Byte) : (s.writeCtrl w).ctrlByte = w &&& 0x03 := by
  have low : ∀ w : Byte, 0#6 ++ BitVec.ofBool (w.getLsbD 1) ++ BitVec.ofBool (w.getLsbD 0) = w &&& 0x03 := by decide
  exact low w

theorem irq_iff (s : State) :
    s.irq = true ↔ s.doneIe = true ∧ s.done = true ∨ s.errIe = true ∧ s.err = true := by
  simp [State.irq]

/-! ### The statements -/

/-- Settles O8: `State.reset` is a literal, so each field is read off it, and ID and REV have no unspecified bit. -/
theorem resetLeavesTheBlockIdle : Obligations.ResetLeavesTheBlockIdle := by
  unfold Obligations.ResetLeavesTheBlockIdle
  have hid : readValue State.reset 0x000 = 0x43 := readValue_exact (l := .id) rfl rfl
  have hrev : readValue State.reset 0x001 = 0x01 := readValue_exact (l := .rev) rfl rfl
  exact ⟨hid, hrev, rfl, rfl, rfl, rfl, rfl, rfl, rfl, rfl, rfl, rfl, rfl, rfl, tx_none rfl, rfl,
    fun _ => rfl, fun _ => rfl⟩

/-- Settles O46: a read of STATUS by its bits, a write through `writeStatus`. -/
theorem statusReadsAndClears : Obligations.StatusReadsAndClears := by
  unfold Obligations.StatusReadsAndClears
  refine ⟨fun s w => ⟨?_, fun idle => ?_, ?_⟩, readValue_exact (l := .status) rfl rfl⟩
  · simp only [readValue_status_getLsbD]; simp
  · simp only [readValue_status_getLsbD, idle]; simp
  · rw [writeLoc_status, writeStatus_eq]

/-- Settles O47: CTRL has no unspecified bit, so it reads back what `writeCtrl` stored. -/
theorem controlWriteEnablesTheInterrupt : Obligations.ControlWriteEnablesTheInterrupt := by
  unfold Obligations.ControlWriteEnablesTheInterrupt
  refine ⟨fun s w => ?_, readValue_ctrl _⟩
  rw [writeLoc_ctrl, readValue_ctrl, irq_iff]
  exact ⟨rfl, ctrlByte_writeCtrl s w, Iff.rfl⟩

end Sys2Proof.Machine
end

section
/-! PROOFS. The reserved locations of the address map (spec 20_memory.md R81, R82). -/

namespace Sys2Proof.Machine

/-- What lies past the registers, past the end of a buffer inside its window, or past both windows is reserved (R81). -/
theorem locate_eq_reserved {c : Params} {a : Addr}
    (h : 0x011 ≤ a.toNat ∧ a.toNat ≤ 0x3FF ∨ 0x400 + c.ibufSize ≤ a.toNat ∧ a.toNat ≤ 0x7FF ∨
      0x800 + c.tbufSize ≤ a.toNat ∧ a.toNat ≤ 0xBFF ∨ 0xC00 ≤ a.toNat) : locate c a = .reserved := by
  unfold locate
  rcases h with ⟨lo, hi⟩ | ⟨lo, hi⟩ | ⟨lo, hi⟩ | lo
  · rw [if_pos (by omega)]
    exact List.getD_eq_default _ _ lo
  · rw [if_neg (by omega), if_pos (by omega), if_neg (by omega)]
  · rw [if_neg (by omega), if_neg (by omega), if_pos (by omega), if_neg (by omega)]
  · rw [if_neg (by omega), if_neg (by omega), if_neg (by omega)]

/-- Settles O41: the location is `.reserved`, which holds an exact 0x00 and takes no write, and no read changes more than the
records. -/
theorem reservedLocationsAreInert : Obligations.ReservedLocationsAreInert := by
  unfold Obligations.ReservedLocationsAreInert
  intro s a v _ outside
  have hl : locate s.cfg a = .reserved := locate_eq_reserved outside
  refine ⟨readValue_exact hl rfl, ?_, fun p _ _ => ⟨_, rfl, hostRead_eq { s with pins := p }⟩⟩
  rw [hl]
  rfl

end Sys2Proof.Machine
end

section
/-! PROOFS. The command map read backwards, and the rejection of the bytes outside it (spec 30_encoding.md R110 to R116). -/

namespace Sys2Proof.Machine

/-! ### Decoding a byte -/

/-- S, G and F are all the bits of a command byte (R110). -/
theorem toNat_eq_fields (c : Byte) : c.toNat = (fields c).1 * 128 + (fields c).2.1 * 16 + (fields c).2.2 := by
  have hc : c.toNat < 256 := c.isLt
  simp only [fields, fieldS, fieldG, fieldF, BitVec.extractLsb'_toNat, Nat.shiftRight_eq_div_pow]
  omega

theorem fields_injective : Function.Injective fields := fun c d h =>
  BitVec.eq_of_toNat_eq (by rw [toNat_eq_fields c, toNat_eq_fields d, h])

theorem decode_encode (i : Instr) : decode (encode i) = .command i := by
  cases i <;> rfl

/-- INVERSION: each listed triple has one command, and the fields of its opcode are that triple. -/
theorem eq_encode_of_decode {c : Byte} {i : Instr} (h : decode c = .command i) : c = encode i := by
  apply fields_injective
  unfold decode at h
  split at h
  case h_15 => cases h
  all_goals
    next triple =>
      cases h
      exact triple

theorem decode_eq_command_iff {c : Byte} {i : Instr} : decode c = .command i ↔ c = encode i :=
  ⟨eq_encode_of_decode, fun h => h ▸ decode_encode i⟩

theorem decode_eq_reserved_iff {c : Byte} : decode c = .reserved ↔ ∀ i, c ≠ encode i := by
  cases hc : decode c with
  | command i => simp [decode_eq_command_iff.1 hc]
  | reserved =>
    refine iff_of_true rfl fun i hi => ?_
    rw [decode_eq_command_iff.2 hi] at hc
    cases hc

/-! ### Writing a reserved byte to CMD -/

/-- REJECT of a byte that names no command (R116, R272). -/
theorem writeCmd_reserved {s : State} {c : Byte} (idle : s.busy = false) (hc : decode c = .reserved) :
    writeCmd s c = .next (s.reject .badcmd) := by
  simp [writeCmd, hc, idle]

/-! ### The statements -/

/-- Settles O2: each literal is the opcode of its command, and a byte that is no command's opcode is reserved. -/
theorem commandBytesDecode : Obligations.CommandBytesDecode := by
  unfold Obligations.CommandBytesDecode
  refine ⟨decode_encode .nop, decode_encode .clear, decode_encode .addrenc, decode_encode .fmtZa, decode_encode .fmtZi,
    decode_encode .fmtV, decode_encode .fmtAa, decode_encode .norm, decode_encode .sealTelegram, decode_encode .xmit,
    decode_encode .sendZa, decode_encode .sendZi, decode_encode .sendV, decode_encode .sendAa, fun c unlisted => ?_⟩
  rw [decode_eq_reserved_iff]
  rintro i rfl
  cases i <;> exact unlisted (by decide)

/-- Settles O3: no command's opcode lies in one of the ranges, so the byte is reserved and `writeCmd` rejects it. -/
theorem reservedBytesAreRejected : Obligations.ReservedBytesAreRejected := by
  unfold Obligations.ReservedBytesAreRejected
  intro s c idle inRange
  have hc : decode c = .reserved := by
    rw [decode_eq_reserved_iff]
    rintro i rfl
    cases i <;> exact absurd inRange (by decide)
  exact writeCmd_reserved idle hc

end Sys2Proof.Machine
end

section
/-! PROOFS. The normalizer (spec 41_normalizer.md R140 to R148): what `norm` does at the head of a string and across an
append, and the command NORM. -/

namespace Sys2Proof.Machine

/-! ### The bytes with a substitute -/

theorem sub_of_mem_substTable {row : SubstRow} (h : row ∈ substTable) :
    sub2 row.1 = some row.2.2 ∧ sub1 row.2.1 = some row.2.2 := by
  have table : substTable.all (fun row => decide
      (sub2 row.1 = some row.2.2 ∧ sub1 row.2.1 = some row.2.2)) = true := by decide
  exact of_decide_eq_true (List.all_eq_true.1 table row h)

theorem sub2_eq_none {c : Byte} (h : c ∉ substTable.map (·.1)) : sub2 c = none := by
  refine Option.eq_none_iff_forall_ne_some.2 fun k hk => ?_
  obtain ⟨row, hrow, rfl, -⟩ := sub2_mem hk
  exact h (List.mem_map_of_mem hrow)

theorem sub1_eq_none {b : Byte} (h : b ∉ substTable.map (·.2.1)) : sub1 b = none := by
  refine Option.eq_none_iff_forall_ne_some.2 fun k hk => ?_
  obtain ⟨row, hrow, rfl, -⟩ := sub1_mem hk
  exact h (List.mem_map_of_mem hrow)

theorem sub1_eq_none_of_lt {b : Byte} (h : b.toNat < 0x80) : sub1 b = none :=
  Option.eq_none_iff_forall_ne_some.2 fun _ hk => absurd (sub1_spec hk).2.2 (Nat.not_le.2 h)

/-! ### One byte at the head -/

theorem normLatin1_replace {b k : Byte} (h : sub1 b = some k) (rest : List Byte) :
    normLatin1 (b :: rest) = k :: normLatin1 rest := by simp [normLatin1, h]

theorem normLatin1_copy {b : Byte} (h : sub1 b = none) (rest : List Byte) :
    normLatin1 (b :: rest) = b :: normLatin1 rest := by simp [normLatin1, h]

theorem normUtf8_copy_of_ne {b : Byte} (h : b ≠ utf8Lead) (rest : List Byte) :
    normUtf8 (b :: rest) = b :: normUtf8 rest := normUtf8_copy b rest fun hb => absurd hb h

theorem norm_cons_of_lt {b : Byte} (h : b.toNat < 0x80) (e : SubstEnc) (rest : List Byte) :
    norm e (b :: rest) = b :: norm e rest := by
  cases e with
  | utf8 => exact normUtf8_copy_of_ne (by rintro rfl; exact absurd h (by decide)) rest
  | latin1 => exact normLatin1_copy (sub1_eq_none_of_lt h) rest

/-! ### Appended strings -/

/-- The scan of R142 works on the two parts alone, unless a pair of the table straddles the cut. -/
theorem normUtf8_append {pre post : List Byte}
    (h : pre.getLast? = some utf8Lead → ∀ c, post.head? = some c → sub2 c = none) :
    normUtf8 (pre ++ post) = normUtf8 pre ++ normUtf8 post := by
  induction pre using normUtf8.induct with
  | case1 => rw [normUtf8]; rfl
  | case2 b =>
    rw [normUtf8]
    exact normUtf8_copy b post fun hb => h (congrArg some hb)
  | case3 b c rest k hk ih =>
    have tail := ih fun hl => h (by simp [List.getLast?_cons, hl])
    simp only [List.cons_append, normUtf8, hk, tail]
  | case4 b c rest hk ih =>
    have tail := ih fun hl => h (by simpa [List.getLast?_cons] using hl)
    rw [List.cons_append] at tail
    simp only [List.cons_append, normUtf8, hk, tail]

theorem normLatin1_append (pre post : List Byte) :
    normLatin1 (pre ++ post) = normLatin1 pre ++ normLatin1 post := List.map_append

theorem norm_append_of_lt {pre : List Byte} (h : ∀ b ∈ pre, b.toNat < 0x80) (e : SubstEnc) (post : List Byte) :
    norm e (pre ++ post) = pre ++ norm e post := by
  induction pre with
  | nil => rfl
  | cons b pre ih =>
    obtain ⟨hb, hpre⟩ := List.forall_mem_cons.1 h
    rw [List.cons_append, norm_cons_of_lt hb, ih hpre, List.cons_append]

/-! ### The header characters -/

theorem alphaChar_lt : ∀ i, (alphaChar i).toNat < 0x80 := by decide

/-- The characters of an address or a block count are below 0x80 (R160, R161). -/
theorem enc_lt {v b : Byte} (h : b ∈ enc v) : b.toNat < 0x80 := by
  unfold enc at h
  split at h
  · rw [List.mem_singleton.1 h]
    exact alphaChar_lt _
  · rcases List.mem_pair.1 h with rfl | rfl <;> exact alphaChar_lt _

theorem norm_enc_append (e : SubstEnc) (v : Byte) (rest : List Byte) :
    norm e (enc v ++ rest) = enc v ++ norm e rest := norm_append_of_lt (fun _ => enc_lt) e rest

/-! ### NORM -/

/-- A command that passes its checks and takes one step takes it in the turn of its CMD write (R240). -/
theorem exec_ready_one {s : State} {i : Instr} (ready : s.ready) (accepted : firstError (commandChecks i s) = none)
    (one : immediateSteps i = 1) : exec i s = engineStep (s.accept i (firstStage i)) := by
  obtain ⟨⟨idle, -⟩, unheld⟩ := ready
  rw [exec_run (State.busy_eq_false.2 idle) accepted unheld, one, engineRun_one]

/-- NORM as an equation (R145). -/
theorem exec_norm {s : State} {text : List Byte} (ready : s.ready) (unsealed : s.sealed = false)
    (inRange : s.tlen.toNat ≤ s.cfg.tbufSize) (written : s.telegram = some text) :
    exec .norm s = .next
      { s with
        tbuf := s.tbuf.writeBytes 0 (norm s.cfg.substEnc text)
        tlen := BitVec.ofNat 16 (norm s.cfg.substEnc text).length
        normd := true
        done := true } := by
  rw [exec_ready_one (i := .norm) ready (checksNorm_none.2 ⟨unsealed, inRange⟩) rfl,
    normStage_eq (s := s.accept .norm (firstStage .norm)) rfl rfl written, State.advance_single rfl]
  obtain ⟨⟨hrun, htx⟩, -⟩ := ready
  simp only [State.complete, State.accept, hrun, htx]

/-! ### The statements -/

/-- Settles O17: NORM writes `norm text` from TBUF[0] on, which is no longer than the telegram and so fits TLEN. -/
theorem normSubstitutesInPlace : Obligations.NormSubstitutesInPlace := by
  unfold Obligations.NormSubstitutesInPlace
  intro s text ready legal unsealed inRange written
  refine ⟨_, exec_norm ready unsealed inRange written, ?_, fun a ha => Memory.read_writeBytes_above _ _ ha, rfl⟩
  obtain ⟨-, -, -, bound⟩ := legal_bounds legal
  have old : text.length = s.tlen.toNat := Memory.readBytes_length written
  have new := norm_length_le s.cfg.substEnc text
  simp only [State.telegram]
  rw [ofNat16 (by omega)]
  exact Memory.readBytes_writeBytes _ _ _

/-- Settles O34: every byte of a header is below 0x80. -/
theorem normalizationKeepsTheHeader : Obligations.NormalizationKeepsTheHeader := by
  unfold Obligations.NormalizationKeepsTheHeader
  intro e a c rest
  simp only [List.append_assoc]
  refine ⟨?_, ?_, ?_, ?_⟩
  · rw [norm_append_of_lt (pre := [0x7A, 0x41]) (by decide), norm_enc_append]
  · rw [norm_append_of_lt (pre := [0x7A, 0x49]) (by decide), norm_enc_append]
  · exact norm_append_of_lt (by decide) e rest
  · rw [norm_append_of_lt (pre := [0x61, 0x41]) (by decide), norm_enc_append, norm_enc_append]

/-- Settles O59: 0xC3 is the second byte of no pair, so no pair straddles the cut before one. -/
theorem sevenCharactersAreSubstituted : Obligations.SevenCharactersAreSubstituted := by
  unfold Obligations.SevenCharactersAreSubstituted
  intro pre post
  refine ⟨fun row hrow => ?_, rfl, rfl, rfl, fun b hb => normUtf8_copy_of_ne hb post, fun c hc => ?_,
    fun b hb => normLatin1_copy (sub1_eq_none hb) post⟩
  · obtain ⟨pair, byte⟩ := sub_of_mem_substTable hrow
    simp only [List.append_assoc, List.cons_append, List.nil_append]
    have cut : normUtf8 (pre ++ 0xC3 :: row.1 :: post) = normUtf8 pre ++ normUtf8 (0xC3 :: row.1 :: post) :=
      normUtf8_append fun _ c hc => by cases hc; rfl
    exact ⟨cut.trans (congrArg _ (normUtf8_pair pair post)),
      (normLatin1_append pre _).trans (congrArg _ (normLatin1_replace byte post))⟩
  · refine normUtf8_copy _ _ fun _ d hd => ?_
    cases hd
    exact sub2_eq_none hc

end Sys2Proof.Machine
end

section
/-! PROOFS. The address encoder (spec 42_address_encoder.md R160 to R163): the characters of `enc`, their reading back to
base 16, and the command ADDRENC. -/

namespace Sys2Proof.Machine

/-! ### The alphabet (R160) -/

theorem alphaChar_toNat : ∀ i, (alphaChar i).toNat = 0x30 + i.toNat := by decide

theorem alphaChar_ne_zeroChar {i : BitVec 4} (h : i ≠ 0) : alphaChar i ≠ 0x30 := by
  intro e
  have code : 0x30 + i.toNat = 0x30 := by rw [← alphaChar_toNat, e]; rfl
  exact h (BitVec.eq_of_toNat_eq (Nat.add_left_cancel code))

theorem toNat_eq_nibbles (v : Byte) : v.toNat = (hiNibble v).toNat * 16 + (loNibble v).toNat := by
  have hv : v.toNat < 256 := v.isLt
  simp only [hiNibble, loNibble, BitVec.extractLsb'_toNat, Nat.shiftRight_eq_div_pow]
  omega

/-! ### The characters of `enc` (R163) -/

theorem mem_enc {v c : Byte} (h : c ∈ enc v) : ∃ i, c = alphaChar i := by
  unfold enc at h
  split at h
  · exact ⟨_, List.mem_singleton.1 h⟩
  · rcases List.mem_pair.1 h with hc | hc <;> exact ⟨_, hc⟩

theorem enc_char_range {v c : Byte} (h : c ∈ enc v) : 0x30 ≤ c.toNat ∧ c.toNat ≤ 0x3F := by
  obtain ⟨i, rfl⟩ := mem_enc h
  rw [alphaChar_toNat]
  omega

theorem enc_length_eq_one_iff (v : Byte) : (enc v).length = 1 ↔ v.toNat < 16 := by
  rw [enc_length]; split <;> omega

theorem enc_length_eq_two_iff (v : Byte) : (enc v).length = 2 ↔ 16 ≤ v.toNat := by
  rw [enc_length]; split <;> omega

theorem enc_head_ne_zeroChar {v : Byte} (h : 16 ≤ v.toNat) : (enc v).head? ≠ some 0x30 := by
  have hi : hiNibble v ≠ 0 := fun e => Nat.not_le.2 ((hiNibble_eq_zero_iff v).1 e) h
  rw [enc_of_ge h]
  exact fun e => alphaChar_ne_zeroChar hi (Option.some.inj e)

/-- `dec` of R163 (e): the characters read as digits to base 16. -/
def dec (text : List Byte) : Nat := text.foldl (fun n c => n * 16 + (c.toNat - 0x30)) 0

theorem dec_enc (v : Byte) : dec (enc v) = v.toNat := by
  have whole := toNat_eq_nibbles v
  unfold enc
  split
  · next hi =>
    have zero : (hiNibble v).toNat = 0 := congrArg BitVec.toNat hi
    simp only [dec, List.foldl_cons, List.foldl_nil, alphaChar_toNat]
    omega
  · simp only [dec, List.foldl_cons, List.foldl_nil, alphaChar_toNat]
    omega

theorem enc_injective : Function.Injective enc := fun v w h =>
  BitVec.eq_of_toNat_eq (by rw [← dec_enc v, ← dec_enc w, h])

/-! ### ADDRENC -/

/-- ADDRENC as an equation (R162). -/
theorem exec_addrenc {s : State} (ready : s.ready) :
    exec .addrenc s = .next
      { s with
        aencN := BitVec.ofNat 8 (enc s.addr).length
        aencC0 := (enc s.addr).getD 0 0x00
        aencC1 := (enc s.addr).getD 1 0x00
        done := true } := by
  rw [exec_ready_one (i := .addrenc) ready rfl rfl]
  obtain ⟨⟨hrun, htx⟩, -⟩ := ready
  simp only [engineStep, addrencStage, State.complete, State.accept, State.snapshot, firstStage, hrun, htx]

/-! ### The statements -/

/-- Settles O12: ADDRENC writes out `enc ADDR`, which is the low nibble's character alone below 16 and both nibbles'
characters from 16 on. -/
theorem addrencEncodesTheAddress : Obligations.AddrencEncodesTheAddress := by
  unfold Obligations.AddrencEncodesTheAddress
  intro s ready
  rw [exec_addrenc ready]
  refine ⟨fun small => ?_, fun large => ?_⟩
  · have low : s.addr &&& 0x0F = s.addr :=
      BitVec.eq_of_toNat_eq (Nat.and_two_pow_sub_one_of_lt_two_pow (n := 4) small)
    rw [enc_of_lt small, alphaChar_lo, low]
    rfl
  · rw [enc_of_ge large, alphaChar_hi, alphaChar_lo]
    rfl

/-- Settles O32: the two lengths, the characters and the first character follow from the shape of `enc`, and `dec` is its
left inverse. -/
theorem addressEncodingIsInjective : Obligations.AddressEncodingIsInjective := by
  unfold Obligations.AddressEncodingIsInjective
  refine ⟨fun v => ⟨enc_length_eq_one_iff v, enc_length_eq_two_iff v, fun _ => enc_char_range, fun two => ?_, dec_enc v⟩,
    rfl, fun _ _ h => enc_injective h⟩
  exact enc_head_ne_zeroChar ((enc_length_eq_two_iff v).1 two)

end Sys2Proof.Machine
end

section
/-! PROOFS. The rejections of the format and send commands (spec 43_formatter.md R181 to R184, R214) and the room an accepted
one leaves for the trailer. -/

namespace Sys2Proof.Machine

/-! ### The lengths of the telegrams in whole blocks (R201, R210) -/

theorem blocks_long (n : Nat) : blocks n Config.blockLong = (n + 15) / 16 := rfl

theorem blocks_short (n : Nat) : blocks n Config.blockShort = (n + 3) / 4 := rfl

theorem lengthZa_eq (n : Nat) :
    lengthZa n = 2 + (enc (BitVec.ofNat 8 ((n + 15) / 16))).length + 16 * ((n + 15) / 16) := by
  rw [lengthZa, Nat.add_assoc _ n, add_pad_long, encCount, blocks_long]

theorem lengthZi_eq (n : Nat) :
    lengthZi n = 2 + (enc (BitVec.ofNat 8 ((n + 3) / 4))).length + 4 * ((n + 3) / 4) := by
  rw [lengthZi, Nat.add_assoc _ n, add_pad_short, encCount, blocks_short]

theorem lengthAa_eq (a : Byte) (n l : Nat) :
    lengthAa a n l = 2 + (enc a).length + (enc (BitVec.ofNat 8 ((bodyLengthAa n l + 15) / 16))).length
      + 16 * ((bodyLengthAa n l + 15) / 16) := by
  rw [lengthAa, Nat.add_assoc _ (bodyLengthAa n l), add_pad_long, encCount, blocks_long]

/-! ### Which error a format command is rejected with (R181 to R184) -/

theorem firstError_checksZa (s : State) :
    firstError (checksZa s) =
      if s.cfg.ibufSize < s.ilen.toNat then some .len
      else if 255 < (s.ilen.toNat + 15) / 16 then some .range
      else if s.cfg.tbufSize < lengthZa s.ilen.toNat + 2 then some .ovf else none := by
  simp only [checksZa, checkIlen, checkCount, checkRoom, firstError, decide_eq_true_eq]
  rfl

theorem firstError_checksZi (s : State) :
    firstError (checksZi s) =
      if s.cfg.ibufSize < s.ilen.toNat then some .len
      else if 255 < (s.ilen.toNat + 3) / 4 then some .range
      else if s.cfg.tbufSize < lengthZi s.ilen.toNat + 2 then some .ovf else none := by
  simp only [checksZi, checkIlen, checkCount, checkRoom, firstError, decide_eq_true_eq]
  rfl

theorem firstError_checksV (s : State) :
    firstError (checksV s) =
      if s.cfg.ibufSize < s.ilen.toNat then some .len
      else if s.cfg.tbufSize < lengthV s.ilen.toNat + 2 then some .ovf else none := by
  simp only [checksV, checkIlen, checkRoom, firstError, decide_eq_true_eq]

theorem firstError_checksAa (s : State) :
    firstError (checksAa s) =
      if s.cfg.ibufSize < s.ilen.toNat then some .len
      else if s.ilen.toNat < s.l1len.toNat then some .len
      else if 255 < (bodyLengthAa s.ilen.toNat s.l1len.toNat + 15) / 16 then some .range
      else if s.cfg.tbufSize < lengthAa s.addr s.ilen.toNat s.l1len.toNat + 2 then some .ovf else none := by
  simp only [checksAa, checkIlen, checkL1len, checkCount, checkRoom, firstError, decide_eq_true_eq]
  rfl

/-- Every format command checks ILEN first (R181). -/
theorem firstError_of_ibufSize_lt {s : State} (long : s.cfg.ibufSize < s.ilen.toNat) (k : TelegramKind) :
    firstError (commandChecks (fmtCommand k) s) = some .len := by
  cases k with
  | za => exact (firstError_checksZa s).trans (if_pos long)
  | zi => exact (firstError_checksZi s).trans (if_pos long)
  | v => exact (firstError_checksV s).trans (if_pos long)
  | aa => exact (firstError_checksAa s).trans (if_pos long)

theorem bodyLengthAa_le (n l : Nat) : bodyLengthAa n l ≤ n + 3 := by
  unfold bodyLengthAa; split <;> omega

/-- RANGE needs an IBUF of more than 1020 bytes (R214). -/
theorem firstError_ne_range {s : State} (small : s.cfg.ibufSize ≤ 1020) (k : TelegramKind) :
    firstError (commandChecks (fmtCommand k) s) ≠ some .range := by
  by_cases long : s.cfg.ibufSize < s.ilen.toNat
  · rw [firstError_of_ibufSize_lt long]
    decide
  cases k with
  | za =>
    have count : ¬255 < (s.ilen.toNat + 15) / 16 := by omega
    exact (firstError_checksZa s).trans_ne (by rw [if_neg long, if_neg count]; split_ifs <;> decide)
  | zi =>
    have count : ¬255 < (s.ilen.toNat + 3) / 4 := by omega
    exact (firstError_checksZi s).trans_ne (by rw [if_neg long, if_neg count]; split_ifs <;> decide)
  | v => exact (firstError_checksV s).trans_ne (by rw [if_neg long]; split <;> decide)
  | aa =>
    have body := bodyLengthAa_le s.ilen.toNat s.l1len.toNat
    have count : ¬255 < (bodyLengthAa s.ilen.toNat s.l1len.toNat + 15) / 16 := by omega
    exact (firstError_checksAa s).trans_ne (by rw [if_neg long, if_neg count]; split_ifs <;> decide)

/-! ### The telegram of an accepted command -/

/-- The FMT stage of an accepted command writes the telegram of the operands as they stand at acceptance: line 1 and line 2
are the two parts of the text (R193). -/
theorem Run.formatted_of_accepted {s : State} {i : Instr} {k : TelegramKind} {out : List Byte} (g : Stage)
    (kind : telegramKind i = some k) (accepted : firstError (commandChecks i s) = none)
    (ho : s.formatted k = some out) :
    Run.formatted { cur := i, stage := g, snap := s.snapshot } k s = some out := by
  cases k with
  | za => exact ho
  | zi => exact ho
  | v => exact ho
  | aa =>
    rw [commandChecks_kind kind] at accepted
    obtain ⟨-, hsplit, -, -⟩ := checksAa_none.1 accepted
    obtain ⟨text, read, rfl⟩ := Option.map_eq_some_iff.1 ho
    have line1 : (text.take s.l1len.toNat).length = s.l1len.toNat := by
      rw [List.length_take, Memory.readBytes_length read, Nat.min_eq_left hsplit]
    rw [← List.take_append_drop s.l1len.toNat text] at read
    obtain ⟨hp, hq⟩ := Memory.readBytes_split read line1
    rw [Nat.zero_add] at hq
    simp only [Run.formatted, inputLine1, inputLine2, State.snapshot, hp, hq]

/-! ### The statement -/

theorem telegramKind_fmt_or_send {i : Instr} {k : TelegramKind} (h : i = fmtCommand k ∨ i = sendCommand k) :
    telegramKind i = some k := by
  rcases h with rfl | rfl <;> cases k <;> rfl

/-- Settles O21: each answer is the branch of the checks' case distinction that the hypotheses select, and a rejection is
`State.reject`. -/
theorem formatAndSendRejections : Obligations.FormatAndSendRejections := by
  unfold Obligations.FormatAndSendRejections
  intro s i k idle hi
  have kind := telegramKind_fmt_or_send hi
  have checks := commandChecks_kind kind
  have reject (e : ErrCode) (he : firstError (commandChecks (fmtCommand k) s) = some e) :
      exec i s = .next { s with err := true, errcode := e, done := true } := exec_reject idle (checks ▸ he)
  refine ⟨fun long => reject _ (firstError_of_ibufSize_lt long k), fun fits => ?_, fun hcfg => ?_,
    fun out accepted ho => formatted_room (r := { cur := i, stage := .fmt k, snap := s.snapshot }) kind rfl rfl rfl accepted
      (Run.formatted_of_accepted _ kind accepted ho)⟩
  · have notLong := Nat.not_lt.2 fits
    refine ⟨?_, ?_, ?_, ?_⟩
    · rintro rfl
      refine ⟨fun many => reject _ ?_, fun few full => reject _ ?_⟩
      · exact (firstError_checksZa s).trans (by rw [if_neg notLong, if_pos many])
      · rw [← lengthZa_eq] at full
        exact (firstError_checksZa s).trans (by rw [if_neg notLong, if_neg (Nat.not_lt.2 few), if_pos full])
    · rintro rfl
      refine ⟨fun many => reject _ ?_, fun few full => reject _ ?_⟩
      · exact (firstError_checksZi s).trans (by rw [if_neg notLong, if_pos many])
      · rw [← lengthZi_eq] at full
        exact (firstError_checksZi s).trans (by rw [if_neg notLong, if_neg (Nat.not_lt.2 few), if_pos full])
    · rintro rfl full
      have full' : s.cfg.tbufSize < lengthV s.ilen.toNat + 2 := by rw [lengthV]; omega
      exact reject _ ((firstError_checksV s).trans (by rw [if_neg notLong, if_pos full']))
    · rintro rfl
      refine ⟨fun wrong => reject _ ?_, fun c hsplit hc => ?_⟩
      · exact (firstError_checksAa s).trans (by rw [if_neg notLong, if_pos wrong])
      · change c = (bodyLengthAa s.ilen.toNat s.l1len.toNat + 15) / 16 at hc
        subst hc
        refine ⟨fun many => reject _ ?_, fun few full => reject _ ?_⟩
        · exact (firstError_checksAa s).trans (by rw [if_neg notLong, if_neg (Nat.not_lt.2 hsplit), if_pos many])
        · rw [← lengthAa_eq] at full
          exact (firstError_checksAa s).trans
            (by rw [if_neg notLong, if_neg (Nat.not_lt.2 hsplit), if_neg (Nat.not_lt.2 few), if_pos full])
  · rw [checks]
    exact firstError_ne_range (by rw [hcfg]; decide) k

end Sys2Proof.Machine
end

section
/-! PROOFS. The sealer (spec 44_sealer.md R220 to R222): the command SEAL. -/

namespace Sys2Proof.Machine

/-! ### SEAL -/

/-- TLEN after the trailer, in the engine's spelling and as a register sum. -/
theorem ofNat16_add_two (n : Half) : BitVec.ofNat 16 (n.toNat + 2) = n + 2 :=
  BitVec.eq_of_toNat_eq (by simp)

/-- SEAL as an equation (R220): the placeholder of its first step is gone after its second. -/
theorem exec_sealTelegram {s : State} {body : List Byte} (ready : s.ready) (unsealed : s.sealed = false)
    (room : s.tlen.toNat + 2 ≤ s.cfg.tbufSize) (written : s.telegram = some body) :
    exec .sealTelegram s = .next
      { s with
        tbuf := (s.tbuf.write s.tlen.toNat Config.cr).write (s.tlen.toNat + 1) (chk (body ++ [Config.cr]))
        tlen := s.tlen + 2
        csum := chk (body ++ [Config.cr])
        sealed := true
        done := true } := by
  obtain ⟨⟨hrun, htx⟩, unheld⟩ := ready
  have accepted : firstError (commandChecks .sealTelegram s) = none :=
    checksSeal_none.2 ⟨unsealed, by omega, room⟩
  have run := engineRun_seal (s := s.accept .sealTelegram .sealSum) rfl rfl rfl written
  rw [State.advance_single rfl, State.accept_tlen, ofNat16_add_two] at run
  rw [exec_run (State.busy_eq_false.2 hrun) accepted unheld]
  refine run.trans ?_
  simp only [State.complete, State.accept, hrun, htx]

/-! ### The statement -/

/-- Settles O18: the two writes of SEAL are the trailer behind the body, and leave every other index of TBUF alone. -/
theorem sealAppendsTheTrailer : Obligations.SealAppendsTheTrailer := by
  unfold Obligations.SealAppendsTheTrailer
  intro s body k ready legal unsealed room written hk
  change k = chk (body ++ [Config.cr]) at hk
  subst hk
  refine ⟨_, exec_sealTelegram ready unsealed room written, ?_, fun a hcr hsum => ?_, rfl⟩
  · obtain ⟨-, -, -, bound⟩ := legal_bounds legal
    have noWrap : (s.tlen + 2).toNat = s.tlen.toNat + 2 := by
      rw [← ofNat16_add_two, ofNat16 (by omega)]
    simp only [State.telegram]
    rw [noWrap]
    exact Memory.readBytes_trailer written _ _
  · exact (Memory.read_write_other _ _ hsum).trans (Memory.read_write_other _ _ hcr)

end Sys2Proof.Machine
end

section
/-! PROOFS. The transmit control (spec 45_transmit_control.md R243, R250, R251): the commands NOP and CLEAR, and an offer that
the sink answers with FAIL. -/

namespace Sys2Proof.Machine

/-! ### NOP and CLEAR -/

/-- Completion with nothing to end: BUSY and `tx_valid` are 0 already. -/
theorem State.complete_of_idle {s : State} (idle : s.idle) : s.complete = { s with done := true } := by
  obtain ⟨hrun, htx⟩ := idle
  simp only [State.complete, hrun, htx]

/-- NOP's one step forgets its acceptance (R250). -/
theorem engineStep_acceptNop (s : State) : engineStep (s.accept .nop .nop) = .next s.complete := rfl

/-- CLEAR's one step keeps nothing of its acceptance (R251). -/
theorem engineStep_acceptClear (s : State) :
    engineStep (s.accept .clear .clear) =
      .next ({ s with tlen := 0, fmtd := false, normd := false, sealed := false } : State).complete := rfl

/-- Settles O10: NOP has no checks, and its one step is a completion. -/
theorem nopSetsDoneOnly : Obligations.NopSetsDoneOnly := by
  unfold Obligations.NopSetsDoneOnly
  intro s ready
  rw [exec_ready_one (i := .nop) ready rfl rfl, firstStage, engineStep_acceptNop, State.complete_of_idle ready.1]

/-- Settles O11: CLEAR has no checks, and its one step completes the cleared state, in which no command runs either. -/
theorem clearDiscardsTheTelegram : Obligations.ClearDiscardsTheTelegram := by
  unfold Obligations.ClearDiscardsTheTelegram
  intro s ready
  rw [exec_ready_one (i := .clear) ready rfl rfl, firstStage, engineStep_acceptClear]
  exact congrArg Host.Outcome.next (State.complete_of_idle ready.1)

/-! ### The sink's answer -/

/-- A hold does not keep the sink from answering the byte on offer (R11, R96). -/
theorem engineTurn_offered {s : State} {b : Byte} (offered : s.tx = some b) : engineTurn s = engineStep s := by
  simp [engineTurn, offered]

/-- FAIL decides the offer, whatever `tx_ready` is (R96, R243). -/
theorem engineStep_fail {s : State} {r : Run} {x : Nat} {b : Byte} (running : s.run = some r) (stage : r.stage = .xmit x)
    (offered : s.tx = some b) (fail : s.pins.txFail = true) :
    engineStep s = .next (s.recordError .txfail).complete := by
  rw [xmitStage_eq running stage]
  simp only [xmitStage, offered, fail, if_true]

/-- With XIDX = x the sink's output ends in TBUF[0..x). -/
theorem State.Inv.sinkOut_endsIn_accepted {s : State} (inv : s.Inv) {r : Run} {x : Nat} (running : s.run = some r)
    (stage : r.stage = .xmit x) : ∃ before sent, s.tbuf.readBytes 0 x = some sent ∧ s.sinkOut = before ++ sent := by
  obtain ⟨-, -, -, -, agrees⟩ := inv.running running
  simp only [State.stageAgrees, stage] at agrees
  obtain ⟨-, -, -, -, accepted⟩ := agrees
  exact accepted

/-- Settles O27: the turn is the engine's step, which records TXFAIL and completes; the invariant says that the sink's output
ends in TBUF[0..XIDX). -/
theorem failedOfferEndsTheTransfer : Obligations.FailedOfferEndsTheTransfer := by
  unfold Obligations.FailedOfferEndsTheTransfer
  intro s p rest r x b turnNext noHost running stage offered fail
  have failed : step s = .next ((s.withTurn p rest).recordError .txfail).complete := calc
    step s = engineTurn (s.withTurn p rest) := step_noHost turnNext noHost (State.busy_eq_true.2 ⟨r, running⟩)
    _ = engineStep (s.withTurn p rest) := engineTurn_offered offered
    _ = _ := engineStep_fail running stage offered fail
  exact ⟨_, failed, rfl, fun inv => inv.sinkOut_endsIn_accepted running stage⟩

end Sys2Proof.Machine
end

section
/-! PROOFS. Hazards (spec 70_reset_and_hazards.md R310 to R312): a CMD write to a busy block. -/

namespace Sys2Proof.Machine

/-- Settles O5: a command and a reserved byte are dropped alike, and what is recorded is ERR and ERRCODE alone. -/
theorem busyCommandWriteIsDropped : Obligations.BusyCommandWriteIsDropped := by
  unfold Obligations.BusyCommandWriteIsDropped
  intro s c busy
  calc
    writeCmd s c = .next (s.recordError .busy) := writeCmd_busy busy c
    _ = .next { s with err := true, errcode := .busy } := rfl

end Sys2Proof.Machine
end

section
/-! PROOFS. The command map is one to one (spec 30_encoding.md R113, R114). -/

namespace Sys2Proof.Machine

/-- Settles O1: `decode` has `encode` as its inverse on the commands, and every command is well formed. -/
theorem decodeInvertsEncode : Obligations.DecodeInvertsEncode := by
  unfold Obligations.DecodeInvertsEncode
  intro i c _
  exact decode_eq_command_iff

end Sys2Proof.Machine
end

section
/-! PROOFS. What every step keeps: the parts of a turn, canonical buffers and the parameters (spec 10_state.md R30, R50,
R51). -/

namespace Sys2Proof.Machine

/-! ### One step, part by part -/

/-- `P` survives each part of which a turn is made. -/
structure KeptByParts (P : State → Prop) : Prop where
  reset : ∀ s, P s → P (resetTurn s)
  sample : ∀ s, P s → P (sampleInputs s)
  read : ∀ s, P s → P (hostRead s)
  write : ∀ s a v, P s → P (writeLoc s (locate s.cfg a) v)
  drop : ∀ s, P s → P (s.recordError .busy)
  reject : ∀ s e, e ≠ .none → P s → P (s.reject e)
  accept : ∀ s i, s.busy = false → firstError (commandChecks i s) = none → P s → P (s.accept i (firstStage i))
  engine : ∀ s t, P s → EngineMove s t → P t

theorem HostMove.keeps {P : State → Prop} (parts : KeptByParts P) {s t : State} (hs : P s) (h : HostMove s t) : P t := by
  cases h with
  | none _ => exact hs
  | write _ _ => exact parts.write _ _ _ hs
  | drop _ _ _ => exact parts.drop _ hs
  | reject e _ _ _ he => exact parts.reject _ e he hs
  | accept i n _ _ _ idle _ passed _ run => exact engineRun_induction parts.engine (parts.accept _ i idle passed hs) run

theorem step_keeps {P : State → Prop} (parts : KeptByParts P) {s t : State} (hs : P s) (h : step s = .next t) : P t := by
  have sampled := parts.sample s hs
  cases step_cases h with
  | reset _ => exact parts.reset _ sampled
  | host _ _ host => exact host.keeps parts (parts.read _ sampled)
  | engine u _ _ _ host engine => exact parts.engine u t (host.keeps parts (parts.read _ sampled)) engine

/-! ### A host write to a location -/

/-- What a host write that is no CMD write can do (R87, R90, R91). -/
inductive WriteMove (s : State) (l : Loc) (v : Byte) : State → Prop where
  | same : WriteMove s l v s
  | status (hl : l = .status) : WriteMove s l v (s.writeStatus v)
  | ctrl (hl : l = .ctrl) : WriteMove s l v (s.writeCtrl v)
  | operand (idle : s.busy = false) (a : Byte) (n k : Half) : WriteMove s l v { s with addr := a, ilen := n, l1len := k }
  | tlen (idle : s.busy = false) (unsealed : s.sealed = false) (n : Half) : WriteMove s l v { s with tlen := n }
  | ibuf (idle : s.busy = false) (i : Nat) (hl : l = .ibuf i) : WriteMove s l v { s with ibuf := s.ibuf.write i v }
  | tbuf (idle : s.busy = false) (unsealed : s.sealed = false) (i : Nat) (hl : l = .tbuf i) :
      WriteMove s l v { s with tbuf := s.tbuf.write i v }

theorem writeLoc_cases (s : State) (l : Loc) (v : Byte) : WriteMove s l v (writeLoc s l v) := by
  cases busy : s.busy with
  | true =>
    rcases writeLoc_busy busy l v with h | ⟨hl, h⟩ | ⟨hl, h⟩ <;> rw [h]
    · exact .same
    · exact .status hl
    · exact .ctrl hl
  | false =>
    have frozen (t : State) (move : s.sealed = false → WriteMove s l v t) :
        WriteMove s l v (if s.sealed then s else t) := by
      split
      · exact .same
      · next h => exact move (Bool.not_eq_true _ ▸ h)
    cases l <;> simp only [writeLoc, busy, Bool.false_or, Bool.false_eq_true, if_false]
    case status => exact .status rfl
    case ctrl => exact .ctrl rfl
    case addr => exact .operand busy _ _ _
    case ilenLo | ilenHi | l1lenLo | l1lenHi => exact .operand busy _ _ _
    case tlenLo | tlenHi => exact frozen _ fun h => .tlen busy h _
    case ibuf i => exact .ibuf busy i rfl
    case tbuf i => exact frozen _ fun h => .tbuf busy h i rfl
    all_goals exact .same

/-! ### Canonical buffers -/

theorem WriteMove.buffersCanonical {s t : State} {l : Loc} {v : Byte} (hs : s.buffersCanonical) (h : WriteMove s l v t) :
    t.buffersCanonical := by
  obtain ⟨ibuf, tbuf⟩ := hs
  cases h with
  | ibuf _ i _ => exact ⟨Memory.wf_write ibuf i v, tbuf⟩
  | tbuf _ _ i _ => exact ⟨ibuf, Memory.wf_write tbuf i v⟩
  | same | status _ | ctrl _ | operand _ _ _ _ | tlen _ _ _ => exact ⟨ibuf, tbuf⟩

theorem EngineMove.buffersCanonical {s t : State} (hs : s.buffersCanonical) (h : EngineMove s t) :
    t.buffersCanonical := by
  obtain ⟨ibuf, tbuf⟩ := hs
  refine ⟨h.keeps.ibuf ▸ ibuf, ?_⟩
  cases h with
  | fmt | norm => simpa using Memory.wf_writeBytes tbuf _ _
  | sealSum => simpa using Memory.wf_write (Memory.wf_write tbuf _ _) _ _
  | sealTail => simpa using Memory.wf_write tbuf _ _
  | idle | nop | clear | addrenc | txFail | txAccept | txPending | txOffer | txDone => exact tbuf

theorem buffersCanonical_keptByParts : KeptByParts State.buffersCanonical where
  reset s _ := by
    obtain ⟨ibuf, tbuf⟩ := resetTurn_buffers s
    exact ⟨ibuf ▸ .nil, tbuf ▸ .nil⟩
  sample _ hs := hs
  read s hs := by rw [hostRead_eq]; exact hs
  write s _ _ hs := (writeLoc_cases s _ _).buffersCanonical hs
  drop _ hs := hs
  reject _ _ _ hs := hs
  accept _ _ _ _ hs := hs
  engine _ _ hs h := h.buffersCanonical hs

/-- Settles O52: every write to a buffer keeps its indices rising, and a reset empties both. -/
theorem everyStepKeepsBuffersCanonical : Obligations.EveryStepKeepsBuffersCanonical := by
  unfold Obligations.EveryStepKeepsBuffersCanonical
  exact fun _ _ => step_keeps buffersCanonical_keptByParts

/-! ### The parameters -/

theorem cfg_keptByParts (c : Params) : KeptByParts (fun s => s.cfg = c) where
  reset _ hs := (resetTurn_cfg _).trans hs
  sample _ hs := hs
  read s hs := (hostRead_cfg s).trans hs
  write _ _ _ hs := (writeLoc_keeps _ _ _).cfg.trans hs
  drop _ hs := hs
  reject _ _ _ hs := hs
  accept _ _ _ _ hs := hs
  engine _ _ hs h := h.keeps.cfg.trans hs

/-- Settles O58: no part of a turn writes them. -/
theorem parametersNeverChange : Obligations.ParametersNeverChange := by
  unfold Obligations.ParametersNeverChange
  exact fun s _ => step_keeps (cfg_keptByParts s.cfg) rfl

end Sys2Proof.Machine
end

section
/-! PROOFS. The invariant of the machine is kept by every step (spec 10_state.md sections 3 to 6, 44_sealer.md section 3,
45_transmit_control.md, 60_exceptions.md section 1). -/

namespace Sys2Proof.Machine

/-! ### The stored part of the invariant -/

/-- The invariant but for the sequencer: parameters, buffers, error record and sealed telegram. -/
structure State.StoreOk (s : State) : Prop where
  legal : s.cfg.legal = true
  canonical : s.buffersCanonical
  inRange : s.buffersInRange
  errorRecord : s.errorRecordAgrees
  sealedOk : s.sealedTelegram

theorem State.Inv.storeOk {s : State} (h : s.Inv) : s.StoreOk :=
  ⟨h.legal, h.canonical, h.inRange, h.errorRecord, h.sealedOk⟩

theorem State.StoreOk.inv {s : State} (h : s.StoreOk) (sequencer : s.sequencerAgrees) : s.Inv :=
  ⟨h.legal, h.canonical, h.inRange, h.errorRecord, h.sealedOk, sequencer⟩

/-- The stored part reads these fields only. -/
theorem State.StoreOk.congr {s t : State} (h : s.StoreOk) (cfg : t.cfg = s.cfg) (ibuf : t.ibuf = s.ibuf)
    (tbuf : t.tbuf = s.tbuf) (err : t.err = s.err) (errcode : t.errcode = s.errcode) (frozen : t.sealed = s.sealed)
    (tlen : t.tlen = s.tlen) (csum : t.csum = s.csum) : t.StoreOk := by
  obtain ⟨h1, h2, h3, h4, h5⟩ := h
  constructor <;>
    simp only [State.buffersCanonical, State.buffersInRange, State.errorRecordAgrees, State.sealedTelegram, State.telegram,
      cfg, ibuf, tbuf, err, errcode, frozen, tlen, csum] <;>
    assumption

theorem State.StoreOk.recordError {s : State} (h : s.StoreOk) {e : ErrCode} (he : e ≠ .none) :
    (s.recordError e).StoreOk :=
  ⟨h.legal, h.canonical, h.inRange, iff_of_true rfl he, h.sealedOk⟩

/-- An unsealed telegram may be replaced by anything that stays inside TBUF. -/
theorem State.StoreOk.replaceTbuf {s t : State} (h : s.StoreOk) (cfg : t.cfg = s.cfg) (ibuf : t.ibuf = s.ibuf)
    (err : t.err = s.err) (errcode : t.errcode = s.errcode) (unsealed : t.sealed = false) (canonical : t.tbuf.wf)
    (inRange : t.tbuf.below s.cfg.tbufSize) : t.StoreOk where
  legal := cfg ▸ h.legal
  canonical := ⟨ibuf ▸ h.canonical.1, canonical⟩
  inRange := ⟨by rw [ibuf, cfg]; exact h.inRange.1, by rw [cfg]; exact inRange⟩
  errorRecord := by unfold State.errorRecordAgrees; rw [err, errcode]; exact h.errorRecord
  sealedOk frozen := by rw [unsealed] at frozen; cases frozen

/-! ### The sequencer after a stage -/

theorem sequencerAgrees_of_idle {s : State} (idle : s.idle) : s.sequencerAgrees := by
  simp only [State.sequencerAgrees, idle.1, idle.2]

theorem State.StoreOk.inv_of_idle {s : State} (h : s.StoreOk) (idle : s.idle) : s.Inv :=
  h.inv (sequencerAgrees_of_idle idle)

theorem State.StoreOk.complete_inv {s : State} (h : s.StoreOk) : s.complete.Inv :=
  State.StoreOk.inv_of_idle (h.congr rfl rfl rfl rfl rfl rfl rfl rfl) ⟨rfl, rfl⟩

/-- The snapshot still equals the locked operands (R92). -/
def Run.snapAgrees (r : Run) (s : State) : Prop :=
  r.snap.addr = s.addr ∧ r.snap.ilen = s.ilen ∧ r.snap.l1len = s.l1len ∧ (isSend r.cur = false → r.snap.tlen = s.tlen)

theorem sequencerAgrees_running {s : State} {r : Run} (h : s.run = some r) :
    s.sequencerAgrees ↔ r.snapAgrees s ∧ s.stageAgrees r := by
  simp only [State.sequencerAgrees, h, Run.snapAgrees, and_assoc]

theorem State.StoreOk.inv_of_running {s : State} (r : Run) (store : s.StoreOk) (h : s.run = some r) (snap : r.snapAgrees s)
    (agrees : s.stageAgrees r) : s.Inv := store.inv ((sequencerAgrees_running h).2 ⟨snap, agrees⟩)

/-- A stage that ends leaves a consistent state if, inside a SEND, the next stage's condition holds. -/
theorem State.StoreOk.advance_inv {s t : State} {r : Run} {g : Stage} (store : t.StoreOk) (snap : r.snapAgrees s)
    (addr : t.addr = s.addr) (ilen : t.ilen = s.ilen) (l1len : t.l1len = s.l1len)
    (next : isSend r.cur = true → (t.toStage r g).stageAgrees { r with stage := g }) : (t.advance r g).Inv := by
  cases send : isSend r.cur with
  | false =>
    rw [State.advance_single send]
    exact store.complete_inv
  | true =>
    obtain ⟨h1, h2, h3, -⟩ := snap
    rw [State.advance_send send]
    refine State.StoreOk.inv_of_running { r with stage := g } (store.congr rfl rfl rfl rfl rfl rfl rfl rfl) rfl
      ⟨h1.trans addr.symm, h2.trans ilen.symm, h3.trans l1len.symm, fun single => ?_⟩ (next send)
    rw [send] at single
    cases single

/-- What the invariant says of a running command, in two parts. -/
theorem State.Inv.run_agrees {s : State} (hs : s.Inv) {r : Run} (h : s.run = some r) : r.snapAgrees s ∧ s.stageAgrees r :=
  (sequencerAgrees_running h).1 hs.sequencer

/-- In a consistent state each stage works on TBUF[0..TLEN). -/
theorem State.Inv.workLength_eq {s : State} (hs : s.Inv) {r : Run} (h : s.run = some r) :
    workLength r s = s.tlen.toNat :=
  Machine.workLength_eq (hs.run_agrees h).1.2.2.2

/-! ### What a stage's condition says -/

theorem stageAgrees_fmt {s : State} {r : Run} {k : TelegramKind} (hg : r.stage = .fmt k) :
    s.stageAgrees r ↔ telegramKind r.cur = some k ∧ firstError (commandChecks r.cur s) = none ∧ s.tx = none := by
  simp only [State.stageAgrees, hg]

theorem stageAgrees_norm {s : State} {r : Run} (hg : r.stage = .norm) :
    s.stageAgrees r ↔
      (r.cur = .norm ∨ isSend r.cur = true ∧ s.tlen.toNat + 2 ≤ s.cfg.tbufSize) ∧ s.sealed = false ∧
        s.tlen.toNat ≤ s.cfg.tbufSize ∧ s.tx = none := by
  simp only [State.stageAgrees, hg]

theorem stageAgrees_sealSum {s : State} {r : Run} (hg : r.stage = .sealSum) :
    s.stageAgrees r ↔
      (r.cur = .sealTelegram ∨ isSend r.cur = true) ∧ s.sealed = false ∧ s.tlen.toNat + 2 ≤ s.cfg.tbufSize ∧
        s.tx = none := by
  simp only [State.stageAgrees, hg]

theorem stageAgrees_sealTail {s : State} {r : Run} {acc : Byte} (hg : r.stage = .sealTail acc) :
    s.stageAgrees r ↔
      (r.cur = .sealTelegram ∨ isSend r.cur = true) ∧ s.sealed = false ∧ s.tlen.toNat + 2 ≤ s.cfg.tbufSize ∧
        s.tx = none ∧
        ∃ b, s.telegram = some b ∧ s.tbuf.read s.tlen.toNat = some Config.cr ∧ acc = chk (b ++ [Config.cr]) := by
  simp only [State.stageAgrees, hg]

theorem stageAgrees_xmit {s : State} {r : Run} {x : Nat} (hg : r.stage = .xmit x) :
    s.stageAgrees r ↔
      (r.cur = .xmit ∨ isSend r.cur = true) ∧ s.sealed = true ∧ x ≤ s.tlen.toNat ∧
        (∀ b, s.tx = some b → x < s.tlen.toNat ∧ s.tbuf.read x = some b) ∧
        ∃ before sent, s.tbuf.readBytes 0 x = some sent ∧ s.sinkOut = before ++ sent := by
  simp only [State.stageAgrees, hg]

/-! ### One engine step -/

/-- A write behind a byte string does not change it. -/
theorem Memory.readBytes_write_above (m : Memory) {n a : Nat} (v : Byte) (h : n ≤ a) :
    (m.write a v).readBytes 0 n = m.readBytes 0 n :=
  Memory.readBytes_congr fun i hi => Memory.read_write_other _ _ (by omega)

/-- What fits TBUF is at most 1024 bytes long (R8). -/
theorem State.Inv.le_1024 {s : State} (hs : s.Inv) {n : Nat} (h : n ≤ s.cfg.tbufSize) : n ≤ 1024 :=
  h.trans (legal_bounds hs.legal).2.2.2

/-- FMT commits a telegram that leaves room for the trailer (R184, R185). -/
theorem inv_fmt {s : State} {r : Run} {k : TelegramKind} {out : List Byte} (hs : s.Inv) (h : s.run = some r)
    (hg : r.stage = .fmt k) (ho : r.formatted k s = some out) : ((s.commitTelegram out).advance r .norm).Inv := by
  obtain ⟨snap, agrees⟩ := hs.run_agrees h
  obtain ⟨kind, passed, htx⟩ := (stageAgrees_fmt hg).1 agrees
  have ⟨addr, ilen, l1len, _⟩ := snap
  have room := formatted_room kind addr ilen l1len passed ho
  have len : (BitVec.ofNat 16 out.length).toNat = out.length := ofNat16 (hs.le_1024 (by omega))
  refine State.StoreOk.advance_inv ?_ snap rfl rfl rfl fun send => ?_
  · exact hs.storeOk.replaceTbuf rfl rfl rfl rfl rfl (Memory.wf_writeBytes hs.canonical.2 0 out)
      (Memory.below_writeBytes hs.inRange.2 (by omega))
  · refine (stageAgrees_norm rfl).2 ⟨.inr ⟨send, ?_⟩, rfl, ?_, htx⟩ <;>
      simp only [State.toStage_tlen, State.toStage_cfg, State.commitTelegram_tlen, State.commitTelegram_cfg, len] <;> omega

/-- NORM writes no longer a telegram than it read (R144). -/
theorem inv_norm {s : State} {r : Run} {text : List Byte} (hs : s.Inv) (h : s.run = some r) (hg : r.stage = .norm)
    (ht : s.tbuf.readBytes 0 (workLength r s) = some text) :
    (({ s with
        tbuf := s.tbuf.writeBytes 0 (norm s.cfg.substEnc text)
        tlen := BitVec.ofNat 16 (norm s.cfg.substEnc text).length
        normd := true } : State).advance r .sealSum).Inv := by
  obtain ⟨snap, agrees⟩ := hs.run_agrees h
  obtain ⟨cur, unsealed, inRange, htx⟩ := (stageAgrees_norm hg).1 agrees
  have old := Memory.readBytes_length ht
  rw [hs.workLength_eq h] at old
  have new := norm_length_le s.cfg.substEnc text
  have len : (BitVec.ofNat 16 (norm s.cfg.substEnc text).length).toNat = (norm s.cfg.substEnc text).length :=
    ofNat16 (hs.le_1024 (by omega))
  refine State.StoreOk.advance_inv ?_ snap rfl rfl rfl fun send => ?_
  · exact hs.storeOk.replaceTbuf rfl rfl rfl rfl unsealed (Memory.wf_writeBytes hs.canonical.2 0 _)
      (Memory.below_writeBytes hs.inRange.2 (by omega))
  · have room : s.tlen.toNat + 2 ≤ s.cfg.tbufSize := by
      rcases cur with cur | ⟨-, room⟩
      · rw [cur] at send; cases send
      · exact room
    refine (stageAgrees_sealSum rfl).2 ⟨.inr send, unsealed, ?_, htx⟩
    simp only [State.toStage_tlen, State.toStage_cfg, len]
    omega

/-- The first step of SEAL leaves CR behind the telegram, the placeholder behind that, and the checksum in ACC (R220). -/
theorem inv_sealSum {s : State} {r : Run} {text : List Byte} (hs : s.Inv) (h : s.run = some r) (hg : r.stage = .sealSum)
    (ht : s.tbuf.readBytes 0 (workLength r s) = some text) :
    (({ s with
        tbuf := (s.tbuf.write (workLength r s) Config.cr).write (workLength r s + 1) Config.placeholder } :
          State).toStage r (.sealTail (chk (text ++ [Config.cr])))).Inv := by
  obtain ⟨snap, agrees⟩ := hs.run_agrees h
  obtain ⟨cur, unsealed, room, htx⟩ := (stageAgrees_sealSum hg).1 agrees
  rw [hs.workLength_eq h] at ht ⊢
  have read : ((s.tbuf.write s.tlen.toNat Config.cr).write (s.tlen.toNat + 1) Config.placeholder).readBytes 0 s.tlen.toNat =
      some text := by rw [Memory.readBytes_write_above _ _ (Nat.le_succ _), Memory.readBytes_write_above _ _ (Nat.le_refl _), ht]
  have cr : ((s.tbuf.write s.tlen.toNat Config.cr).write (s.tlen.toNat + 1) Config.placeholder).read s.tlen.toNat =
      some Config.cr := by rw [Memory.read_write_other _ _ (by omega), Memory.read_write_same]
  refine State.StoreOk.inv_of_running { r with stage := .sealTail (chk (text ++ [Config.cr])) } ?_ rfl snap
    ⟨cur, unsealed, room, htx, text, read, cr, rfl⟩
  exact hs.storeOk.replaceTbuf rfl rfl rfl rfl unsealed (Memory.wf_write (Memory.wf_write hs.canonical.2 _ _) _ _)
    (Memory.below_write (Memory.below_write hs.inRange.2 (by omega) _) (by omega) _)

/-- The second step of SEAL completes the trailer (R220, R225). -/
theorem inv_sealTail {s : State} {r : Run} {acc : Byte} (hs : s.Inv) (h : s.run = some r) (hg : r.stage = .sealTail acc) :
    (({ s with
        tbuf := s.tbuf.write (workLength r s + 1) acc
        tlen := BitVec.ofNat 16 (workLength r s + 2)
        csum := acc
        sealed := true } : State).advance r (.xmit 0)).Inv := by
  obtain ⟨snap, agrees⟩ := hs.run_agrees h
  obtain ⟨-, -, room, htx, body, read, cr, rfl⟩ := (stageAgrees_sealTail hg).1 agrees
  rw [hs.workLength_eq h]
  have len : (BitVec.ofNat 16 (s.tlen.toNat + 2)).toNat = s.tlen.toNat + 2 := ofNat16 (hs.le_1024 room)
  have bodyLen := Memory.readBytes_length read
  have whole : (s.tbuf.write (s.tlen.toNat + 1) (chk (body ++ [Config.cr]))).readBytes 0 (s.tlen.toNat + 2) =
      some (body ++ [Config.cr, chk (body ++ [Config.cr])]) := by
    rw [Memory.readBytes_write_end, Memory.readBytes_succ read (by simpa using cr)]
    simp
  refine State.StoreOk.advance_inv ?_ snap rfl rfl rfl fun send => ?_
  · refine ⟨hs.legal, ⟨hs.canonical.1, Memory.wf_write hs.canonical.2 _ _⟩,
      ⟨hs.inRange.1, Memory.below_write hs.inRange.2 (by omega) _⟩, hs.errorRecord,
      fun _ => ⟨body, ?_, ?_, len.trans_le room, rfl⟩⟩
    · simp only [State.telegram]; rw [len]; exact whole
    · exact len.trans (by omega)
  · refine (stageAgrees_xmit rfl).2
      ⟨.inr send, rfl, Nat.zero_le _, fun b hb => ?_, s.sinkOut, [], rfl, (List.append_nil _).symm⟩
    simp only [State.toStage_tx, htx] at hb
    cases hb

/-- An accepted byte joins the accepted ones (R96). -/
theorem inv_txAccept {s : State} {r : Run} {x : Nat} {b : Byte} (hs : s.Inv) (h : s.run = some r) (hg : r.stage = .xmit x)
    (hb : s.tx = some b) :
    (({ s with tx := none, sinkOut := s.sinkOut ++ [b] } : State).toStage r (.xmit (x + 1))).Inv := by
  obtain ⟨snap, agrees⟩ := hs.run_agrees h
  obtain ⟨cur, frozen, -, offer, before, sent, read, out⟩ := (stageAgrees_xmit hg).1 agrees
  obtain ⟨hx, byte⟩ := offer b hb
  refine State.StoreOk.inv_of_running { r with stage := .xmit (x + 1) } (hs.storeOk.congr rfl rfl rfl rfl rfl rfl rfl rfl) rfl
    snap ⟨cur, frozen, hx, fun _ noOffer => (nomatch noOffer), before, sent ++ [b],
      Memory.readBytes_succ read (by simpa using byte), ?_⟩
  simp [out]

/-- The byte on offer is TBUF[XIDX] (R242). -/
theorem inv_txOffer {s : State} {r : Run} {x : Nat} {b : Byte} (hs : s.Inv) (h : s.run = some r) (hg : r.stage = .xmit x)
    (hx : x < workLength r s) (hb : s.tbuf.read x = some b) : ({ s with tx := some b } : State).Inv := by
  obtain ⟨snap, agrees⟩ := hs.run_agrees h
  obtain ⟨cur, frozen, le, -, accepted⟩ := (stageAgrees_xmit hg).1 agrees
  rw [hs.workLength_eq h] at hx
  refine State.StoreOk.inv_of_running r (hs.storeOk.congr rfl rfl rfl rfl rfl rfl rfl rfl) h snap
    ((stageAgrees_xmit hg).2 ⟨cur, frozen, le, fun c hc => ?_, accepted⟩)
  cases hc
  exact ⟨hx, hb⟩

theorem EngineMove.inv {s t : State} (hs : s.Inv) (h : EngineMove s t) : t.Inv := by
  cases h with
  | idle | txPending => exact hs
  | nop | txDone => exact hs.storeOk.complete_inv
  | addrenc => exact State.StoreOk.complete_inv (hs.storeOk.congr rfl rfl rfl rfl rfl rfl rfl rfl)
  | clear =>
    exact State.StoreOk.complete_inv (hs.storeOk.replaceTbuf rfl rfl rfl rfl rfl hs.canonical.2 hs.inRange.2)
  | fmt r k out h hg ho => exact inv_fmt hs h hg ho
  | norm r t h hg ht => exact inv_norm hs h hg ht
  | sealSum r t h hg ht => exact inv_sealSum hs h hg ht
  | sealTail r acc h hg => exact inv_sealTail hs h hg
  | txFail => exact (hs.storeOk.recordError (e := .txfail) nofun).complete_inv
  | txAccept r x b h hg hb _ _ => exact inv_txAccept hs h hg hb
  | txOffer r x b h hg _ hx hb => exact inv_txOffer hs h hg hx hb

/-! ### The host's part -/

theorem State.Inv.idle {s : State} (hs : s.Inv) (h : s.busy = false) : s.idle := by
  have run := State.busy_eq_false.1 h
  have sequencer := hs.sequencer
  simp only [State.sequencerAgrees, run] at sequencer
  exact ⟨run, sequencer⟩

/-- The invariant does not see what a turn's signals, reads and draws are, nor DONE and CTRL. -/
theorem State.Inv.congr {s t : State} (hs : s.Inv)
    (h : t = { s with
      done := t.done, doneIe := t.doneIe, errIe := t.errIe, pins := t.pins, inputs := t.inputs, reads := t.reads,
      draws := t.draws }) : t.Inv := by
  rw [h]
  exact State.StoreOk.inv (hs.storeOk.congr rfl rfl rfl rfl rfl rfl rfl rfl)
    (sequencerAgrees_congr hs.sequencer rfl rfl rfl rfl rfl rfl rfl rfl rfl rfl)

theorem State.Inv.recordError {s : State} (hs : s.Inv) {e : ErrCode} (he : e ≠ .none) : (s.recordError e).Inv :=
  (hs.storeOk.recordError he).inv (sequencerAgrees_congr hs.sequencer rfl rfl rfl rfl rfl rfl rfl rfl rfl rfl)

/-- ERR and ERRCODE are cleared together (R36). -/
theorem errorRecordAgrees_writeStatus {s : State} (h : s.errorRecordAgrees) (w : Byte) :
    (s.writeStatus w).errorRecordAgrees := by
  unfold State.errorRecordAgrees at h ⊢
  rw [State.writeStatus_err, State.writeStatus_errcode]
  cases w.getLsbD 2 with
  | true => simp
  | false => simpa using h

theorem WriteMove.inv {s t : State} {a : Addr} {v : Byte} (hs : s.Inv) (h : WriteMove s (locate s.cfg a) v t) : t.Inv := by
  have store := hs.storeOk
  cases h with
  | same => exact hs
  | status =>
    exact State.StoreOk.inv ⟨hs.legal, hs.canonical, hs.inRange, errorRecordAgrees_writeStatus hs.errorRecord v, hs.sealedOk⟩
      (sequencerAgrees_congr hs.sequencer rfl rfl rfl rfl rfl rfl rfl rfl rfl rfl)
  | ctrl => exact hs.congr rfl
  | operand idle => exact State.StoreOk.inv_of_idle (store.congr rfl rfl rfl rfl rfl rfl rfl rfl) (hs.idle idle)
  | tlen idle unsealed =>
    exact State.StoreOk.inv_of_idle (store.replaceTbuf rfl rfl rfl rfl unsealed hs.canonical.2 hs.inRange.2) (hs.idle idle)
  | ibuf idle i hl =>
    have hi := (locate_range.1 i hl).1
    exact State.StoreOk.inv_of_idle ⟨hs.legal, ⟨Memory.wf_write hs.canonical.1 i v, hs.canonical.2⟩,
      ⟨Memory.below_write hs.inRange.1 hi v, hs.inRange.2⟩, hs.errorRecord, hs.sealedOk⟩ (hs.idle idle)
  | tbuf idle unsealed i hl =>
    have hi := (locate_range.2 i hl).1
    exact State.StoreOk.inv_of_idle (store.replaceTbuf rfl rfl rfl rfl unsealed (Memory.wf_write hs.canonical.2 i v)
      (Memory.below_write hs.inRange.2 hi v)) (hs.idle idle)

/-- The first stage of a command whose checks pass starts from the condition it asks for. -/
theorem stageAgrees_accept {s : State} {i : Instr} (idle : s.idle) (passed : firstError (commandChecks i s) = none) :
    (s.accept i (firstStage i)).stageAgrees { cur := i, stage := firstStage i, snap := s.snapshot } := by
  have htx : s.tx = none := idle.2
  cases i with
  | nop | clear | addrenc => exact ⟨rfl, htx⟩
  | fmtZa | fmtZi | fmtV | fmtAa | sendZa | sendZi | sendV | sendAa => exact ⟨rfl, passed, htx⟩
  | norm =>
    obtain ⟨unsealed, inRange⟩ := checksNorm_none.1 passed
    exact ⟨.inl rfl, unsealed, inRange, htx⟩
  | sealTelegram =>
    obtain ⟨unsealed, -, room⟩ := checksSeal_none.1 passed
    exact ⟨.inl rfl, unsealed, room, htx⟩
  | xmit =>
    refine ⟨.inl rfl, checksXmit_none.1 passed, Nat.zero_le _, fun b hb => ?_, s.sinkOut, [], rfl, (List.append_nil _).symm⟩
    rw [State.accept_tx, htx] at hb
    cases hb

theorem State.Inv.accept {s : State} {i : Instr} (hs : s.Inv) (idle : s.busy = false)
    (passed : firstError (commandChecks i s) = none) : (s.accept i (firstStage i)).Inv :=
  State.StoreOk.inv_of_running _ (hs.storeOk.congr rfl rfl rfl rfl rfl rfl rfl rfl) rfl
    ⟨rfl, rfl, rfl, fun _ => rfl⟩ (stageAgrees_accept (hs.idle idle) passed)

/-! ### Reset -/

/-- A block in its reset state is consistent under every legal choice of the parameters (R56). -/
theorem resetBlock_inv {s : State} (legal : s.cfg.legal = true) : s.resetBlock.Inv := by
  refine State.StoreOk.inv_of_idle ⟨legal, Memory.wf_reset, ⟨nofun, nofun⟩, ?_, nofun⟩ ⟨rfl, rfl⟩
  exact ⟨nofun, fun h => absurd rfl h⟩

theorem resetTurn_inv {s : State} (legal : s.cfg.legal = true) : (resetTurn s).Inv := by
  unfold resetTurn
  split
  · exact resetBlock_inv (s := unspecifiedRead s) legal
  · exact resetBlock_inv legal

/-! ### The statements -/

theorem inv_keptByParts : KeptByParts State.Inv where
  reset _ hs := resetTurn_inv hs.legal
  sample _ hs := hs.congr rfl
  read s hs := by rw [hostRead_eq]; exact hs.congr rfl
  write s _ _ hs := (writeLoc_cases s _ _).inv hs
  drop _ hs := hs.recordError nofun
  reject _ _ he hs := (hs.recordError he).congr rfl
  accept _ _ idle passed hs := hs.accept idle passed
  engine _ _ hs h := h.inv hs

/-- Settles O50: the reset state under the default parameters, which are legal. -/
theorem invariantHoldsAtReset : Obligations.InvariantHoldsAtReset := by
  unfold Obligations.InvariantHoldsAtReset
  exact resetBlock_inv (s := State.reset) (by decide)

/-- Settles O51: each part of a turn keeps the invariant. -/
theorem everyStepKeepsTheInvariant : Obligations.EveryStepKeepsTheInvariant := by
  unfold Obligations.EveryStepKeepsTheInvariant
  exact fun _ _ => step_keeps inv_keptByParts

end Sys2Proof.Machine
end

section
/-! PROOFS. Who writes what: a sealed telegram, IBUF, ERR, the sink's record, CSUM and AENC_* across one step
(spec 10_state.md R39, R42, R46, R50, R52; 20_memory.md R91, R96). -/

namespace Sys2Proof.Machine

/-! ### The turn a step is made in -/

/-- What a step from a state with a listed turn can do, the signals and the state of the host's part written out. -/
theorem step_cases_next {s t : State} {p : Pins} {rest : List Pins} (next : s.nextTurn p rest) (h : step s = .next t) :
    (p.rst = true ∧ t = resetTurn (s.withTurn p rest)) ∨
    (p.rst = false ∧ ∃ u, HostMove (hostRead (s.withTurn p rest)) u ∧ (u = t ∨ s.busy = true ∧ EngineMove u t)) := by
  have sampled := sampleInputs_next next
  have head := headD_next next
  cases step_cases h with
  | reset hr => exact .inl ⟨head ▸ hr, by rw [sampled]⟩
  | host _ hr host => exact .inr ⟨head ▸ hr, t, sampled ▸ host, .inl rfl⟩
  | engine u _ hr busy host engine => exact .inr ⟨head ▸ hr, u, sampled ▸ host, .inr ⟨busy, engine⟩⟩

/-! ### One engine step -/

/-- ERR is only ever set by the engine (R39). -/
theorem EngineMove.err {s t : State} (h : EngineMove s t) (err : s.err = true) : t.err = true := by
  cases h with
  | txFail => rfl
  | fmt | norm | sealTail => simpa using err
  | idle | nop | clear | addrenc | sealSum | txAccept | txPending | txOffer | txDone => exact err

/-- The sink's record grows by an accepted byte only (R96). -/
theorem EngineMove.sinkOut {s t : State} (h : EngineMove s t) :
    t.sinkOut = s.sinkOut ∨
      ∃ b, s.tx = some b ∧ s.pins.txReady = true ∧ s.pins.txFail = false ∧ t.sinkOut = s.sinkOut ++ [b] := by
  cases h with
  | txAccept r x b _ _ offered fail ready => exact .inr ⟨b, offered, ready, fail, rfl⟩
  | fmt | norm | sealTail => exact .inl (by simp)
  | idle | nop | clear | addrenc | sealSum | txFail | txPending | txOffer | txDone => exact .inl rfl

/-- CSUM is written at the last step of a SEAL stage only (R46). -/
theorem EngineMove.csum {s t : State} (h : EngineMove s t) :
    t.csum = s.csum ∨ ∃ r acc, s.run = some r ∧ r.stage = .sealTail acc := by
  cases h with
  | sealTail r acc running stage => exact .inr ⟨r, acc, running, stage⟩
  | fmt | norm => exact .inl (by simp)
  | idle | nop | clear | addrenc | sealSum | txFail | txAccept | txPending | txOffer | txDone => exact .inl rfl

/-- AENC_* is written by ADDRENC only (R52). -/
theorem EngineMove.aenc {s t : State} (h : EngineMove s t) :
    (t.aencN = s.aencN ∧ t.aencC0 = s.aencC0 ∧ t.aencC1 = s.aencC1) ∨ ∃ r, s.run = some r ∧ r.stage = .addrenc := by
  cases h with
  | addrenc r running stage => exact .inr ⟨r, running, stage⟩
  | fmt | norm | sealTail => exact .inl (by simp)
  | idle | nop | clear | sealSum | txFail | txAccept | txPending | txOffer | txDone => exact .inl ⟨rfl, rfl, rfl⟩

/-- TBUF, TLEN and SEALED hold what they held. -/
def State.sameTelegram (s t : State) : Prop := t.sealed = s.sealed ∧ t.tbuf = s.tbuf ∧ t.tlen = s.tlen

/-- Of the stages a consistent sealed block can be in, only CLEAR and FMT touch the telegram (R42). -/
theorem EngineMove.sameTelegram {s t : State} (hs : s.Inv) (frozen : s.sealed = true) (h : EngineMove s t) :
    (∃ r, s.run = some r ∧ (r.stage = .clear ∨ ∃ k, r.stage = .fmt k)) ∨ s.sameTelegram t := by
  have absurd_of {P : Prop} (unsealed : s.sealed = false) : P := by rw [frozen] at unsealed; cases unsealed
  cases h with
  | clear r running stage => exact .inl ⟨r, running, .inl stage⟩
  | fmt r k _ running stage => exact .inl ⟨r, running, .inr ⟨k, stage⟩⟩
  | norm r _ running stage =>
    obtain ⟨-, unsealed, -⟩ := (stageAgrees_norm stage).1 (hs.run_agrees running).2
    exact absurd_of unsealed
  | sealSum r _ running stage =>
    obtain ⟨-, unsealed, -⟩ := (stageAgrees_sealSum stage).1 (hs.run_agrees running).2
    exact absurd_of unsealed
  | sealTail r _ running stage =>
    obtain ⟨-, unsealed, -⟩ := (stageAgrees_sealTail stage).1 (hs.run_agrees running).2
    exact absurd_of unsealed
  | idle | nop | addrenc | txFail | txAccept | txPending | txOffer | txDone => exact .inr ⟨rfl, rfl, rfl⟩

/-! ### A command accepted in the turn of its CMD write -/

/-- Only SEAL and SEND take more than one step in that turn (R240). -/
theorem immediateSteps_eq_one {i : Instr} (noSeal : i ≠ .sealTelegram) (noSend : isSend i = false) : immediateSteps i = 1 := by
  cases i with
  | sealTelegram => exact absurd rfl noSeal
  | sendZa | sendZi | sendV | sendAa => cases noSend
  | nop | clear | addrenc | fmtZa | fmtZi | fmtV | fmtAa | norm | xmit => rfl

/-- What such a command does: nothing yet, or one engine step. -/
theorem engineRun_atMostOne {n : Nat} {s t : State} (hn : n = 0 ∨ n = 1) (h : engineRun n s = .next t) :
    t = s ∨ EngineMove s t := by
  rcases hn with rfl | rfl
  · cases h; exact .inl rfl
  · rw [engineRun_one] at h; exact .inr (engineStep_cases h)

/-- No command starts at the last step of SEAL. -/
theorem firstStage_ne_sealTail (i : Instr) (acc : Byte) : firstStage i ≠ .sealTail acc := by cases i <;> nofun

theorem firstStage_ne_addrenc {i : Instr} (h : i ≠ .addrenc) : firstStage i ≠ .addrenc := by
  cases i with
  | addrenc => exact absurd rfl h
  | _ => nofun

/-- A command that neither seals nor sends leaves CSUM as it was (R46). -/
theorem engineRun_csum {i : Instr} {n : Nat} {s t : State} (hn : n = 0 ∨ n = immediateSteps i)
    (run : engineRun n (s.accept i (firstStage i)) = .next t) (noSeal : i ≠ .sealTelegram) (noSend : isSend i = false) :
    t.csum = s.csum := by
  rw [immediateSteps_eq_one noSeal noSend] at hn
  rcases engineRun_atMostOne hn run with rfl | move
  · rfl
  · rcases move.csum with same | ⟨r, acc, running, stage⟩
    · exact same
    · cases running
      exact absurd stage (firstStage_ne_sealTail i acc)

/-- AENC_* hold what they held in `s`, and ADDRENC does not run. -/
def State.sparesAenc (s t : State) : Prop :=
  (t.aencN = s.aencN ∧ t.aencC0 = s.aencC0 ∧ t.aencC1 = s.aencC1) ∧ ∀ r, t.run = some r → r.stage ≠ .addrenc

/-- No stage is followed by ADDRENC (R249). -/
theorem EngineMove.run_ne_addrenc {s t : State} (h : EngineMove s t) (hs : ∀ r, s.run = some r → r.stage ≠ .addrenc) :
    ∀ r, t.run = some r → r.stage ≠ .addrenc := by
  have advanced {u : State} {r : Run} {g : Stage} (hg : g ≠ .addrenc) :
      ∀ r', (u.advance r g).run = some r' → r'.stage ≠ .addrenc := by
    intro r' hr'
    unfold State.advance at hr'
    split at hr' <;> cases hr'
    exact hg
  cases h with
  | fmt | norm | sealTail => exact advanced nofun
  | sealSum | txAccept => intro r hr; cases hr; nofun
  | nop | clear | addrenc | txFail | txDone => intro r hr; cases hr
  | idle | txPending | txOffer => exact hs

/-- A command other than ADDRENC leaves AENC_* as they were (R52). -/
theorem engineRun_aenc {i : Instr} {n : Nat} {s t : State} (run : engineRun n (s.accept i (firstStage i)) = .next t)
    (other : i ≠ .addrenc) : t.aencN = s.aencN ∧ t.aencC0 = s.aencC0 ∧ t.aencC1 = s.aencC1 := by
  refine (engineRun_induction (P := s.sparesAenc) (fun u v hu move => ?_) ?_ run).1
  · obtain ⟨⟨h1, h2, h3⟩, stage⟩ := hu
    refine ⟨?_, move.run_ne_addrenc stage⟩
    rcases move.aenc with ⟨e1, e2, e3⟩ | ⟨r, running, here⟩
    · exact ⟨e1.trans h1, e2.trans h2, e3.trans h3⟩
    · exact absurd here (stage r running)
  · refine ⟨⟨rfl, rfl, rfl⟩, fun r running => ?_⟩
    cases running
    exact firstStage_ne_addrenc other

/-- A command that passes its checks over a sealed telegram, and is neither CLEAR nor a FMT or SEND, takes one step at most. -/
theorem immediateSteps_of_frozen {s : State} {i : Instr} (frozen : s.sealed = true)
    (passed : firstError (commandChecks i s) = none) (clear : i ≠ .clear) (format : telegramKind i = none) :
    immediateSteps i = 1 ∧ firstStage i ≠ .clear ∧ ∀ k, firstStage i ≠ .fmt k := by
  cases i with
  | clear => exact absurd rfl clear
  | sealTelegram =>
    obtain ⟨unsealed, -⟩ := checksSeal_none.1 passed
    rw [frozen] at unsealed
    cases unsealed
  | fmtZa | fmtZi | fmtV | fmtAa | sendZa | sendZi | sendV | sendAa => cases format
  | nop | addrenc | norm | xmit => exact ⟨rfl, nofun, nofun⟩

/-- How many steps separate a stage from its command's XMIT stage (R249). -/
def Stage.stepsToXmit : Stage → Nat
  | .fmt _ => 4
  | .norm => 3
  | .sealSum => 2
  | .sealTail _ => 1
  | .nop | .clear | .addrenc | .xmit _ => 0

theorem immediateSteps_le (i : Instr) : immediateSteps i ≤ (firstStage i).stepsToXmit + 1 := by
  cases i <;> decide

/-- Before XMIT a step leaves the sink alone, and ends the command or brings it one stage nearer with the offer as it was. -/
theorem EngineMove.nearer {s t : State} {r : Run} (h : EngineMove s t) (running : s.run = some r)
    (before : ∀ x, r.stage ≠ .xmit x) :
    t.sinkOut = s.sinkOut ∧
      (t.run = none ∨ t.tx = s.tx ∧ ∃ r', t.run = some r' ∧ r.stage.stepsToXmit = r'.stage.stepsToXmit + 1) := by
  have advanced {u : State} {q : Run} {g : Stage} (tx : u.tx = s.tx) (hq : q.stage.stepsToXmit = g.stepsToXmit + 1) :
      (u.advance q g).run = none ∨
        (u.advance q g).tx = s.tx ∧
          ∃ r', (u.advance q g).run = some r' ∧ q.stage.stepsToXmit = r'.stage.stepsToXmit + 1 := by
    unfold State.advance
    split
    · exact .inr ⟨tx, _, rfl, hq⟩
    · exact .inl rfl
  cases h with
  | idle idle => rw [running] at idle; cases idle
  | nop | clear | addrenc => exact ⟨rfl, .inl rfl⟩
  | fmt q k _ hq stage | norm q _ hq stage | sealTail q _ hq stage =>
    rw [running] at hq
    cases hq
    exact ⟨by simp, advanced rfl (by rw [stage]; rfl)⟩
  | sealSum q _ hq stage =>
    rw [running] at hq
    cases hq
    exact ⟨rfl, .inr ⟨rfl, _, rfl, by rw [stage]; rfl⟩⟩
  | txFail q x _ hq stage | txAccept q x _ hq stage | txPending q x _ hq stage | txOffer q x _ hq stage
  | txDone q x hq stage =>
    rw [running] at hq
    cases hq
    exact absurd stage (before x)

/-- A run of the engine that ends at its first step of XMIT hands over the byte on offer or nothing (R96). -/
theorem engineRun_sinkOut {n : Nat} {s t : State} {r : Run} (running : s.run = some r) (hn : n ≤ r.stage.stepsToXmit + 1)
    (h : engineRun n s = .next t) :
    t.sinkOut = s.sinkOut ∨
      ∃ b, s.tx = some b ∧ s.pins.txReady = true ∧ s.pins.txFail = false ∧ t.sinkOut = s.sinkOut ++ [b] := by
  induction n generalizing s r with
  | zero => cases h; exact .inl rfl
  | succ n ih =>
    obtain ⟨u, hu, after⟩ := andThen_eq_next.1 h
    have move := engineStep_cases hu
    by_cases stage : ∃ x, r.stage = .xmit x
    · obtain ⟨x, stage⟩ := stage
      rw [stage] at hn
      obtain rfl : n = 0 := Nat.le_zero.1 (Nat.le_of_succ_le_succ hn)
      cases after
      exact move.sinkOut
    · obtain ⟨out, ended | ⟨tx, r', running', near⟩⟩ := move.nearer running (not_exists.1 stage)
      · rw [engineRun_idle ended] at after
        cases after
        exact .inl out
      · have := ih running' (by omega) after
        rwa [out, tx, move.keeps.pins] at this

/-! ### A host write to a location -/

theorem WriteMove.ibuf_cases {s t : State} {l : Loc} {v : Byte} (h : WriteMove s l v t) :
    t.ibuf = s.ibuf ∨ s.busy = false ∧ ∃ i, l = .ibuf i := by
  cases h with
  | ibuf idle i hl => exact .inr ⟨idle, i, hl⟩
  | same | status | ctrl | operand | tlen | tbuf => exact .inl rfl

theorem WriteMove.err_cases {s t : State} {l : Loc} {v : Byte} (h : WriteMove s l v t) :
    t.err = s.err ∨ l = .status ∧ v.getLsbD 2 = true := by
  cases h with
  | status hl =>
    rw [State.writeStatus_err]
    cases bit : v.getLsbD 2 with
    | true => exact .inr ⟨hl, rfl⟩
    | false => exact .inl (Bool.and_true _)
  | same | ctrl | operand | tlen | ibuf | tbuf => exact .inl rfl

/-! ### The host's part of a turn -/

/-- The turn's CMD write is of command `i` and accepted (R272). -/
def State.accepts (s : State) (i : Instr) : Prop :=
  s.busy = false ∧ s.pins.regWe = true ∧ s.pins.regAddr = 0x002 ∧ decode s.pins.regWdata = .command i ∧
    firstError (commandChecks i s) = none

/-- The host's read decides nothing about acceptance. -/
theorem accepts_hostRead {s : State} {p : Pins} {rest : List Pins} {i : Instr} :
    (hostRead (s.withTurn p rest)).accepts i ↔
      s.busy = false ∧ p.regWe = true ∧ p.regAddr = 0x002 ∧ decode p.regWdata = .command i ∧
        firstError (commandChecks i s) = none := by
  unfold State.accepts
  rw [hostRead_pins, hostRead_busy, commandChecks_hostRead]
  rfl

/-- The sequencer of a busy block is the engine's: the host's part leaves it, the offer and the sink alone. -/
theorem HostMove.of_busy {s t : State} (busy : s.busy = true) (h : HostMove s t) :
    t.run = s.run ∧ t.tx = s.tx ∧ t.pins = s.pins ∧ t.sinkOut = s.sinkOut ∧ t.inputs = s.inputs := by
  cases h with
  | none | drop => exact ⟨rfl, rfl, rfl, rfl, rfl⟩
  | write =>
    have k := writeLoc_keeps s (locate s.cfg s.pins.regAddr) s.pins.regWdata
    exact ⟨k.run, k.tx, k.pins, k.sinkOut, k.inputs⟩
  | reject _ _ _ idle | accept _ _ _ _ _ idle => rw [busy] at idle; cases idle

/-- What the host's part does to the telegram of a sealed block (R91). -/
theorem HostMove.sameTelegram {s t : State} (hs : s.Inv) (frozen : s.sealed = true) (h : HostMove s t) :
    (∃ i, s.accepts i ∧ (i = .clear ∨ telegramKind i ≠ .none)) ∨ s.sameTelegram t := by
  cases h with
  | none | drop | reject => exact .inr ⟨rfl, rfl, rfl⟩
  | write => exact .inr ⟨(writeLoc_keeps _ _ _).sealed, writeLoc_sealed frozen _ _⟩
  | accept i n _ we hl idle hi passed hn run =>
    by_cases out : i = .clear ∨ telegramKind i ≠ .none
    · exact .inl ⟨i, ⟨idle, we, locate_eq_cmd.1 hl, hi, passed⟩, out⟩
    · obtain ⟨clear, format⟩ := not_or.1 out
      obtain ⟨one, noClear, noFmt⟩ := immediateSteps_of_frozen frozen passed clear (not_not.1 format)
      rcases engineRun_atMostOne (one ▸ hn) run with rfl | move
      · exact .inr ⟨rfl, rfl, rfl⟩
      · rcases move.sameTelegram (hs.accept idle passed) frozen with ⟨r, running, stage⟩ | same
        · cases running
          rcases stage with stage | ⟨k, stage⟩
          · exact absurd stage noClear
          · exact absurd stage (noFmt k)
        · exact .inr same

theorem HostMove.ibuf_cases {s t : State} (h : HostMove s t) :
    t.ibuf = s.ibuf ∨ s.pins.regWe = true ∧ s.busy = false ∧ ∃ i, locate s.cfg s.pins.regAddr = .ibuf i := by
  cases h with
  | none | drop | reject => exact .inl rfl
  | write we => exact (writeLoc_cases s _ _).ibuf_cases.imp_right fun h => ⟨we, h⟩
  | accept _ _ _ _ _ _ _ _ _ run => exact .inl (engineRun_keeps run).ibuf

theorem HostMove.err_cases {s t : State} (h : HostMove s t) (err : s.err = true) :
    t.err = true ∨ s.pins.regWe = true ∧ s.pins.regAddr = 0x003 ∧ s.pins.regWdata.getLsbD 2 = true := by
  cases h with
  | none => exact .inl err
  | drop | reject => exact .inl rfl
  | write we =>
    rcases (writeLoc_cases s _ _).err_cases with same | ⟨hl, bit⟩
    · exact .inl (same.trans err)
    · exact .inr ⟨we, locate_eq_status.1 hl, bit⟩
  | accept _ _ _ _ _ _ _ _ _ run =>
    refine .inl (engineRun_induction (P := fun u => u.err = true) (fun _ _ hu move => move.err hu) ?_ run)
    exact err

theorem HostMove.sinkOut_cases {s t : State} (h : HostMove s t) :
    t.sinkOut = s.sinkOut ∨
      ∃ b, s.tx = some b ∧ s.pins.txReady = true ∧ s.pins.txFail = false ∧ t.sinkOut = s.sinkOut ++ [b] := by
  cases h with
  | none | drop | reject => exact .inl rfl
  | write => exact .inl (writeLoc_keeps _ _ _).sinkOut
  | accept i n _ _ _ _ _ _ hn run =>
    have near := immediateSteps_le i
    exact engineRun_sinkOut (s := s.accept i (firstStage i)) rfl (show n ≤ (firstStage i).stepsToXmit + 1 by omega) run

theorem HostMove.csum_cases {s t : State} (h : HostMove s t) :
    t.csum = s.csum ∨ ∃ i, s.accepts i ∧ (i = .sealTelegram ∨ isSend i = true) := by
  cases h with
  | none | drop | reject => exact .inl rfl
  | write => exact .inl (writeLoc_keeps _ _ _).csum
  | accept i n _ we hl idle hi passed hn run =>
    by_cases writer : i = .sealTelegram ∨ isSend i = true
    · exact .inr ⟨i, ⟨idle, we, locate_eq_cmd.1 hl, hi, passed⟩, writer⟩
    · obtain ⟨noSeal, noSend⟩ := not_or.1 writer
      exact .inl (engineRun_csum hn run noSeal (Bool.not_eq_true _ ▸ noSend))

theorem HostMove.aenc_cases {s t : State} (h : HostMove s t) :
    (t.aencN = s.aencN ∧ t.aencC0 = s.aencC0 ∧ t.aencC1 = s.aencC1) ∨ s.accepts .addrenc := by
  cases h with
  | none | drop | reject => exact .inl ⟨rfl, rfl, rfl⟩
  | write =>
    have k := writeLoc_keeps s (locate s.cfg s.pins.regAddr) s.pins.regWdata
    exact .inl ⟨k.aencN, k.aencC0, k.aencC1⟩
  | accept i _ _ we hl idle hi passed _ run =>
    by_cases writer : i = .addrenc
    · subst writer
      exact .inr ⟨idle, we, locate_eq_cmd.1 hl, hi, passed⟩
    · exact .inl (engineRun_aenc run writer)

/-! ### The statements -/

/-- Settles O53: over a sealed telegram the host's part changes nothing but by an accepted CLEAR, FMT or SEND, and the engine is
in none of the stages that ask for SEALED = 0. -/
theorem sealedTelegramIsFrozen : Obligations.SealedTelegramIsFrozen := by
  unfold Obligations.SealedTelegramIsFrozen
  intro s t p rest hs next frozen h
  have read : (hostRead (s.withTurn p rest)).Inv := by rw [hostRead_eq]; exact hs.congr rfl
  have readFrozen : (hostRead (s.withTurn p rest)).sealed = true := (hostRead_sealed _).trans frozen
  rcases step_cases_next next h with ⟨hr, -⟩ | ⟨-, u, host, after⟩
  · exact .inl hr
  · rcases host.sameTelegram read readFrozen with ⟨i, accepted, out⟩ | ⟨sealedU, tbufU, tlenU⟩
    · obtain ⟨idle, we, ha, hi, passed⟩ := accepts_hostRead.1 accepted
      exact .inr (.inl ⟨i, idle, we, ha, hi, passed, out⟩)
    · have frozenU := sealedU.trans readFrozen
      rw [hostRead_tbuf] at tbufU
      rw [hostRead_tlen] at tlenU
      rcases after with rfl | ⟨busy, engine⟩
      · exact .inr (.inr (.inr ⟨frozenU, tbufU, tlenU⟩))
      · obtain ⟨run, -⟩ := host.of_busy (by rw [hostRead_busy]; exact busy)
        rcases engine.sameTelegram (host.keeps inv_keptByParts read) frozenU with
          ⟨r, running, stage⟩ | ⟨sealedT, tbufT, tlenT⟩
        · rw [run, hostRead_run] at running
          exact .inr (.inr (.inl ⟨r, running, stage⟩))
        · exact .inr (.inr (.inr ⟨sealedT.trans frozenU, tbufT.trans tbufU, tlenT.trans tlenU⟩))

/-- Settles O54: the engine keeps IBUF, and of the host's part only a write to an idle block's window changes it. -/
theorem onlyTheHostWritesIbuf : Obligations.OnlyTheHostWritesIbuf := by
  unfold Obligations.OnlyTheHostWritesIbuf
  intro s t p rest next h changed
  rcases step_cases_next next h with ⟨hr, -⟩ | ⟨-, u, host, after⟩
  · exact .inl hr
  · have engine : t.ibuf = u.ibuf := by
      rcases after with rfl | ⟨-, engine⟩
      · rfl
      · exact engine.keeps.ibuf
    have hostPart := host.ibuf_cases
    rw [hostRead_pins, hostRead_busy, hostRead_cfg, hostRead_ibuf] at hostPart
    rcases hostPart with same | ⟨we, idle, i, hl⟩
    · exact absurd (engine.trans same) changed
    · obtain ⟨hi, ha⟩ : i < s.cfg.ibufSize ∧ p.regAddr.toNat = 0x400 + i := locate_range.1 i hl
      exact .inr ⟨we, idle, by omega, by omega⟩

/-- Settles O55: the engine only ever sets ERR, and of the host's part only the acknowledge clears it. -/
theorem errStaysUntilAcknowledged : Obligations.ErrStaysUntilAcknowledged := by
  unfold Obligations.ErrStaysUntilAcknowledged
  intro s t p rest next h err
  rcases step_cases_next next h with ⟨hr, -⟩ | ⟨-, u, host, after⟩
  · exact .inr (.inl hr)
  · have hostPart := host.err_cases ((hostRead_err _).trans err)
    rw [hostRead_pins] at hostPart
    rcases hostPart with errU | acknowledged
    · rcases after with rfl | ⟨-, engine⟩
      · exact .inl errU
      · exact .inl (engine.err errU)
    · exact .inr (.inr acknowledged)

/-- A reset keeps the sink's record (R300). -/
theorem resetTurn_sinkOut (s : State) : (resetTurn s).sinkOut = s.sinkOut := by
  unfold resetTurn
  split <;> rfl

/-- Settles O56: in a busy block the host's part leaves the sink alone, and the turn of an accepted command ends at its first step
of XMIT at the latest. -/
theorem sinkOutputOnlyGrows : Obligations.SinkOutputOnlyGrows := by
  unfold Obligations.SinkOutputOnlyGrows
  intro s t p rest next h
  rcases step_cases_next next h with ⟨-, rfl⟩ | ⟨hr, u, host, after⟩
  · exact .inl (resetTurn_sinkOut _)
  · have grows : t.sinkOut = (hostRead (s.withTurn p rest)).sinkOut ∨
        ∃ b, (hostRead (s.withTurn p rest)).tx = some b ∧ (hostRead (s.withTurn p rest)).pins.txReady = true ∧
          (hostRead (s.withTurn p rest)).pins.txFail = false ∧ t.sinkOut = (hostRead (s.withTurn p rest)).sinkOut ++ [b] := by
      rcases after with rfl | ⟨busy, engine⟩
      · exact host.sinkOut_cases
      · obtain ⟨-, tx, pins, out, -⟩ := host.of_busy (by rw [hostRead_busy]; exact busy)
        rw [← tx, ← pins, ← out]
        exact engine.sinkOut
    rw [hostRead_sinkOut, hostRead_tx, hostRead_pins] at grows
    exact grows.imp_right fun ⟨b, offered, ready, fail, out⟩ => ⟨b, offered, hr, ready, fail, out⟩

/-- Settles O57: each register has one stage that writes it, which is running already or is reached by a command accepted in this
turn. -/
theorem resultRegistersHaveOneWriter : Obligations.ResultRegistersHaveOneWriter := by
  unfold Obligations.ResultRegistersHaveOneWriter
  intro s t p rest next hr h
  rcases step_cases_next next h with ⟨reset, -⟩ | ⟨-, u, host, after⟩
  · rw [hr] at reset
    cases reset
  have csumHost := host.csum_cases
  have aencHost := host.aenc_cases
  rw [hostRead_csum] at csumHost
  rw [hostRead_aencN, hostRead_aencC0, hostRead_aencC1] at aencHost
  have ran (busy : s.busy = true) : u.run = s.run := by
    obtain ⟨run, -⟩ := host.of_busy (by rw [hostRead_busy]; exact busy)
    rw [run, hostRead_run]
    rfl
  constructor
  · intro changed
    rcases csumHost with same | ⟨i, accepted, writer⟩
    · rcases after with rfl | ⟨busy, engine⟩
      · exact absurd same changed
      · rcases engine.csum with sameT | writer
        · exact absurd (sameT.trans same) changed
        · exact .inl (ran busy ▸ writer)
    · obtain ⟨idle, we, ha, hi, passed⟩ := accepts_hostRead.1 accepted
      exact .inr ⟨i, idle, we, ha, hi, passed, writer⟩
  · intro changed
    have unchanged : ¬(t.aencN = s.aencN ∧ t.aencC0 = s.aencC0 ∧ t.aencC1 = s.aencC1) := by
      rintro ⟨h1, h2, h3⟩
      simp [h1, h2, h3] at changed
    rcases aencHost with ⟨h1, h2, h3⟩ | accepted
    · rcases after with rfl | ⟨busy, engine⟩
      · exact absurd ⟨h1, h2, h3⟩ unchanged
      · rcases engine.aenc with ⟨e1, e2, e3⟩ | writer
        · exact absurd ⟨e1.trans h1, e2.trans h2, e3.trans h3⟩ unchanged
        · exact .inl (ran busy ▸ writer)
    · obtain ⟨idle, we, ha, hi, -⟩ := accepts_hostRead.1 accepted
      exact .inr ⟨idle, we, ha, hi⟩

end Sys2Proof.Machine
end

section
/-! PROOFS. One turn: reset, the CMD write, any other host write, the host read and a quiet turn of an idle block
(spec 20_memory.md R87 to R91, 60_exceptions.md R272, 70_reset_and_hazards.md R300). -/

namespace Sys2Proof.Machine

/-! ### Reset -/

theorem resetTurn_eq (s : State) :
    resetTurn s =
      { State.reset with
        cfg := s.cfg, pins := s.pins, inputs := s.inputs, reads := (resetTurn s).reads, sinkOut := s.sinkOut,
        draws := (resetTurn s).draws } := by
  unfold resetTurn
  split <;> rfl

/-- A read in a reset turn is unspecified (R300, I5). -/
theorem resetTurn_reads (s : State) :
    (resetTurn s).reads = s.reads ++ (if s.pins.regRe then [(s.pins.regAddr, Config.freeByte s.draws)] else []) := by
  unfold resetTurn
  split
  · rfl
  · exact (List.append_nil _).symm

/-- Settles O9: the step is the reset turn of the sampled state. -/
theorem resetTurnRestoresTheBlock : Obligations.ResetTurnRestoresTheBlock := by
  unfold Obligations.ResetTurnRestoresTheBlock
  intro s p rest next hr
  refine ⟨resetTurn (s.withTurn p rest), ?_, resetTurn_eq _, resetTurn_reads _⟩
  rw [step, sampleInputs_next next]
  exact if_pos hr

/-! ### A turn of an idle block and a turn in which the engine rests -/

/-- Without a command the host's part is the whole turn (R241). -/
theorem step_idle {s : State} {p : Pins} {rest : List Pins} (next : s.nextTurn p rest) (hr : p.rst = false)
    (idle : s.run = none) : step s = hostWrite (hostRead (s.withTurn p rest)) := step_rests next hr (.inl idle)

/-- Settles O6: there is neither a read nor a write, and no engine step. -/
theorem idleBlockTakesNoStep : Obligations.IdleBlockTakesNoStep := by
  unfold Obligations.IdleBlockTakesNoStep
  intro s p rest next ⟨hr, we, re⟩ idle
  have read : hostRead (s.withTurn p rest) = s.withTurn p rest := hostRead_of_not_re re
  have write : hostWrite (s.withTurn p rest) = .next (s.withTurn p rest) := if_pos (by simp [State.withTurn, we])
  rw [step_idle next hr idle, read, write]

/-- The step of a busy block: what the host's part leaves, then the engine's part. -/
theorem step_busy {s t : State} {p : Pins} {rest : List Pins} (next : s.nextTurn p rest) (hr : p.rst = false)
    (busy : s.busy = true) (host : hostWrite (hostRead (s.withTurn p rest)) = .next t) : step s = engineTurn t := by
  rw [step_noReset next hr, host, andThen_next, if_pos busy]

/-! ### The CMD write -/

theorem writeCmd_command {c : Byte} {i : Instr} (hc : decode c = .command i) (s : State) : writeCmd s c = exec i s := by
  simp only [writeCmd, hc]

/-- Settles O4: the host's part is `writeCmd`, which is `exec`, the rejection or the drop. -/
theorem stepRunsDecodedCommand : Obligations.StepRunsDecodedCommand := by
  unfold Obligations.StepRunsDecodedCommand
  intro s p rest next hr we ha
  have host : hostWrite (hostRead (s.withTurn p rest)) = writeCmd (hostRead (s.withTurn p rest)) p.regWdata := by
    rw [hostWrite_cmd] <;> rw [hostRead_pins]
    · rfl
    · exact we
    · exact ha
  have drop (busy : s.busy = true) : writeCmd (hostRead (s.withTurn p rest)) p.regWdata =
      .next ((hostRead (s.withTurn p rest)).recordError .busy) := writeCmd_busy (by rw [hostRead_busy]; exact busy) _
  have rests (he : s.engineRests p) := (step_rests next hr he).trans host
  have idle (h : s.busy = false) := rests (.inl (State.busy_eq_false.1 h))
  refine ⟨fun i hi h => (idle h).trans (writeCmd_command hi _), rests,
    fun h hc => (idle h).trans (writeCmd_reserved (by rw [hostRead_busy]; exact h) hc),
    fun busy he => (rests he).trans (drop busy), fun busy => step_busy next hr busy (host.trans (drop busy))⟩

/-! ### Any other host write -/

/-- The host's part of a turn with a write that is not to CMD. -/
theorem hostWrite_elsewhere {s : State} {p : Pins} {rest : List Pins} (we : p.regWe = true) (ha : p.regAddr ≠ 0x002) :
    hostWrite (hostRead (s.withTurn p rest)) =
      .next (writeLoc (hostRead (s.withTurn p rest)) (locate s.cfg p.regAddr) p.regWdata) := by
  rw [hostWrite_loc] <;> rw [hostRead_pins]
  · rw [hostRead_cfg]; rfl
  · exact we
  · exact ha

/-- Settles O7: the host's part is `writeLoc`. -/
theorem stepPerformsTheHostWrite : Obligations.StepPerformsTheHostWrite := by
  unfold Obligations.StepPerformsTheHostWrite
  intro s p rest next hr we ha
  exact ⟨fun rests => (step_rests next hr rests).trans (hostWrite_elsewhere we ha),
    fun busy => step_busy next hr busy (hostWrite_elsewhere we ha)⟩

/-- A turn with a host write to a location other than CMD, and with nothing else, of an idle block. -/
theorem step_writes {s : State} {a : Addr} {v : Byte} {rest : List Pins} (next : s.nextTurn (Pins.write a v) rest)
    (idle : s.run = none) (ha : a ≠ 0x002) :
    step s = .next (writeLoc (s.withTurn (Pins.write a v) rest) (locate s.cfg a) v) := by
  rw [step_idle next rfl idle, hostWrite_elsewhere rfl ha, hostRead_of_not_re rfl]
  rfl

/-! ### The host read -/

/-- The host's part of a turn with a read and without a write. -/
theorem hostPart_read {s : State} {p : Pins} {rest : List Pins} (re : p.regRe = true) (we : p.regWe = false) :
    hostWrite (hostRead (s.withTurn p rest)) =
      .next { s.withTurn p rest with
              reads := s.reads ++ [(p.regAddr, readValue s p.regAddr)]
              draws := if unspecifiedBits s (locate s.cfg p.regAddr) = 0x00 then s.draws else s.draws + 1 } := by
  rw [hostRead_records re we]
  exact if_pos (by simp [State.withTurn, we])

/-- Settles O42: no part of the turn but the read touches the record and the count, and the read touches nothing else. -/
theorem hostReadHasNoSideEffect : Obligations.HostReadHasNoSideEffect := by
  unfold Obligations.HostReadHasNoSideEffect
  intro s p rest n next hr re hn
  subst hn
  refine ⟨fun we he => (step_rests next hr he).trans (hostPart_read re we),
    fun we busy => step_busy next hr busy (hostPart_read re we), fun we t h => ?_, fun we t h => ?_⟩
  · have records := step_reads next hr h
    rw [hostRead_records re we] at records
    exact records
  · obtain ⟨reads, draws⟩ := step_reads next hr h
    obtain ⟨both, drawn⟩ := hostRead_both (s := s.withTurn p rest) re we
    exact ⟨reads.trans both, draws.trans drawn⟩

end Sys2Proof.Machine
end

section
/-! PROOFS. The registers and buffer windows as the host reads and writes them (spec 10_state.md R32 to R52, 20_memory.md R81 to
R91). -/

namespace Sys2Proof.Machine

/-! ### Reads -/

theorem ctrlByte_toNat (s : State) : s.ctrlByte.toNat = s.doneIe.toNat + 2 * s.errIe.toNat := by
  have bits : ∀ d e : Bool, (0#6 ++ BitVec.ofBool e ++ BitVec.ofBool d).toNat = d.toNat + 2 * e.toNat := by decide
  exact bits s.doneIe s.errIe

theorem runsAddrenc_eq_false {s : State} (other : ∀ r, s.run = some r → r.cur ≠ .addrenc) : s.runsAddrenc = false := by
  cases running : s.run with
  | none => simp only [State.runsAddrenc, running]
  | some r => simpa only [State.runsAddrenc, running, beq_eq_false_iff_ne] using other r running

/-- Settles O39: each location is exact under its clause's condition, and the two halves of a register are its value. -/
theorem readsReturnTheRegisters : Obligations.ReadsReturnTheRegisters := by
  unfold Obligations.ReadsReturnTheRegisters
  intro s
  have errcode : readValue s 0x004 = s.errcode.code := readValue_exact (l := .errcode) rfl rfl
  refine ⟨⟨readValue_exact (l := .id) rfl rfl, readValue_exact (l := .rev) rfl rfl, readValue_exact (l := .cmd) rfl rfl,
    errcode, ?_, readValue_exact (l := .addr) rfl rfl, ?_, ?_⟩, ?_, fun idle => ⟨?_, ?_⟩, fun other => ?_⟩
  · rw [readValue_ctrl, ctrlByte_toNat]
  · rw [readValue_exact (l := .ilenLo) rfl rfl, readValue_exact (l := .ilenHi) rfl rfl]
    exact half_toNat s.ilen
  · rw [readValue_exact (l := .l1lenLo) rfl rfl, readValue_exact (l := .l1lenHi) rfl rfl]
    exact half_toNat s.l1len
  · rw [errcode]
    refine ⟨?_, ?_, ?_, ?_, ?_, ?_, ?_, ?_, ?_⟩ <;> (intro h; rw [h]; rfl)
  · exact readValue_exact (l := .csum) rfl (by simp [unspecifiedBits, idle])
  · rw [readValue_exact (l := .tlenLo) rfl (by simp [unspecifiedBits, idle]),
      readValue_exact (l := .tlenHi) rfl (by simp [unspecifiedBits, idle])]
    exact half_toNat s.tlen
  · have exactAenc := runsAddrenc_eq_false other
    exact ⟨readValue_exact (l := .aencN) rfl (by simp [unspecifiedBits, exactAenc]),
      readValue_exact (l := .aencC0) rfl (by simp [unspecifiedBits, exactAenc]),
      readValue_exact (l := .aencC1) rfl (by simp [unspecifiedBits, exactAenc])⟩

/-- Settles O40: a written byte has no unspecified bit, unless it is TBUF's while BUSY = 1; any other is all free. -/
theorem bufferWindowsReadTheBuffers : Obligations.BufferWindowsReadTheBuffers := by
  unfold Obligations.BufferWindowsReadTheBuffers
  intro s a i legal
  refine ⟨fun ha hi => ?_, fun ha hi => ?_⟩
  · have hl := locate_ibuf legal ha hi
    refine ⟨fun v written => ?_, fun unwritten => ?_⟩
    · have bits : unspecifiedBits s (.ibuf i) = 0x00 := by simp [unspecifiedBits, written]
      exact ⟨(readValue_exact hl bits).trans (by simp [heldValue, written]), hl ▸ bits⟩
    · have bits : unspecifiedBits s (.ibuf i) = 0xFF := by simp [unspecifiedBits, unwritten]
      exact ⟨readValue_open hl bits, hl ▸ bits⟩
  · have hl := locate_tbuf legal ha hi
    refine ⟨fun v written idle => ?_, fun hidden => ?_⟩
    · have bits : unspecifiedBits s (.tbuf i) = 0x00 := by simp [unspecifiedBits, written, idle]
      exact ⟨(readValue_exact hl bits).trans (by simp [heldValue, written]), hl ▸ bits⟩
    · have bits : unspecifiedBits s (.tbuf i) = 0xFF := by
        rcases hidden with unwritten | busy
        · simp [unspecifiedBits, unwritten]
        · simp [unspecifiedBits, busy]
      exact ⟨readValue_open hl bits, hl ▸ bits⟩

/-! ### What a read hides while BUSY = 1 -/

/-- A read sees no more of a location than its exact bits. -/
theorem readValue_congr {s t : State} {a : Addr} {l : Loc} (hs : locate s.cfg a = l) (ht : locate t.cfg a = l)
    (draws : t.draws = s.draws) (bits : unspecifiedBits t l = unspecifiedBits s l)
    (held : ∀ j < 8, (unspecifiedBits s l).getLsbD j = false → (heldValue t l).getLsbD j = (heldValue s l).getLsbD j) :
    readValue t a = readValue s a := by
  refine BitVec.eq_of_getLsbD_eq fun j hj => ?_
  rw [readValue_getLsbD ht, readValue_getLsbD hs, draws, bits]
  split
  · rfl
  · next h => exact held j hj (Bool.not_eq_true _ ▸ h)

/-- STATUS shows the flags in bits 3 to 5 only. -/
theorem statusByte_congr {s t : State} (busy : t.busy = s.busy) (done : t.done = s.done) (err : t.err = s.err) {j : Nat}
    (h : ¬(3 ≤ j ∧ j ≤ 5)) : t.statusByte.getLsbD j = s.statusByte.getLsbD j := by
  rw [statusByte_getLsbD, statusByte_getLsbD, busy, done, err]
  match j with
  | 0 | 1 | 2 => rfl
  | 3 | 4 | 5 => exact absurd (by decide) h
  | j + 6 => rfl

/-- The results of a running command can be anything, AENC_* while ADDRENC runs, and a read answers the same (R89). -/
theorem readValue_hides {s : State} (busy : s.busy = true) (a : Addr) (m : Memory) (l : Half) (c : Byte) (f g e : Bool)
    {n c0 c1 : Byte} (aenc : s.runsAddrenc = true ∨ n = s.aencN ∧ c0 = s.aencC0 ∧ c1 = s.aencC1) :
    readValue { s with
        tbuf := m, tlen := l, csum := c, fmtd := f, normd := g, sealed := e, aencN := n, aencC0 := c0, aencC1 := c1 } a
      = readValue s a := by
  have ones : ∀ j < 8, (255#8).getLsbD j = true := by decide
  refine readValue_congr rfl rfl rfl ?_ fun j hj exactBit => ?_ <;> generalize locate s.cfg a = loc at *
  · cases loc with
    | tbuf i =>
      exact (if_pos (show (s.busy || _) = true by simp [busy])).trans
        (if_pos (show (s.busy || _) = true by simp [busy])).symm
    | _ => rfl
  · cases loc with
    | status =>
      rw [unspecifiedBits_status_getLsbD, busy, Bool.true_and, decide_eq_false_iff_not] at exactBit
      refine statusByte_congr (s := s) ?_ ?_ ?_ exactBit <;> rfl
    | csum | tlenLo | tlenHi | tbuf i => simp [unspecifiedBits, busy, ones j hj] at exactBit
    | aencN | aencC0 | aencC1 =>
      rcases aenc with running | ⟨rfl, rfl, rfl⟩
      · simp [unspecifiedBits, running, ones j hj] at exactBit
      · rfl
    | _ => rfl

/-- Settles O48: what is hidden stands in unspecified bits only. -/
theorem busyReadsHideIntermediateResults : Obligations.BusyReadsHideIntermediateResults := by
  unfold Obligations.BusyReadsHideIntermediateResults
  intro s a m l c n c0 c1 f g e busy
  have free {a : Addr} {l : Loc} (hl : locate s.cfg a = l) (bits : unspecifiedBits s l = 0xFF) :
      readValue s a = Config.freeByte s.draws ∧ unspecifiedBits s (locate s.cfg a) = 0xFF :=
    ⟨readValue_open hl bits, hl ▸ bits⟩
  refine ⟨readValue_hides busy a m l c f g e (.inr ⟨rfl, rfl, rfl⟩),
    fun running => readValue_hides busy a m l c f g e (.inl running), ?_, ?_⟩
  · rintro (rfl | rfl | rfl | ⟨rfl | rfl | rfl, running⟩)
    · exact free (l := .csum) rfl (by simp [unspecifiedBits, busy])
    · exact free (l := .tlenLo) rfl (by simp [unspecifiedBits, busy])
    · exact free (l := .tlenHi) rfl (by simp [unspecifiedBits, busy])
    · exact free (l := .aencN) rfl (by simp [unspecifiedBits, running])
    · exact free (l := .aencC0) rfl (by simp [unspecifiedBits, running])
    · exact free (l := .aencC1) rfl (by simp [unspecifiedBits, running])
  · rintro rfl
    refine ⟨by simp [locate_eq_status.2, unspecifiedBits, busy], fun j lo hi => ?_⟩
    rw [readValue_status_getLsbD, if_pos (by simp [busy, lo, hi])]

/-! ### Writes -/

/-- Settles O43: the host's part is `writeLoc`, and a half of a register is replaced by number. -/
theorem operandWritesStoreTheByte : Obligations.OperandWritesStoreTheByte := by
  unfold Obligations.OperandWritesStoreTheByte
  intro s v h rest idle
  have busy (p : Pins) : (s.withTurn p rest).busy = false := State.busy_eq_false.2 idle
  have lo {old : Half} (hh : h.toNat = old.toNat / 256 * 256 + v.toNat) : setLoByte old v = h :=
    BitVec.eq_of_toNat_eq ((setLoByte_toNat old v).trans hh.symm)
  have hi {old : Half} (hh : h.toNat = v.toNat * 256 + old.toNat % 256) : setHiByte old v = h :=
    BitVec.eq_of_toNat_eq ((setHiByte_toNat old v).trans hh.symm)
  have unlocked {p : Pins} {t : State} : (if (s.withTurn p rest).busy then s.withTurn p rest else t) = t :=
    if_neg (by simp [busy])
  have unfrozen {p : Pins} {t : State} (unsealed : s.sealed = false) :
      (if (s.withTurn p rest).busy || (s.withTurn p rest).sealed then s.withTurn p rest else t) = t :=
    if_neg (by rw [busy]; simp [State.withTurn, unsealed])
  refine ⟨fun next => ?_, fun next hh => ?_, fun next hh => ?_, fun next hh => ?_, fun next hh => ?_,
    fun next unsealed hh => ?_, fun next unsealed hh => ?_⟩ <;>
    refine (step_writes next idle (by decide)).trans (congrArg Host.Outcome.next ?_)
  · exact unlocked
  · exact lo hh ▸ unlocked
  · exact hi hh ▸ unlocked
  · exact lo hh ▸ unlocked
  · exact hi hh ▸ unlocked
  · exact lo hh ▸ unfrozen unsealed
  · exact hi hh ▸ unfrozen unsealed

theorem ne_cmd_of_window {a : Addr} (h : 0x400 ≤ a.toNat) : a ≠ 0x002 := by
  rintro rfl
  exact absurd h (by decide)

/-- Settles O44: the location is the buffer's byte, and a read after a write sees that write alone. -/
theorem bufferWindowWritesStoreOneByte : Obligations.BufferWindowWritesStoreOneByte := by
  unfold Obligations.BufferWindowWritesStoreOneByte
  intro s a i v rest legal idle next
  have busy : (s.withTurn (Pins.write a v) rest).busy = false := State.busy_eq_false.2 idle
  refine ⟨fun ha hi => ?_, fun ha hi unsealed => ?_⟩
  · have stored := step_writes next idle (ne_cmd_of_window (by omega))
    rw [locate_ibuf legal ha hi] at stored
    refine ⟨_, stored.trans (congrArg _ (if_neg (by simp [busy]))), rfl, Memory.read_write_same _ _ _,
      fun j hj => Memory.read_write_other _ _ hj⟩
  · have stored := step_writes next idle (ne_cmd_of_window (by omega))
    rw [locate_tbuf legal ha hi] at stored
    refine ⟨_, stored.trans (congrArg _ (if_neg (by rw [busy]; simp [State.withTurn, unsealed]))), rfl,
      Memory.read_write_same _ _ _, fun j hj => Memory.read_write_other _ _ hj⟩

/-- The TBUF window holds TBUF's bytes and reserved locations (R81). -/
theorem locate_tbufWindow {c : Params} {a : Addr} (lo : 0x800 ≤ a.toNat) (hi : a.toNat ≤ 0xBFF) :
    (∃ i, locate c a = .tbuf i) ∨ locate c a = .reserved := by
  unfold locate
  rw [if_neg (by omega), if_neg (by omega), if_pos (by omega)]
  split
  · exact .inl ⟨_, rfl⟩
  · exact .inr rfl

/-- Settles O45: read-only locations take no write, and the locks of R90 and R91 are on every other one named. -/
theorem lockedWritesAreIgnored : Obligations.LockedWritesAreIgnored := by
  unfold Obligations.LockedWritesAreIgnored
  intro s a v
  refine ⟨?_, fun frozen => ?_, fun busy cmd status ctrl => ?_⟩
  · rintro (rfl | rfl | rfl | rfl | rfl | rfl | rfl) <;> rfl
  · have locked {t : State} : (if s.busy || s.sealed then s else t) = s := if_pos (by simp [frozen])
    rintro (rfl | rfl | ⟨lo, hi⟩)
    · exact locked
    · exact locked
    · rcases locate_tbufWindow lo hi with ⟨i, hl⟩ | hl <;> rw [hl]
      · exact locked
      · rfl
  · rcases writeLoc_busy busy (locate s.cfg a) v with same | ⟨hl, -⟩ | ⟨hl, -⟩
    · exact same
    · exact absurd (locate_eq_status.1 hl) status
    · exact absurd (locate_eq_ctrl.1 hl) ctrl

/-! ### The engine after the host's write (R275) -/

/-- An engine that is not held back takes its step. -/
theorem engineTurn_unheld {s : State} (unheld : s.pins.hold = false) : engineTurn s = engineStep s := by
  simp [engineTurn, unheld]

/-- With every byte sent the step is the completion (R242). -/
theorem engineStep_sent {s : State} {r : Run} {x : Nat} (running : s.run = some r) (stage : r.stage = .xmit x)
    (noOffer : s.tx = none) (sent : workLength r s ≤ x) : engineStep s = .next s.complete := by
  rw [xmitStage_eq running stage]
  simp only [xmitStage, noOffer, if_neg (Nat.not_lt.2 sent)]

theorem workLength_congr {s t : State} (h : t.tlen = s.tlen) (r : Run) : workLength r t = workLength r s := by
  simp only [workLength, h]

/-- The three commands of one stage that cannot fail complete at their step (R162, R250, R251). -/
theorem engineStep_ends {s : State} {r : Run} (running : s.run = some r)
    (stage : r.stage = .nop ∨ r.stage = .clear ∨ r.stage = .addrenc) :
    ∃ t, engineStep s = .next t ∧ t.done = true ∧ t.run = none := by
  rcases stage with stage | stage | stage <;> simp only [engineStep, running, stage] <;> exact ⟨_, rfl, rfl, rfl⟩

/-- Settles O49: the engine's part follows the host's, and a step that ends a command sets DONE. -/
theorem engineBeatsSameTurnHostWrite : Obligations.EngineBeatsSameTurnHostWrite := by
  unfold Obligations.EngineBeatsSameTurnHostWrite
  intro s p rest r next hr we running
  have busy : s.busy = true := State.busy_eq_true.2 ⟨r, running⟩
  have readBusy : (hostRead (s.withTurn p rest)).busy = true := by rw [hostRead_busy]; exact busy
  have acknowledge (ha : p.regAddr = 0x003) :
      step s = engineTurn ((hostRead (s.withTurn p rest)).writeStatus p.regWdata) := by
    refine step_busy next hr busy ((hostWrite_elsewhere we (by rw [ha]; decide)).trans ?_)
    rw [ha, locate_eq_status.2 rfl]
    rfl
  have runningRead : ((hostRead (s.withTurn p rest)).writeStatus p.regWdata).run = some r := (hostRead_run _).trans running
  have unheldRead (unheld : p.hold = false) : ((hostRead (s.withTurn p rest)).writeStatus p.regWdata).pins.hold = false :=
    (congrArg Pins.hold (hostRead_pins _)).trans unheld
  refine ⟨fun x b stage offered fail _ => ?_, fun x stage noOffer unheld sent ha => ?_,
    fun stage noOffer unheld ha => ?_, fun _ t h ended => ?_⟩
  · obtain ⟨u, host, run, tx, pins⟩ := hostWrite_busy readBusy
    rw [hostRead_run] at run
    rw [hostRead_tx] at tx
    rw [hostRead_pins] at pins
    rw [step_busy next hr busy host, engineTurn_offered (tx.trans offered),
      engineStep_fail (run.trans running) stage (tx.trans offered) (pins ▸ fail)]
    exact ⟨_, rfl, rfl, rfl, rfl, rfl⟩
  · have work : workLength r ((hostRead (s.withTurn p rest)).writeStatus p.regWdata) = workLength r s :=
      workLength_congr (hostRead_tlen _) r
    rw [acknowledge ha, engineTurn_unheld (unheldRead unheld), engineStep_sent runningRead stage
      ((hostRead_tx _).trans noOffer) (work.trans_le sent)]
    exact ⟨_, rfl, rfl, rfl⟩
  · rw [acknowledge ha, engineTurn_unheld (unheldRead unheld)]
    exact engineStep_ends runningRead stage
  · rcases step_cases_next next h with ⟨reset, -⟩ | ⟨-, u, host, after⟩
    · rw [hr] at reset; cases reset
    · obtain ⟨run, -⟩ := host.of_busy readBusy
      have runU : u.run = some r := by rw [run, hostRead_run]; exact running
      rcases after with rfl | ⟨-, engine⟩
      · rw [ended] at runU; cases runU
      · exact engine.done_of_ends (by rw [runU]; nofun) ended

end Sys2Proof.Machine
end

section
/-! PROOFS. The byte functions: lengths of the telegrams, the normalizer as a scan with a table, and the checksum
(spec 43_formatter.md R201, R210, R214; 41_normalizer.md R144; 44_sealer.md R225). -/

namespace Sys2Proof.Machine

/-! ### Lengths (R201, R210) -/

theorem bodyAa_length_eq (p q : List Byte) :
    (bodyAa p q).length = p.length + q.length + 2 + (if q = [] then 0 else 1) := by
  rw [bodyAa_length, bodyLengthAa]
  cases q with
  | nil => simp
  | cons b q => simp

/-- Settles O37: each length is the one the acceptance checks compute, in whole blocks. -/
theorem telegramLengths : Obligations.TelegramLengths := by
  unfold Obligations.TelegramLengths
  intro a p q
  refine ⟨(telegramZa_length p).trans (lengthZa_eq _), (telegramZi_length p).trans (lengthZi_eq _), telegramV_length p,
    bodyAa_length_eq p q, ?_⟩
  rw [telegramAa_length, lengthAa_eq, bodyAa_length]
  rfl

/-- Under the default sizes the checks of a format command leave room to spare (R214). -/
theorem firstError_default {s : State} {k : TelegramKind} (cfg : s.cfg = Params.default) (short : s.ilen.toNat ≤ 256)
    (split : k = .aa → s.l1len.toNat ≤ s.ilen.toNat) : firstError (commandChecks (fmtCommand k) s) = none := by
  have ibuf : s.cfg.ibufSize = 256 := by rw [cfg]; rfl
  have tbuf : s.cfg.tbufSize = 512 := by rw [cfg]; rfl
  cases k with
  | za =>
    have count := enc_length_le (BitVec.ofNat 8 ((s.ilen.toNat + 15) / 16))
    refine checksZa_none.2 ⟨by omega, ?_, ?_⟩
    · rw [blocks_long]; omega
    · rw [lengthZa_eq]; omega
  | zi =>
    have count := enc_length_le (BitVec.ofNat 8 ((s.ilen.toNat + 3) / 4))
    refine checksZi_none.2 ⟨by omega, ?_, ?_⟩
    · rw [blocks_short]; omega
    · rw [lengthZi_eq]; omega
  | v => exact checksV_none.2 ⟨by omega, by rw [lengthV]; omega⟩
  | aa =>
    have body := bodyLengthAa_le s.ilen.toNat s.l1len.toNat
    have address := enc_length_le s.addr
    have count := enc_length_le (BitVec.ofNat 8 ((bodyLengthAa s.ilen.toNat s.l1len.toNat + 15) / 16))
    refine checksAa_none.2 ⟨by omega, split rfl, ?_, ?_⟩
    · rw [blocks_long]; omega
    · rw [lengthAa_eq]; omega

/-- Settles O38: a format and a send command of one type make the same checks. -/
theorem defaultSizesNeverRejectText : Obligations.DefaultSizesNeverRejectText := by
  unfold Obligations.DefaultSizesNeverRejectText
  intro s k cfg short split
  have passed := firstError_default cfg short split
  refine ⟨passed, ?_⟩
  rw [commandChecks_kind (telegramKind_fmt_or_send (.inr rfl))]
  exact passed

/-! ### One scan with any table of pairs -/

/-- The scan of R142 with `f` in the place of SUB2. -/
def substPairs (f : Byte → Option Byte) : List Byte → List Byte
  | [] => []
  | [b] => [b]
  | b :: c :: rest =>
    match (if b = utf8Lead then f c else none) with
    | some k => k :: substPairs f rest
    | none => b :: substPairs f (c :: rest)

theorem normUtf8_eq_substPairs (s : List Byte) : normUtf8 s = substPairs sub2 s := by
  induction s using normUtf8.induct with
  | case1 | case2 => rfl
  | case3 b c rest k hk ih | case4 b c rest hk ih => simp only [normUtf8, substPairs, hk, ih]

theorem substPairs_pair {f : Byte → Option Byte} {c k : Byte} (h : f c = some k) (rest : List Byte) :
    substPairs f (utf8Lead :: c :: rest) = k :: substPairs f rest := by
  simp only [substPairs, if_true, h]

theorem substPairs_copy {f : Byte → Option Byte} {b : Byte} {rest : List Byte}
    (h : b = utf8Lead → ∀ c, rest.head? = some c → f c = none) : substPairs f (b :: rest) = b :: substPairs f rest := by
  cases rest with
  | nil => rfl
  | cons c rest =>
    have noPair : (if b = utf8Lead then f c else none) = none := by
      split
      · next lead => exact h lead c rfl
      · rfl
    simp only [substPairs, noPair]

theorem substPairs_copy_of_ne {f : Byte → Option Byte} {b : Byte} (h : b ≠ utf8Lead) (rest : List Byte) :
    substPairs f (b :: rest) = b :: substPairs f rest := substPairs_copy fun lead => absurd lead h

/-- The first byte of a scanned string is the string's own or a substitute. -/
theorem substPairs_head {f : Byte → Option Byte} {c d : Byte} {rest : List Byte}
    (h : (substPairs f (c :: rest)).head? = some d) : d = c ∨ ∃ x, f x = some d := by
  cases rest with
  | nil => exact .inl (Option.some.inj h).symm
  | cons x rest =>
    by_cases pair : c = utf8Lead ∧ ∃ k, f x = some k
    · obtain ⟨rfl, k, hk⟩ := pair
      rw [substPairs_pair hk] at h
      exact .inr ⟨x, hk.trans h⟩
    · rw [substPairs_copy fun lead y hy => ?_] at h
      · exact .inl (Option.some.inj h).symm
      · cases hy
        exact Option.eq_none_iff_forall_ne_some.2 fun k hk => pair ⟨lead, k, hk⟩

/-- Two scans are one, if no substitute of the first takes part in a pair of the second, and the lead byte is no second byte. -/
theorem substPairs_substPairs {f g : Byte → Option Byte} (inert : ∀ c k, f c = some k → k ≠ utf8Lead ∧ g k = none)
    (lead : g utf8Lead = none) (s : List Byte) :
    substPairs g (substPairs f s) = substPairs (fun c => f c <|> g c) s := by
  induction s using substPairs.induct (f := f) with
  | case1 | case2 => rfl
  | case3 b c rest k hk ih =>
    obtain ⟨rfl, pair⟩ : b = utf8Lead ∧ f c = some k := by simpa using hk
    rw [substPairs_pair pair, substPairs_copy_of_ne (inert c k pair).1, ih, substPairs_pair (k := k) (by simp [pair])]
  | case4 b c rest hk ih =>
    have copied : b = utf8Lead → f c = none := fun hb => by simpa [hb] using hk
    rw [substPairs_copy (f := f) fun hb d hd => by cases hd; exact copied hb]
    cases hg : (if b = utf8Lead then g c else none) with
    | some k =>
      obtain ⟨rfl, pair⟩ : b = utf8Lead ∧ g c = some k := by simpa using hg
      have hc : c ≠ utf8Lead := by rintro rfl; rw [lead] at pair; cases pair
      simp only [substPairs_copy_of_ne hc, List.cons.injEq, true_and] at ih ⊢
      rw [substPairs_pair pair, ih, substPairs_pair (k := k) (by simp [copied rfl, pair])]
    | none =>
      have unpaired : b = utf8Lead → g c = none := fun hb => by simpa [hb] using hg
      calc substPairs g (b :: substPairs f (c :: rest))
          = b :: substPairs g (substPairs f (c :: rest)) := substPairs_copy fun hb d hd => by
            rcases substPairs_head hd with rfl | ⟨x, hx⟩
            · exact unpaired hb
            · exact (inert x d hx).2
        _ = b :: substPairs (fun c => f c <|> g c) (c :: rest) := by rw [ih]
        _ = substPairs (fun c => f c <|> g c) (b :: c :: rest) := by
            refine (substPairs_copy fun hb d hd => ?_).symm
            cases hd
            simp [copied hb, unpaired hb]

/-! ### Idempotence (R144) -/

theorem sub2_utf8Lead : sub2 utf8Lead = none := by decide

/-- A substitute is no lead byte and has no substitute, so a second scan replaces nothing more. -/
theorem normUtf8_idempotent (s : List Byte) : normUtf8 (normUtf8 s) = normUtf8 s := by
  have twice : (fun c => sub2 c <|> sub2 c) = sub2 := by funext c; cases sub2 c <;> rfl
  simp only [normUtf8_eq_substPairs]
  rw [substPairs_substPairs (fun c k hk => ⟨(sub2_spec hk).1, (sub2_spec hk).2.1⟩) sub2_utf8Lead, twice]

theorem normLatin1_idempotent (s : List Byte) : normLatin1 (normLatin1 s) = normLatin1 s := by
  induction s with
  | nil => rfl
  | cons b s ih =>
    cases hk : sub1 b with
    | some k => rw [normLatin1_replace hk, normLatin1_copy (sub1_spec hk).1, ih]
    | none => rw [normLatin1_copy hk, normLatin1_copy hk, ih]

/-- Settles O33: for each encoding a second scan finds nothing to replace, and a byte below 0x80 is copied. -/
theorem normalizationIsIdempotent : Obligations.NormalizationIsIdempotent := by
  unfold Obligations.NormalizationIsIdempotent
  intro e text
  refine ⟨?_, norm_length_le e text, ?_, fun ascii => ?_⟩
  · cases e with
    | utf8 => exact normUtf8_idempotent text
    | latin1 => exact normLatin1_idempotent text
  · rintro rfl
    exact List.length_map _
  · have whole := norm_append_of_lt ascii e []
    rw [List.append_nil] at whole
    cases e <;> simpa [norm, normUtf8, normLatin1] using whole

/-! ### One row after another (R144) -/

/-- The substitute the rows give a second byte; SUB2 over the whole table. -/
def lookupPair (rows : List SubstRow) (c : Byte) : Option Byte := (rows.find? (fun r => r.1 == c)).map (fun r => r.2.2)

theorem lookupPair_append (rows : List SubstRow) (row : SubstRow) :
    lookupPair (rows ++ [row]) = fun c => lookupPair rows c <|> lookupPair [row] c := by
  funext c
  simp only [lookupPair, List.find?_append]
  cases rows.find? (fun r => r.1 == c) <;> rfl

theorem replaceOne_eq_substPairs (row : SubstRow) (s : List Byte) : replaceOne row s = substPairs (lookupPair [row]) s := by
  induction s using replaceOne.induct (row := row) with
  | case1 | case2 => rfl
  | case3 b c rest h ih =>
    obtain ⟨rfl, rfl⟩ := h
    rw [substPairs_pair (k := row.2.2) (by simp [lookupPair]), ← ih]
    simp [replaceOne]
  | case4 b c rest h ih =>
    rw [substPairs_copy, ← ih]
    · simp [replaceOne, h]
    · rintro rfl d hd
      cases hd
      have other : row.1 ≠ c := fun e => h ⟨rfl, e.symm⟩
      simp [lookupPair, other]

/-- Rows of the table give what the whole table gives. -/
theorem sub2_of_lookupPair {rows : List SubstRow} (sub : rows ⊆ substTable) {c k : Byte} (h : lookupPair rows c = some k) :
    sub2 c = some k := by
  obtain ⟨row, found, rfl⟩ := Option.map_eq_some_iff.1 h
  have key : row.1 = c := by simpa using List.find?_some found
  rw [← key]
  exact (sub_of_mem_substTable (sub (List.mem_of_find?_eq_some found))).1

theorem lookupPair_eq_none_of_sub2 {rows : List SubstRow} (sub : rows ⊆ substTable) {c : Byte} (h : sub2 c = none) :
    lookupPair rows c = none :=
  Option.eq_none_iff_forall_ne_some.2 fun k hk => by rw [sub2_of_lookupPair sub hk] at h; cases h

/-- All the rows of the table, in any order, are the table. -/
theorem lookupPair_perm {rows : List SubstRow} (perm : rows.Perm substTable) : lookupPair rows = sub2 := by
  funext c
  cases h : lookupPair rows c with
  | some k => exact (sub2_of_lookupPair perm.subset h).symm
  | none =>
    refine (sub2_eq_none fun hc => ?_).symm
    obtain ⟨row, hrow, key⟩ := List.mem_map.1 hc
    have absent := List.find?_eq_none.1 (Option.map_eq_none_iff.1 h) row (perm.mem_iff.2 hrow)
    simp [key] at absent

/-- Replacing the characters of some rows, one row after another, is one scan with those rows. -/
theorem foldl_replaceOne {rows : List SubstRow} (sub : rows ⊆ substTable) (text : List Byte) :
    rows.foldl (fun t row => replaceOne row t) text = substPairs (lookupPair rows) text := by
  induction rows using List.reverseRecOn with
  | nil =>
    induction text using substPairs.induct (f := lookupPair []) with
    | case1 | case2 => rfl
    | case3 b c rest k hk => simp [lookupPair] at hk
    | case4 b c rest hk ih => exact (congrArg (b :: ·) ih).trans (substPairs_copy (f := lookupPair []) fun _ _ _ => rfl).symm
  | append_singleton rows row ih =>
    obtain ⟨subRows, subRow⟩ := List.append_subset.1 sub
    rw [List.foldl_append, ih subRows, List.foldl_cons, List.foldl_nil, replaceOne_eq_substPairs, lookupPair_append]
    refine substPairs_substPairs (fun c k hk => ?_) (lookupPair_eq_none_of_sub2 subRow sub2_utf8Lead) text
    obtain ⟨noLead, noSub, -⟩ := sub2_spec (sub2_of_lookupPair subRows hk)
    exact ⟨noLead, lookupPair_eq_none_of_sub2 subRow noSub⟩

/-- Settles O35: the rows one after another are one scan with all of them, and their order does not change the lookup. -/
theorem substitutionOrderDoesNotMatter : Obligations.SubstitutionOrderDoesNotMatter := by
  unfold Obligations.SubstitutionOrderDoesNotMatter
  intro rows text perm
  rw [foldl_replaceOne perm.subset, lookupPair_perm perm, ← normUtf8_eq_substPairs]
  rfl

/-! ### The checksum (R225) -/

/-- XOR of all bytes of a string. -/
def xorAll (s : List Byte) : Byte := s.foldr (fun b acc => b ^^^ acc) 0

theorem foldl_xor (s : List Byte) (a : Byte) : s.foldl (fun acc b => acc ^^^ b) a = a ^^^ xorAll s := by
  induction s generalizing a with
  | nil => exact (BitVec.xor_zero (x := a)).symm
  | cons b s ih => exact (ih (a ^^^ b)).trans (BitVec.xor_assoc a b (xorAll s))

theorem chk_sealed (body : List Byte) : chk (body ++ [0x0D]) = 0x72 ^^^ xorAll body := by
  rw [chk_append, chk, foldl_xor, BitVec.xor_assoc, BitVec.xor_comm (xorAll body), ← BitVec.xor_assoc]
  rfl

theorem xorAll_perm {s t : List Byte} (h : s.Perm t) : xorAll s = xorAll t := by
  induction h with
  | nil => rfl
  | cons b _ ih => exact congrArg (b ^^^ ·) ih
  | swap b c s =>
    show c ^^^ (b ^^^ xorAll s) = b ^^^ (c ^^^ xorAll s)
    rw [← BitVec.xor_assoc, BitVec.xor_comm c b, BitVec.xor_assoc]
  | trans _ _ ih1 ih2 => exact ih1.trans ih2

theorem xor_lt_of_lt {a b : Byte} (ha : a.toNat < 0x80) (hb : b.toNat < 0x80) : (a ^^^ b).toNat < 0x80 := by
  rw [BitVec.toNat_xor]
  exact Nat.xor_lt_two_pow (n := 7) ha hb

theorem xorAll_lt {s : List Byte} (h : ∀ b ∈ s, b.toNat < 0x80) : (xorAll s).toNat < 0x80 := by
  induction s with
  | nil => decide
  | cons b s ih =>
    obtain ⟨hb, hs⟩ := List.forall_mem_cons.1 h
    exact xor_lt_of_lt hb (ih hs)

/-- Settles O36: 0x72 is the seed XOR CR, and XOR does not see the order. -/
theorem checksumIsOrderFreeXor : Obligations.ChecksumIsOrderFreeXor := by
  unfold Obligations.ChecksumIsOrderFreeXor
  intro body other
  refine ⟨chk_sealed body, fun perm => ?_, fun ascii => ?_⟩
  · rw [chk_sealed, chk_sealed, xorAll_perm perm]
  · rw [chk_sealed]
    exact xor_lt_of_lt (by decide) (xorAll_lt ascii)

end Sys2Proof.Machine
end

section
/-! PROOFS. The format and send commands (spec 43_formatter.md R185 to R193, 45_transmit_control.md R249), and what NORM, SEAL
and XMIT are rejected with (60_exceptions.md R274). -/

namespace Sys2Proof.Machine

/-! ### Acceptance and rejection -/

/-- Settles O24: in a held turn an accepted command takes no step. -/
theorem heldCommandIsOnlyAccepted : Obligations.HeldCommandIsOnlyAccepted := by
  unfold Obligations.HeldCommandIsOnlyAccepted
  intro s i idle held passed
  exact exec_held idle passed held

theorem firstError_checksNorm (s : State) :
    firstError (checksNorm s) =
      if s.sealed then some .frozen else if s.cfg.tbufSize < s.tlen.toNat then some .len else none := by
  simp only [checksNorm, checkNotFrozen, checkTlen, firstError, decide_eq_true_eq]

theorem firstError_checksSeal (s : State) :
    firstError (checksSeal s) =
      if s.sealed then some .frozen
      else if s.cfg.tbufSize < s.tlen.toNat then some .len
      else if s.cfg.tbufSize < s.tlen.toNat + 2 then some .ovf else none := by
  simp only [checksSeal, checkNotFrozen, checkTlen, checkRoom, firstError, decide_eq_true_eq]

theorem firstError_checksXmit (s : State) :
    firstError (checksXmit s) = if !s.sealed then some .notsealed else none := by
  simp only [checksXmit, checkSealed, firstError]

/-- Settles O22: each answer is the branch of the checks' case distinction that the hypotheses select. -/
theorem normSealXmitRejections : Obligations.NormSealXmitRejections := by
  unfold Obligations.NormSealXmitRejections
  intro s idle
  have reject {i : Instr} {e : ErrCode} (he : firstError (commandChecks i s) = some e) :
      exec i s = .next { s with err := true, errcode := e, done := true } := exec_reject idle he
  refine ⟨fun frozen => ⟨reject ?_, reject ?_⟩, fun unsealed => reject ?_, fun unsealed long => ⟨reject ?_, reject ?_⟩,
    fun unsealed fits full => reject ?_⟩
  · exact (firstError_checksNorm s).trans (if_pos frozen)
  · exact (firstError_checksSeal s).trans (if_pos frozen)
  · exact (firstError_checksXmit s).trans (if_pos (by rw [unsealed]; rfl))
  · exact (firstError_checksNorm s).trans (by rw [unsealed, if_neg Bool.false_ne_true, if_pos long])
  · exact (firstError_checksSeal s).trans (by rw [unsealed, if_neg Bool.false_ne_true, if_pos long])
  · exact (firstError_checksSeal s).trans
      (by rw [unsealed, if_neg Bool.false_ne_true, if_neg (Nat.not_lt.2 fits), if_pos full])

/-! ### Faults (R302, I1) -/

/-- A fault at the first step is the fault of the whole run. -/
theorem engineRun_fault {s : State} {e : Fault} (h : engineStep s = .fault e) {n : Nat} (hn : 0 < n) :
    engineRun n s = .fault e := by
  obtain ⟨n, rfl⟩ := Nat.exists_eq_add_of_lt hn
  rw [engineRun, h, andThen_fault]

theorem immediateSteps_pos (i : Instr) : 0 < immediateSteps i := by cases i <;> decide

/-- An accepted command whose first step faults ends in that fault. -/
theorem exec_fault {s : State} {i : Instr} {e : Fault} (ready : s.ready) (passed : firstError (commandChecks i s) = none)
    (h : engineStep (s.accept i (firstStage i)) = .fault e) : exec i s = .fault e := by
  obtain ⟨⟨idle, -⟩, unheld⟩ := ready
  rw [exec_run (State.busy_eq_false.2 idle) passed unheld]
  exact engineRun_fault h (immediateSteps_pos i)

/-- The first stage of a format or send command is its FMT stage. -/
theorem firstStage_of_kind {i : Instr} {k : TelegramKind} (kind : telegramKind i = some k) : firstStage i = .fmt k := by
  cases i <;> cases kind <;> rfl

/-- Acceptance changes nothing a FMT stage reads. -/
theorem Run.formatted_accept (r : Run) (k : TelegramKind) (s : State) (i : Instr) (g : Stage) :
    r.formatted k (s.accept i g) = r.formatted k s := by cases k <;> rfl

/-- A FMT stage reads its operands from the snapshot alone. -/
theorem Run.formatted_congr {q r : Run} (snap : q.snap = r.snap) (k : TelegramKind) (s : State) :
    q.formatted k s = r.formatted k s := by
  cases k <;> simp only [Run.formatted, inputText, inputLine1, inputLine2, snap]

/-- Over an unwritten text no telegram is formatted; the two lines of TwoLineDisplay are the text (R193). -/
theorem Run.formatted_of_unwritten {s : State} {i : Instr} {k : TelegramKind} (g : Stage) (kind : telegramKind i = some k)
    (passed : firstError (commandChecks i s) = none) (unwritten : s.ibuf.readBytes 0 s.ilen.toNat = none) :
    Run.formatted { cur := i, stage := g, snap := s.snapshot } k s = none := by
  cases k with
  | za | zi | v => exact Option.map_eq_none_iff.2 unwritten
  | aa =>
    rw [commandChecks_kind kind] at passed
    obtain ⟨-, hsplit, -, -⟩ := checksAa_none.1 passed
    simp only [Run.formatted, inputLine1, inputLine2, State.snapshot]
    split
    · next p q hp hq =>
      rw [← Nat.zero_add s.l1len.toNat] at hq
      have whole := Memory.readBytes_append hp hq
      rw [Nat.zero_add, Nat.add_sub_cancel' hsplit, unwritten] at whole
      cases whole
    · rfl

theorem engineStep_fmt_fault {s : State} {r : Run} {k : TelegramKind} (running : s.run = some r) (stage : r.stage = .fmt k)
    (unwritten : r.formatted k s = none) : engineStep s = .fault .unwrittenIbuf := by
  rw [fmtStage_eq k running stage, unwritten]

theorem engineStep_norm_fault {s : State} {r : Run} (running : s.run = some r) (stage : r.stage = .norm)
    (unwritten : s.tbuf.readBytes 0 (workLength r s) = none) : engineStep s = .fault .unwrittenTbuf := by
  simp only [engineStep, running, stage, normStage, unwritten]

theorem engineStep_seal_fault {s : State} {r : Run} (running : s.run = some r) (stage : r.stage = .sealSum)
    (unwritten : s.tbuf.readBytes 0 (workLength r s) = none) : engineStep s = .fault .unwrittenTbuf := by
  rw [sealStage_eq running stage, unwritten]

/-- Settles O23: the first step of the command reads the bytes, and finds one unwritten. -/
theorem unwrittenBytesFault : Obligations.UnwrittenBytesFault := by
  unfold Obligations.UnwrittenBytesFault
  intro s ready
  refine ⟨fun i k hi passed unwritten => ?_, fun unsealed fits unwritten => ?_, fun unsealed room unwritten => ?_⟩
  · have kind := telegramKind_fmt_or_send hi
    exact exec_fault ready passed (engineStep_fmt_fault rfl (firstStage_of_kind kind)
      ((Run.formatted_accept _ k s i _).trans (Run.formatted_of_unwritten _ kind passed unwritten)))
  · exact exec_fault ready (checksNorm_none.2 ⟨unsealed, fits⟩) (engineStep_norm_fault rfl rfl unwritten)
  · exact exec_fault ready (checksSeal_none.2 ⟨unsealed, by omega, room⟩) (engineStep_seal_fault rfl rfl unwritten)

/-! ### FMT -/

/-- What `fmt_commit` leaves of an idle block (R185). -/
def State.afterFmt (s : State) (out : List Byte) : State :=
  { s with
    tbuf := s.tbuf.writeBytes 0 out
    tlen := BitVec.ofNat 16 out.length
    fmtd := true
    normd := false
    sealed := false
    done := true }

theorem afterFmt_telegram {s : State} {out : List Byte} (fits : out.length ≤ 1024) :
    (s.afterFmt out).telegram = some out := by
  simp only [State.telegram, State.afterFmt]
  rw [ofNat16 fits]
  exact Memory.readBytes_writeBytes _ _ _

/-- FMT as an equation: `out` is the telegram of the operands as they stand. -/
theorem exec_fmt {s : State} {k : TelegramKind} {out : List Byte} (ready : s.ready)
    (passed : firstError (commandChecks (fmtCommand k) s) = none)
    (ho : Run.formatted { cur := fmtCommand k, stage := firstStage (fmtCommand k), snap := s.snapshot } k s = some out) :
    exec (fmtCommand k) s = .next (s.afterFmt out) := by
  have stage : firstStage (fmtCommand k) = .fmt k := firstStage_of_kind (telegramKind_fmt_or_send (.inl rfl))
  have single : isSend (fmtCommand k) = false := by cases k <;> rfl
  have one : immediateSteps (fmtCommand k) = 1 := by cases k <;> rfl
  rw [exec_ready_one ready passed one, fmtStage_eq k rfl stage, Run.formatted_accept, ho]
  dsimp only
  rw [State.advance_single single]
  obtain ⟨⟨hrun, htx⟩, -⟩ := ready
  simp only [State.complete, State.commitTelegram, State.accept, State.afterFmt, hrun, htx]

/-- The telegram of an accepted command leaves room for the trailer (R184). -/
theorem State.formatted_room {s : State} {i : Instr} {k : TelegramKind} {out : List Byte} (kind : telegramKind i = some k)
    (passed : firstError (commandChecks i s) = none) (ho : s.formatted k = some out) : out.length + 2 ≤ s.cfg.tbufSize :=
  Machine.formatted_room (r := { cur := i, stage := .fmt k, snap := s.snapshot }) kind rfl rfl rfl passed
    (Run.formatted_of_accepted _ kind passed ho)

/-- An accepted FMT writes its telegram and nothing behind it (R185). -/
theorem fmt_writes {s : State} {k : TelegramKind} {out : List Byte} (ready : s.ready) (legal : s.cfg.legal = true)
    (passed : firstError (commandChecks (fmtCommand k) s) = none) (ho : s.formatted k = some out) :
    ∃ t, exec (fmtCommand k) s = .next t ∧ t.telegram = some out ∧
      (∀ a, out.length ≤ a → t.tbuf.read a = s.tbuf.read a) ∧
      t = { s with
            tbuf := t.tbuf, tlen := BitVec.ofNat 16 out.length,
            fmtd := true, normd := false, sealed := false, done := true } := by
  have kind : telegramKind (fmtCommand k) = some k := telegramKind_fmt_or_send (.inl rfl)
  have room := State.formatted_room kind passed ho
  obtain ⟨-, -, -, bound⟩ := legal_bounds legal
  exact ⟨_, exec_fmt ready passed (Run.formatted_of_accepted _ kind passed ho), afterFmt_telegram (by omega),
    fun a ha => Memory.read_writeBytes_above _ _ ha, rfl⟩

/-- Settles O13: `out` is the FreeText telegram of the text. -/
theorem fmtZaWritesFreeText : Obligations.FmtZaWritesFreeText := by
  unfold Obligations.FmtZaWritesFreeText
  intro s text out ready legal written hout fits count room
  change out = telegramZa text at hout
  subst hout
  rw [telegramZa_length] at room
  rw [Memory.readBytes_length written] at room count
  exact fmt_writes (k := .za) ready legal (checksZa_none.2 ⟨fits, count, room⟩) (congrArg (Option.map telegramZa) written)

/-- Settles O14: `out` is the CompactText telegram of the text. -/
theorem fmtZiWritesCompactText : Obligations.FmtZiWritesCompactText := by
  unfold Obligations.FmtZiWritesCompactText
  intro s text out ready legal written hout fits count room
  change out = telegramZi text at hout
  subst hout
  rw [telegramZi_length] at room
  rw [Memory.readBytes_length written] at room count
  exact fmt_writes (k := .zi) ready legal (checksZi_none.2 ⟨fits, count, room⟩) (congrArg (Option.map telegramZi) written)

/-- Settles O15: `v` and the text are the RunNumber telegram. -/
theorem fmtVWritesRunNumber : Obligations.FmtVWritesRunNumber := by
  unfold Obligations.FmtVWritesRunNumber
  intro s text ready legal written fits room
  have checked : lengthV s.ilen.toNat + 2 ≤ s.cfg.tbufSize := by
    rw [lengthV, ← Memory.readBytes_length written]
    omega
  exact fmt_writes (k := .v) ready legal (checksV_none.2 ⟨fits, checked⟩) (congrArg (Option.map telegramV) written)

/-- Settles O16: the body is that of the two lines into which L1LEN cuts the text, and `out` is their TwoLineDisplay telegram. -/
theorem fmtAaWritesTwoLineDisplay : Obligations.FmtAaWritesTwoLineDisplay := by
  unfold Obligations.FmtAaWritesTwoLineDisplay
  intro s line1 line2 body out ready legal split len1 written hbody hout fits count room
  have lines : body = bodyAa line1 line2 := by
    rw [hbody, bodyAa]
    cases line2 with
    | nil => rfl
    | cons b line2 => rw [if_neg (List.cons_ne_nil b line2), if_pos (List.length_pos_of_ne_nil (List.cons_ne_nil b line2))]; rfl
  subst lines
  change out = telegramAa s.addr line1 line2 at hout
  subst hout
  have len : line1.length + line2.length = s.ilen.toNat := by
    rw [← List.length_append]
    exact Memory.readBytes_length written
  rw [telegramAa_length, len, len1] at room
  rw [bodyAa_length, len, len1] at count
  have ho : s.formatted .aa = some (telegramAa s.addr line1 line2) := by
    simp only [State.formatted, written, Option.map_some]
    rw [← len1, List.take_left, List.drop_left]
  exact fmt_writes (k := .aa) ready legal (checksAa_none.2 ⟨fits, split, count, room⟩) ho

/-! ### SEND -/

/-- TBUF after the FMT, NORM and SEAL stages of a SEND: `out` formatted, `body` its substitution, `c` the checksum. -/
def State.sealedTbuf (s : State) (out body : List Byte) (c : Byte) : Memory :=
  (((s.tbuf.writeBytes 0 out).writeBytes 0 body).write body.length Config.cr).write (body.length + 1) c

/-- What a SEND leaves of an idle block in the turn of its CMD write (R249). -/
def State.afterSend (s : State) (k : TelegramKind) (out body : List Byte) (c : Byte) : State :=
  { s with
    tbuf := s.sealedTbuf out body c
    tlen := BitVec.ofNat 16 (body.length + 2)
    csum := c
    fmtd := true
    normd := true
    sealed := true
    done := false
    run := some { cur := sendCommand k, stage := .xmit 0, snap := s.snapshot }
    tx := (body ++ [Config.cr, c]).head? }

/-- SEND as an equation, with the telegram it leaves in TBUF. -/
theorem exec_send {s : State} {k : TelegramKind} {out body : List Byte} {c : Byte} (ready : s.ready)
    (passed : firstError (commandChecks (sendCommand k) s) = none)
    (ho : Run.formatted { cur := sendCommand k, stage := firstStage (sendCommand k), snap := s.snapshot } k s = some out)
    (room : out.length + 2 ≤ 1024) (hb : body = norm s.cfg.substEnc out) (hc : c = chk (body ++ [Config.cr])) :
    exec (sendCommand k) s = .next (s.afterSend k out body c) ∧
      (s.sealedTbuf out body c).readBytes 0 (body.length + 2) = some (body ++ [Config.cr, c]) := by
  have stage : firstStage (sendCommand k) = .fmt k := firstStage_of_kind (telegramKind_fmt_or_send (.inr rfl))
  have send : isSend (sendCommand k) = true := by cases k <;> rfl
  have five : immediateSteps (sendCommand k) = 5 := by cases k <;> rfl
  obtain ⟨⟨idle, noOffer⟩, unheld⟩ := ready
  obtain ⟨read, run⟩ := engineRun_send (s := s.accept (sendCommand k) (firstStage (sendCommand k))) rfl stage send noOffer
    ((Run.formatted_accept _ k s _ _).trans ho) room hb hc rfl
  rw [exec_run (State.busy_eq_false.2 idle) passed unheld, five]
  exact ⟨run, read⟩

/-- The telegram left by a SEND (R249). -/
theorem afterSend_telegram {s : State} {k : TelegramKind} {out body : List Byte} {c : Byte} (fits : body.length + 2 ≤ 1024)
    (read : (s.sealedTbuf out body c).readBytes 0 (body.length + 2) = some (body ++ [Config.cr, c])) :
    (s.afterSend k out body c).telegram = some (body ++ [Config.cr, c]) := by
  simp only [State.telegram, State.afterSend]
  rw [ofNat16 fits]
  exact read

/-- Behind the sealed telegram stands what FMT wrote there, or what stood there before (R146, R185). -/
theorem sealedTbuf_read_above {s : State} {out body : List Byte} {c : Byte} {a : Nat} (h : body.length + 2 ≤ a) :
    (s.sealedTbuf out body c).read a = if a < out.length then out[a]? else s.tbuf.read a := by
  rw [State.sealedTbuf, Memory.read_write_other _ _ (by omega), Memory.read_write_other _ _ (by omega),
    Memory.read_writeBytes_above _ _ (by omega), Memory.read_writeBytes]
  simp

/-- An accepted SEND leaves its telegram sealed in TBUF. -/
theorem send_writes {s : State} {k : TelegramKind} {out body : List Byte} {c : Byte} (ready : s.ready)
    (legal : s.cfg.legal = true) (passed : firstError (commandChecks (sendCommand k) s) = none)
    (ho : s.formatted k = some out) (hb : body = norm s.cfg.substEnc out) (hc : c = chk (body ++ [Config.cr])) :
    exec (sendCommand k) s = .next (s.afterSend k out body c) ∧
      (s.afterSend k out body c).telegram = some (body ++ [Config.cr, c]) := by
  have kind : telegramKind (sendCommand k) = some k := telegramKind_fmt_or_send (.inr rfl)
  have room := State.formatted_room kind passed ho
  have shorter := norm_length_le s.cfg.substEnc out
  rw [← hb] at shorter
  obtain ⟨-, -, -, bound⟩ := legal_bounds legal
  obtain ⟨run, read⟩ := exec_send ready passed (Run.formatted_of_accepted _ kind passed ho) (by omega) hb hc
  exact ⟨run, afterSend_telegram (by omega) read⟩

/-- Settles O20: the stages of the SEND up to its first offer, as one equation. -/
theorem sendOffersTheSealedTelegram : Obligations.SendOffersTheSealedTelegram := by
  unfold Obligations.SendOffersTheSealedTelegram
  intro s kind out body k ready legal passed ho hb hk
  obtain ⟨run, written⟩ := send_writes ready legal passed ho hb hk
  exact ⟨_, run, written, fun a ha => sealedTbuf_read_above ha, rfl, rfl⟩

/-! ### XMIT -/

/-- XMIT as an equation (R242). -/
theorem exec_xmit {s : State} {b : Byte} (ready : s.ready) (frozen : s.sealed = true) (long : 0 < s.tlen.toNat)
    (first : s.tbuf.read 0 = some b) :
    exec .xmit s = .next
      { s with run := some { cur := .xmit, stage := .xmit 0, snap := s.snapshot }, done := false, tx := some b } := by
  rw [exec_ready_one (i := .xmit) ready (checksXmit_none.2 frozen) rfl]
  exact engineStep_offer (s := s.accept .xmit (.xmit 0)) rfl rfl ready.1.2 long first

/-- A byte is on offer in the XMIT stage only. -/
theorem stage_of_offer {s : State} {r : Run} {b : Byte} (agrees : s.stageAgrees r) (offered : s.tx = some b) :
    ∃ x, r.stage = .xmit x := by
  have noOffer {P : Prop} (h : s.tx = none) : P := by rw [offered] at h; cases h
  cases stage : r.stage with
  | xmit x => exact ⟨x, rfl⟩
  | nop | clear | addrenc =>
    simp only [State.stageAgrees, stage] at agrees
    exact noOffer agrees.2
  | fmt k => exact noOffer ((stageAgrees_fmt stage).1 agrees).2.2
  | norm => exact noOffer ((stageAgrees_norm stage).1 agrees).2.2.2
  | sealSum => exact noOffer ((stageAgrees_sealSum stage).1 agrees).2.2.2
  | sealTail acc => exact noOffer ((stageAgrees_sealTail stage).1 agrees).2.2.2.1

/-- Settles O19: XMIT's one step offers TBUF[0], and the invariant says which byte is on offer in which stage. -/
theorem xmitOffersTheFirstByte : Obligations.XmitOffersTheFirstByte := by
  unfold Obligations.XmitOffersTheFirstByte
  refine ⟨fun s b ready frozen long first => ⟨_, exec_xmit ready frozen long first, rfl, tx_some rfl⟩,
    fun s b offered => tx_some offered, fun s noOffer => tx_none noOffer, fun s hs valid => ?_⟩
  obtain ⟨b, offered⟩ := Option.isSome_iff_exists.1 valid
  cases running : s.run with
  | none =>
    have idle := (hs.idle (State.busy_eq_false.2 running)).2
    rw [offered] at idle
    cases idle
  | some r =>
    obtain ⟨-, agrees⟩ := hs.run_agrees running
    obtain ⟨x, stage⟩ := stage_of_offer agrees offered
    obtain ⟨cur, -, -, offer, -⟩ := (stageAgrees_xmit stage).1 agrees
    obtain ⟨hx, byte⟩ := offer b offered
    exact ⟨r, x, rfl, cur, stage, hx, by rw [(tx_some offered).2]; exact byte⟩

/-! ### SEND and the four commands -/

/-- What FMT and then NORM leave of an idle block. -/
def State.afterNorm (s : State) (out body : List Byte) : State :=
  { s.afterFmt out with
    tbuf := (s.tbuf.writeBytes 0 out).writeBytes 0 body
    tlen := BitVec.ofNat 16 body.length
    normd := true }

/-- What FMT, NORM and then SEAL leave of an idle block. -/
def State.afterSeal (s : State) (out body : List Byte) (c : Byte) : State :=
  { s.afterNorm out body with
    tbuf := s.sealedTbuf out body c
    tlen := BitVec.ofNat 16 (body.length + 2)
    csum := c
    sealed := true }

theorem afterNorm_tlen {s : State} {out body : List Byte} (fits : body.length ≤ 1024) :
    (s.afterNorm out body).tlen.toNat = body.length := ofNat16 fits

/-- A sealed telegram has a first byte. -/
theorem trailer_head (body : List Byte) (c : Byte) : ∃ b, (body ++ [Config.cr, c]).head? = some b := by
  cases body <;> exact ⟨_, rfl⟩

/-- NORM of the formatted telegram is not rejected. -/
theorem exec_norm_afterFmt {s : State} {out body : List Byte} (ready : s.ready) (fits : out.length ≤ s.cfg.tbufSize)
    (bound : out.length ≤ 1024) (hb : body = norm s.cfg.substEnc out) :
    exec .norm (s.afterFmt out) = .next (s.afterNorm out body) := by
  subst hb
  exact exec_norm (s := s.afterFmt out) ready rfl ((ofNat16 bound).trans_le fits) (afterFmt_telegram bound)

/-- SEAL of the normalised telegram is not rejected (R223). -/
theorem exec_seal_afterNorm {s : State} {out body : List Byte} {c : Byte} (ready : s.ready)
    (fits : body.length + 2 ≤ s.cfg.tbufSize) (bound : body.length + 2 ≤ 1024) (hc : c = chk (body ++ [Config.cr])) :
    exec .sealTelegram (s.afterNorm out body) = .next (s.afterSeal out body c) := by
  have len : (s.afterNorm out body).tlen.toNat = body.length := afterNorm_tlen (by omega)
  have written : (s.afterNorm out body).telegram = some body := by
    rw [State.telegram, len]
    exact Memory.readBytes_writeBytes _ _ _
  have tlen : (s.afterNorm out body).tlen + 2 = BitVec.ofNat 16 (body.length + 2) := by
    rw [← ofNat16_add_two, len]
  rw [exec_sealTelegram (s := s.afterNorm out body) ready rfl (by rw [len]; exact fits) written, len, tlen, ← hc]
  rfl

/-- XMIT of the sealed telegram is not rejected, and offers what a SEND offers. -/
theorem exec_xmit_afterSeal {s : State} {k : TelegramKind} {out body : List Byte} {c : Byte} (ready : s.ready)
    (bound : body.length + 2 ≤ 1024)
    (read : (s.sealedTbuf out body c).readBytes 0 (body.length + 2) = some (body ++ [Config.cr, c])) :
    exec .xmit (s.afterSeal out body c) = .next
      { s.afterSend k out body c with
        run := some { cur := .xmit, stage := .xmit 0, snap := (s.afterSeal out body c).snapshot } } := by
  have first := Memory.read_of_readBytes (i := 0) read (by omega)
  rw [← List.head?_eq_getElem?] at first
  obtain ⟨b, head⟩ := trailer_head body c
  rw [exec_xmit (s := s.afterSeal out body c) ready rfl ((ofNat16 bound).symm ▸ Nat.succ_pos _) (first.trans head),
    State.afterSend, head]
  rfl

/-- Settles O30: each of the four commands starts where the one before it left off. -/
theorem sendEqualsTheFourCommands : Obligations.SendEqualsTheFourCommands := by
  unfold Obligations.SendEqualsTheFourCommands
  intro s t1 k ready legal passed h1
  have kindFmt : telegramKind (fmtCommand k) = some k := telegramKind_fmt_or_send (.inl rfl)
  have kindSend : telegramKind (sendCommand k) = some k := telegramKind_fmt_or_send (.inr rfl)
  cases ho : Run.formatted { cur := fmtCommand k, stage := firstStage (fmtCommand k), snap := s.snapshot } k s with
  | none =>
    have fault := engineStep_fmt_fault rfl (firstStage_of_kind kindFmt) ((Run.formatted_accept _ k s (fmtCommand k) _).trans ho)
    rw [exec_fault ready passed fault] at h1
    cases h1
  | some out =>
    rw [exec_fmt ready passed ho] at h1
    cases h1
    have room := formatted_room kindFmt rfl rfl rfl passed ho
    have shorter := norm_length_le s.cfg.substEnc out
    obtain ⟨-, -, -, bound⟩ := legal_bounds legal
    rw [← commandChecks_kind kindSend] at passed
    obtain ⟨run, read⟩ := exec_send ready passed ((Run.formatted_congr rfl k s).trans ho) (by omega) rfl rfl
    exact ⟨_, _, _, exec_norm_afterFmt ready (by omega) (by omega) rfl, exec_seal_afterNorm ready (by omega) (by omega) rfl,
      exec_xmit_afterSeal (k := k) ready (by omega) read, rfl, rfl, run⟩

end Sys2Proof.Machine
end

section
/-! PROOFS. Performing a command at once or in later turns (spec 45_transmit_control.md R240). -/

namespace Sys2Proof.Machine

/-! ### Quiet turns -/

theorem withTurn_self {s : State} {p : Pins} {rest : List Pins} (pins : s.pins = p) (inputs : s.inputs = rest) :
    s.withTurn p rest = s := by
  subst pins inputs
  rfl

/-- A quiet turn is one engine step. -/
theorem step_quiet {s : State} (last : s.inputs = []) : step s = engineStep (s.withTurn Pins.quiet []) := by
  have sampled : sampleInputs s = s.withTurn Pins.quiet [] := by
    unfold sampleInputs State.withTurn
    rw [last]
    rfl
  rw [step, sampled, turn_noHost ⟨rfl, rfl, rfl⟩]
  cases busy : (s.withTurn Pins.quiet []).busy with
  | true => exact (if_pos rfl).trans (engineTurn_unheld rfl)
  | false => simp only [engineStep, State.busy_eq_false.1 busy]; rfl

/-- After the last listed turn every turn is the engine's. -/
theorem turns_quiet {s : State} (last : s.inputs = []) (n : Nat) :
    turns (n + 1) s = engineRun (n + 1) (s.withTurn Pins.quiet []) := by
  induction n generalizing s with
  | zero => rw [turns_succ, step_quiet last]; rfl
  | succ n ih =>
    rw [turns_succ, step_quiet last, engineRun]
    cases h : engineStep (s.withTurn Pins.quiet []) with
    | next t =>
      have keeps := engineStep_keeps h
      have same : t.withTurn Pins.quiet [] = t := withTurn_self keeps.pins keeps.inputs
      rw [andThen_next, andThen_next, ih keeps.inputs, same]
    | fault e => rfl
    | refused e => rfl

/-! ### Commands that wait on nothing outside the block -/

/-- No command runs, or one that is no SEND in a stage other than XMIT. -/
def State.single (s : State) : Prop := ∀ r, s.run = some r → isSend r.cur = false ∧ ∀ x, r.stage ≠ .xmit x

theorem single_of_idle {s : State} (idle : s.run = none) : s.single := fun r h => by rw [idle] at h; cases h

theorem single_accept {s : State} {i : Instr} (h : nonWaiting i = true) : (s.accept i (firstStage i)).single := by
  rintro r hr
  cases hr
  cases i with
  | xmit | sendZa | sendZi | sendV | sendAa => cases h
  | nop | clear | addrenc | fmtZa | fmtZi | fmtV | fmtAa | norm | sealTelegram => exact ⟨rfl, nofun⟩

/-- Such a command ends at its step, or is SEAL and goes on to its last one. -/
theorem EngineMove.single_ends {s t : State} {r : Run} (h : EngineMove s t) (single : s.single) (running : s.run = some r) :
    t.run = none ∨ r.stage = .sealSum ∧ ∃ acc, t.run = some { r with stage := .sealTail acc } := by
  obtain ⟨noSend, noXmit⟩ := single r running
  have same {q : Run} (hq : s.run = some q) : q = r := Option.some.inj (hq.symm.trans running)
  cases h with
  | idle idle => rw [running] at idle; cases idle
  | nop | clear | addrenc => exact .inl rfl
  | fmt q _ _ hq | norm q _ hq | sealTail q _ hq =>
    cases same hq
    rw [State.advance_single noSend]
    exact .inl rfl
  | sealSum q t hq stage =>
    cases same hq
    exact .inr ⟨stage, _, rfl⟩
  | txFail q x _ hq stage | txAccept q x _ hq stage | txPending q x _ hq stage | txOffer q x _ hq stage | txDone q x hq stage =>
    cases same hq
    exact absurd stage (noXmit x)

theorem EngineMove.eq_of_idle {s t : State} (h : EngineMove s t) (idle : s.run = none) : t = s := by
  cases h with
  | idle => rfl
  | nop r hr | clear r hr | addrenc r hr | fmt r _ _ hr | norm r _ hr | sealSum r _ hr | sealTail r _ hr
  | txFail r _ _ hr | txAccept r _ _ hr | txPending r _ _ hr | txOffer r _ _ hr | txDone r _ hr =>
    exact nomatch hr.symm.trans idle

theorem EngineMove.single {s t : State} (hs : s.single) (h : EngineMove s t) : t.single := by
  cases running : s.run with
  | none =>
    rwa [h.eq_of_idle running]
  | some r =>
    rcases h.single_ends hs running with idle | ⟨-, acc, next⟩
    · exact single_of_idle idle
    · intro q hq
      rw [next] at hq
      cases hq
      exact ⟨(hs r running).1, nofun⟩

/-- Two steps end any such command. -/
theorem engineRun_two_ends {s t : State} (hs : s.single) (h : engineRun 2 s = .next t) : t.run = none := by
  obtain ⟨u, hu, h1⟩ := andThen_eq_next.1 h
  rw [engineRun_one] at h1
  have move1 := engineStep_cases hu
  have move2 := engineStep_cases h1
  have ended (idle : u.run = none) : t.run = none := by rw [move2.eq_of_idle idle]; exact idle
  cases running : s.run with
  | none => exact ended (by rw [move1.eq_of_idle running]; exact running)
  | some r =>
    rcases move1.single_ends hs running with idle | ⟨-, acc, next⟩
    · exact ended idle
    · rcases move2.single_ends (move1.single hs) next with idle | ⟨stage, -⟩
      · exact idle
      · cases stage

/-- More steps than two change nothing. -/
theorem engineRun_two_add {s : State} (hs : s.single) (n : Nat) : engineRun (2 + n) s = engineRun 2 s := by
  rw [engineRun_add]
  cases h : engineRun 2 s with
  | next t => exact engineRun_idle (engineRun_two_ends hs h) n
  | fault e => rfl
  | refused e => rfl

/-! ### Only XMIT looks at the signals -/

theorem advance_withTurn (s : State) (r : Run) (g : Stage) (p : Pins) (rest : List Pins) :
    (s.withTurn p rest).advance r g = (s.advance r g).withTurn p rest := by
  unfold State.advance
  split <;> rfl

/-- Before XMIT a step does the same whatever the signals are. -/
theorem engineStep_withTurn {s : State} (hs : s.single) (p : Pins) (rest : List Pins) :
    engineStep (s.withTurn p rest) = andThen (engineStep s) (fun t => .next (t.withTurn p rest)) := by
  cases running : s.run with
  | none => simp only [engineStep, show (s.withTurn p rest).run = none from running, running, andThen_next]
  | some r =>
    have running' : (s.withTurn p rest).run = some r := running
    cases stage : r.stage with
    | nop | clear | addrenc => simp only [engineStep, running, running', stage]; rfl
    | fmt k =>
      have same : r.formatted k (s.withTurn p rest) = r.formatted k s := by cases k <;> rfl
      rw [fmtStage_eq k running stage, fmtStage_eq k running' stage, same]
      cases r.formatted k s with
      | none => rfl
      | some out => exact congrArg _ (advance_withTurn (s.commitTelegram out) r _ p rest)
    | norm =>
      cases text : s.tbuf.readBytes 0 (workLength r s) with
      | none => rw [engineStep_norm_fault running stage text, engineStep_norm_fault running' stage text, andThen_fault]
      | some t =>
        rw [normStage_eq running stage text, normStage_eq running' stage text]
        rw [andThen_next, ← advance_withTurn]
        rfl
    | sealSum =>
      cases text : s.tbuf.readBytes 0 (workLength r s) with
      | none => rw [engineStep_seal_fault running stage text, engineStep_seal_fault running' stage text, andThen_fault]
      | some t =>
        rw [sealStage_eq running stage, sealStage_eq running' stage, text,
          show (s.withTurn p rest).tbuf.readBytes 0 (workLength r (s.withTurn p rest)) = some t from text]
        rfl
    | sealTail acc =>
      rw [sealTailStage_eq running stage rfl, sealTailStage_eq running' stage rfl]
      rw [andThen_next, ← advance_withTurn]
      rfl
    | xmit x => exact absurd stage ((hs r running).2 x)

theorem engineRun_withTurn {s : State} (hs : s.single) (p : Pins) (rest : List Pins) (n : Nat) :
    engineRun n (s.withTurn p rest) = andThen (engineRun n s) (fun t => .next (t.withTurn p rest)) := by
  induction n generalizing s with
  | zero => rfl
  | succ n ih =>
    rw [engineRun, engineRun, engineStep_withTurn hs]
    cases h : engineStep s with
    | next t => exact ih ((engineStep_cases h).single hs)
    | fault e => rfl
    | refused e => rfl

/-! ### The statement -/

theorem andThen_assoc (o : Result) (f g : State → Result) :
    andThen (andThen o f) g = andThen o (fun s => andThen (f s) g) := by
  cases o <;> rfl

theorem exec_inputs {i : Instr} {s t : State} (h : exec i s = .next t) : t.inputs = s.inputs := by
  rcases exec_cases h with ⟨-, rfl⟩ | ⟨-, e, -, rfl⟩ | ⟨-, -, n, -, run⟩
  · rfl
  · rfl
  · exact (engineRun_keeps run).inputs

/-- The checks do not look at the signals. -/
theorem commandChecks_withTurn (i : Instr) (s : State) (p : Pins) (rest : List Pins) :
    commandChecks i (s.withTurn p rest) = commandChecks i s := commandChecks_congr i rfl rfl rfl rfl rfl rfl

/-- The telegram FMT writes does not depend on the signals. -/
theorem formatted_withTurn (k : TelegramKind) (s : State) (p : Pins) (rest : List Pins) :
    (s.withTurn p rest).formatted k = s.formatted k := by cases k <;> rfl

/-- A turn that writes command `i` to CMD, and holds the engine back or not. -/
def Pins.command (i : Instr) (held : Bool) : Pins := { Pins.write 0x002 (encode i) with hold := held }

/-- The CMD write of a command to an idle block. -/
theorem step_command {s : State} {i : Instr} {held : Bool} {rest : List Pins} (next : s.nextTurn (Pins.command i held) rest)
    (idle : s.run = none) : step s = exec i (s.withTurn (Pins.command i held) rest) := by
  obtain ⟨command, -⟩ := stepRunsDecodedCommand s (Pins.command i held) rest next rfl rfl rfl
  rw [command i (decode_encode i) (State.busy_eq_false.2 idle), hostRead_of_not_re rfl]

/-- The turn of the CMD write and the two quiet turns after it. -/
theorem turns_command {s : State} {i : Instr} {held : Bool} (next : s.nextTurn (Pins.command i held) [])
    (idle : s.run = none) :
    turns 3 s =
      andThen (exec i (s.withTurn (Pins.command i held) [])) (fun t => engineRun 2 (t.withTurn Pins.quiet [])) := by
  rw [turns_succ, step_command next idle]
  cases h : exec i (s.withTurn (Pins.command i held) []) with
  | next t => exact turns_quiet (exec_inputs h) 1
  | fault e => rfl
  | refused e => rfl

/-- A command that waits on nothing outside the block ends as its two steps of later turns do, if the turn of its CMD write
performs it (R240). -/
theorem perform_now_or_later {s : State} {i : Instr} (nonWait : nonWaiting i = true) (n : Nat) :
    andThen (engineRun n (s.accept i (firstStage i))) (fun t => engineRun 2 (t.withTurn Pins.quiet [])) =
      engineRun 2 ((s.accept i (firstStage i)).withTurn Pins.quiet []) := by
  have single := single_accept (s := s) nonWait
  have singleQuiet : ((s.accept i (firstStage i)).withTurn Pins.quiet []).single := single
  calc
    _ = andThen (engineRun n ((s.accept i (firstStage i)).withTurn Pins.quiet [])) (engineRun 2) := by
      rw [engineRun_withTurn single, andThen_assoc]
      rfl
    _ = engineRun (2 + n) ((s.accept i (firstStage i)).withTurn Pins.quiet []) := by rw [← engineRun_add, Nat.add_comm]
    _ = _ := engineRun_two_add singleQuiet n

/-- Settles O25: a rejection is the same in both turns, and an accepted command's steps commute with the turns' signals. -/
theorem stepwiseExecutionEqualsAtomic : Obligations.StepwiseExecutionEqualsAtomic := by
  unfold Obligations.StepwiseExecutionEqualsAtomic
  intro s i held idle nonWait
  cases held with
  | false => rfl
  | true =>
    have notBusy (held : Bool) : (s.withTurn (Pins.command i held) []).busy = false := State.busy_eq_false.2 idle.1
    have split (held : Bool) : turns 3 { s with inputs := [Pins.command i held] } =
        andThen (exec i (s.withTurn (Pins.command i held) [])) (fun t => engineRun 2 (t.withTurn Pins.quiet [])) :=
      turns_command rfl idle.1
    refine (split true).trans (Eq.trans ?_ (split false).symm)
    cases passed : firstError (commandChecks i s) with
    | some e =>
      have fails (held : Bool) : firstError (commandChecks i (s.withTurn (Pins.command i held) [])) = some e := by
        rw [commandChecks_withTurn, passed]
      rw [exec_reject (notBusy true) (fails true), exec_reject (notBusy false) (fails false)]
      rfl
    | none =>
      have passes (held : Bool) : firstError (commandChecks i (s.withTurn (Pins.command i held) [])) = none := by
        rw [commandChecks_withTurn, passed]
      rw [exec_held (notBusy true) (passes true) rfl, exec_run (notBusy false) (passes false) rfl,
        perform_now_or_later nonWait]
      rfl

end Sys2Proof.Machine
end

section
/-! PROOFS. The sink: accepted and unanswered offers, and the delivery of a sealed telegram (spec 20_memory.md R95, R96;
45_transmit_control.md R242, R249; 70_reset_and_hazards.md R312). -/

namespace Sys2Proof.Machine

/-! ### One answer -/

/-- ACCEPT hands the byte over and moves XIDX on (R96). -/
theorem engineStep_accept {s : State} {r : Run} {x : Nat} {b : Byte} (running : s.run = some r) (stage : r.stage = .xmit x)
    (offered : s.tx = some b) (noFail : s.pins.txFail = false) (ready : s.pins.txReady = true) :
    engineStep s =
      .next { s with tx := none, sinkOut := s.sinkOut ++ [b], run := some { r with stage := .xmit (x + 1) } } := by
  rw [xmitStage_eq running stage]
  simp only [xmitStage, offered, noFail, ready, Bool.false_eq_true, if_false, if_true, State.toStage]

/-- Settles O26: the turn is the engine's step. -/
theorem acceptedByteReachesTheSink : Obligations.AcceptedByteReachesTheSink := by
  unfold Obligations.AcceptedByteReachesTheSink
  intro s p rest r x b next noHost running stage offered noFail ready
  rw [step_noHost next noHost (State.busy_eq_true.2 ⟨r, running⟩), engineTurn_offered (s := s.withTurn p rest) offered]
  exact engineStep_accept (s := s.withTurn p rest) running stage offered noFail ready

/-! ### No answer -/

/-- A turn of which the list says nothing is a quiet one that it lists. -/
theorem step_listed (s : State) :
    step s = step { s with inputs := s.inputs.headD Pins.quiet :: s.inputs.tail } := rfl

/-- No turn to come has a reset or an answer of the sink. -/
def State.unanswered (s : State) : Prop := ∀ p ∈ s.inputs, p.rst = false ∧ p.txReady = false ∧ p.txFail = false

/-- A turn without an answer leaves the offer, the command and the sink as they were (R312). -/
theorem step_unanswered {s : State} {r : Run} {x : Nat} {b : Byte} (running : s.run = some r) (stage : r.stage = .xmit x)
    (offered : s.tx = some b) (silent : s.unanswered) :
    ∃ t, step s = .next t ∧ t.run = some r ∧ t.tx = some b ∧ t.sinkOut = s.sinkOut ∧ t.inputs = s.inputs.tail := by
  have now : (s.inputs.headD Pins.quiet).rst = false ∧ (s.inputs.headD Pins.quiet).txReady = false ∧
      (s.inputs.headD Pins.quiet).txFail = false := by
    cases h : s.inputs with
    | nil => exact ⟨rfl, rfl, rfl⟩
    | cons p rest => exact silent p (by rw [h]; exact List.mem_cons_self)
  obtain ⟨hr, noReady, noFail⟩ := now
  generalize hp : s.inputs.headD Pins.quiet = p at hr noReady noFail
  have busy : s.busy = true := State.busy_eq_true.2 ⟨r, running⟩
  have rests : ({ s with inputs := p :: s.inputs.tail } : State).engineRests p :=
    .inr (.inr ⟨r, x, b, running, stage, offered, noReady, noFail⟩)
  have next : ({ s with inputs := p :: s.inputs.tail } : State).nextTurn p s.inputs.tail := rfl
  rw [step_listed, hp, step_rests next hr rests]
  have hostBusy : (hostRead (s.withTurn p s.inputs.tail)).busy = true := by rw [hostRead_busy]; exact busy
  obtain ⟨t, host, -⟩ := hostWrite_busy hostBusy
  obtain ⟨run, tx, -, out, inputs⟩ := (hostWrite_cases host).of_busy hostBusy
  rw [hostRead_run] at run
  rw [hostRead_tx] at tx
  rw [hostRead_sinkOut] at out
  rw [hostRead_inputs] at inputs
  exact ⟨t, host, run.trans running, tx.trans offered, out, inputs⟩

/-- Settles O28: turn by turn, each without an answer. -/
theorem unansweredOfferHangs : Obligations.UnansweredOfferHangs := by
  unfold Obligations.UnansweredOfferHangs
  intro n
  induction n with
  | zero =>
    intro s r x b running stage offered _
    obtain ⟨valid, data⟩ := tx_some offered
    exact ⟨s, rfl, running, offered, valid, data, rfl, State.busy_eq_true.2 ⟨r, running⟩⟩
  | succ n ih =>
    intro s r x b running stage offered silent
    obtain ⟨u, hu, run, tx, out, inputs⟩ := step_unanswered running stage offered silent
    obtain ⟨t, ht, runT, txT, valid, data, outT, busy⟩ :=
      ih u r x b run stage tx fun p hp => silent p (List.mem_of_mem_tail (inputs ▸ hp))
    rw [turns_succ, hu]
    exact ⟨t, ht, runT, txT, valid, data, outT.trans out, busy⟩

/-! ### Delivery -/

/-- A turn in which the sink accepts and the host does nothing is the engine's step. -/
theorem step_sinkAccepts {s : State} {r : Run} {rest : List Pins} (running : s.run = some r)
    (next : s.inputs = Pins.sinkAccepts :: rest) : step s = engineStep (s.withTurn Pins.sinkAccepts rest) := by
  rw [step_noHost next ⟨rfl, rfl, rfl⟩ (State.busy_eq_true.2 ⟨r, running⟩), engineTurn_unheld rfl]

/-- The block with every byte sent and the command completed; the host and the sink have had their turns. -/
def State.delivered (s : State) (bytes : List Byte) (rest : List Pins) : State :=
  { s with
    pins := Pins.sinkAccepts, inputs := rest, sinkOut := s.sinkOut ++ bytes, run := none, tx := none, done := true }

/-- The block after the sink has taken byte `b` at XIDX = x, with `offer` on offer next. -/
def State.answered (s : State) (r : Run) (x : Nat) (b : Byte) (offer : Option Byte) (rest : List Pins) : State :=
  { s with
    pins := Pins.sinkAccepts, inputs := rest, tx := offer, sinkOut := s.sinkOut ++ [b],
    run := some { r with stage := .xmit (x + 1) } }

section
variable {s : State} {r : Run} {x : Nat} {b : Byte} {rest : List Pins} (running : s.run = some r) (stage : r.stage = .xmit x)
  (offered : s.tx = some b)
include running stage offered

theorem step_answered (next : s.inputs = Pins.sinkAccepts :: rest) : step s = .next (s.answered r x b none rest) := by
  rw [step_sinkAccepts running next]
  exact engineStep_accept (s := s.withTurn Pins.sinkAccepts rest) running stage offered rfl rfl

/-- Two turns are the sink's answer and the engine's next step. -/
theorem turns_two (next : s.inputs = Pins.sinkAccepts :: Pins.sinkAccepts :: rest) :
    turns 2 s = engineStep (s.answered r x b none rest) := by
  have second : step (s.answered r x b none (Pins.sinkAccepts :: rest)) = engineStep (s.answered r x b none rest) :=
    step_sinkAccepts rfl rfl
  rw [turns_succ, step_answered running stage offered next, andThen_next, turns_succ, second]
  cases engineStep (s.answered r x b none rest) <;> rfl

/-- The last byte is taken, and the command completes (R242, R272). -/
theorem turns_last (next : s.inputs = Pins.sinkAccepts :: Pins.sinkAccepts :: rest) (last : workLength r s = x + 1) :
    turns 2 s = .next (s.delivered [b] rest) := by
  rw [turns_two running stage offered next]
  exact engineStep_sent (s := s.answered r x b none rest) (x := x + 1) rfl rfl rfl last.le

/-- A byte is taken, and the byte behind it is offered (R242). -/
theorem turns_more {c : Byte} (next : s.inputs = Pins.sinkAccepts :: Pins.sinkAccepts :: rest)
    (more : x + 1 < workLength r s) (byte : s.tbuf.read (x + 1) = some c) :
    turns 2 s = .next (s.answered r x b (some c) rest) := by
  rw [turns_two running stage offered next]
  exact engineStep_offer (s := s.answered r x b none rest) (x := x + 1) rfl rfl rfl more byte

end

/-- With byte `b` on offer at XIDX = x and `more` behind it, an accepting sink gets them all, with two turns for each. -/
theorem turns_deliver {s : State} {r : Run} {x : Nat} {b : Byte} {more : List Byte} {rest : List Pins}
    (running : s.run = some r) (stage : r.stage = .xmit x) (offered : s.tx = some b)
    (text : s.tbuf.readBytes (x + 1) more.length = some more) (len : workLength r s = x + 1 + more.length)
    (next : s.inputs = List.replicate (2 * (more.length + 1)) Pins.sinkAccepts ++ rest) :
    turns (2 * (more.length + 1)) s = .next (s.delivered (b :: more) rest) := by
  induction more generalizing s r x b with
  | nil => exact turns_last running stage offered next len
  | cons c more ih =>
    obtain ⟨byte, behind⟩ := Memory.readBytes_split (xs := [c]) (ys := more) text rfl
    have first : s.tbuf.read (x + 1) = some c := (Memory.readBytes_eq_some.1 byte).2 0 Nat.zero_lt_one
    rw [List.length_cons] at len
    have twoMore : 2 * (more.length + 1 + 1) = 2 + 2 * (more.length + 1) := by omega
    rw [List.length_cons, twoMore] at next ⊢
    rw [List.replicate_add, List.append_assoc] at next
    have two := turns_more running stage offered next (by omega) first
    rw [turns_add, two, andThen_next]
    have later := ih (s := s.answered r x b (some c) (List.replicate (2 * (more.length + 1)) Pins.sinkAccepts ++ rest))
      (r := { r with stage := .xmit (x + 1) }) rfl rfl rfl behind (len.trans (by omega)) rfl
    refine later.trans ?_
    simp [State.delivered, State.answered]

/-- The same from the first offer on: `bytes` is the whole telegram. -/
theorem turns_deliver_all {s : State} {r : Run} {bytes : List Byte} {rest : List Pins} (running : s.run = some r)
    (stage : r.stage = .xmit 0) (pos : 0 < bytes.length) (offered : s.tx = bytes.head?) (text : s.telegram = some bytes)
    (work : workLength r s = s.tlen.toNat)
    (next : s.inputs = List.replicate (2 * bytes.length) Pins.sinkAccepts ++ rest) :
    turns (2 * bytes.length) s = .next (s.delivered bytes rest) := by
  cases bytes with
  | nil => cases pos
  | cons b more =>
    have len := Memory.readBytes_length text
    obtain ⟨-, behind⟩ := Memory.readBytes_split (xs := [b]) (ys := more) text rfl
    rw [← len] at behind work
    exact turns_deliver running stage offered behind (work.trans (by simp; omega)) next

/-- Settles O29: XMIT offers the first byte and the turns deliver them all. -/
theorem xmitDeliversTheTelegram : Obligations.XmitDeliversTheTelegram := by
  unfold Obligations.XmitDeliversTheTelegram
  intro s t bytes rest hs ready frozen text next h
  obtain ⟨body, sealedText, len, -, -⟩ := hs.sealedOk frozen
  obtain rfl : bytes = body ++ [Config.cr, chk (body ++ [Config.cr])] := Option.some.inj (text.symm.trans sealedText)
  obtain ⟨b, head⟩ := trailer_head body (chk (body ++ [Config.cr]))
  have first : s.tbuf.read 0 = some b := by
    rw [Memory.read_of_readBytes text (by omega), ← List.head?_eq_getElem?, head]
  rw [exec_xmit ready frozen (by omega) first] at h
  cases h
  refine (turns_deliver_all (s := { s with run := some _, done := false, tx := some b }) (rest := rest) rfl rfl (by simp)
    head.symm text rfl next).trans ?_
  obtain ⟨⟨hrun, htx⟩, -⟩ := ready
  simp only [State.delivered, hrun, htx]

/-- Settles O31: the turn of the CMD write leaves the sealed telegram with its first byte on offer, and the turns deliver it. -/
theorem sendDeliversTheSealedTelegram : Obligations.SendDeliversTheSealedTelegram := by
  unfold Obligations.SendDeliversTheSealedTelegram
  intro s k out bytes p rest legal idle passed ho hbytes hp next
  change p = Pins.command (sendCommand k) false at hp
  subst hp hbytes
  obtain ⟨body, hb⟩ : ∃ body, body = norm s.cfg.substEnc out := ⟨_, rfl⟩
  rw [← hb] at next ⊢
  have first := step_command next idle.1
  generalize hu : s.withTurn (Pins.command (sendCommand k) false) _ = u at first
  have formatted : u.formatted k = some out := by rw [← ho, ← hu, formatted_withTurn]
  have accepted : firstError (commandChecks (sendCommand k) u) = none := by rw [← passed, ← hu, commandChecks_withTurn]
  have body_u : body = norm u.cfg.substEnc out := by rw [hb, ← hu]; rfl
  obtain ⟨sent, written⟩ := send_writes (by rw [← hu]; exact ⟨idle, rfl⟩) (by rw [← hu]; exact legal) accepted formatted
    body_u rfl
  have send : isSend (sendCommand k) = true := by cases k <;> rfl
  have delivered := turns_deliver_all (s := u.afterSend k out body (chk (body ++ [Config.cr]))) (rest := rest) rfl rfl
    (by simp) rfl written (workLength_send send _) (by rw [← hu]; rfl)
  subst hu
  refine ⟨_, Eq.trans ?_ delivered, rfl, written, rfl, rfl, rfl, rfl, rfl, rfl, rfl, rfl⟩
  rw [turns_succ, first, sent]
  rfl

end Sys2Proof.Machine
end
